-- ==== Sys2Proof/Word.lean ====
section
/-!
DEFINITION. The word types of the block: 32-bit host-port registers and operands, 8-bit device cells and bus bytes
(spec/00_scope.md R8, R12).
-/

namespace Sys2Proof

/-- A host-port register or operand, REG_W = 32 bits (R8). Every value is unsigned (R12). -/
abbrev Word := BitVec 32

/-- A device cell or a bus word, DATA_W = WORD_BITS = 8 bits (R8). -/
abbrev Byte := BitVec 8

/-- A frame or a response: its bytes, byte 0 first (R12, R65). -/
abbrev Frame := List Byte

end Sys2Proof
end

