-- ==== Sys2Proof/Config.lean ====
section
/-!
DEFINITION. What an implementation fixes (spec/00_scope.md R8) and what the spec leaves open
(R10, spec/92_eei_decisions.md D33 to D37). The open points are opaque constants: nothing can be proved of their values.
-/

namespace Sys2Proof

/-- One event on the bus port, as the history that DeviceOracle reads records it (R38). -/
inductive BusEvent where
  /-- An exchange of this frame returned a response of the frame's length (R124). -/
  | exchanged (tx : Frame)
  /-- An exchange of this frame failed, or its response had another length (R222). -/
  | failed (tx : Frame)
  /-- Reset cut the exchange of this frame short (R261). -/
  | cut (tx : Frame)
deriving DecidableEq, Repr

/-- The bus events so far, newest first. -/
abbrev History := List BusEvent

/-- How an exchange ends, before any response byte is looked at (R123, D34). -/
inductive Draw where
  | completes
  | fails
  | neverAnswers
deriving DecidableEq, Repr, Inhabited

/-- ExchangeOutcome: what the bus port reports of one exchange (R123). -/
inductive ExchangeOutcome where
  | ok (rx : List Byte)
  | err
  | noAnswer
deriving DecidableEq, Repr

/-- A device behind the bus port: the two parameters of the step relation that R10 names. -/
structure Device where
  /-- DeviceOracle (R38, D33): the response bytes to a frame after a history. -/
  respond : History → Frame → List Byte
  /-- ExchangeOutcome's kind (R123, D34): does this exchange complete, fail or never answer. -/
  draw : History → Frame → Draw

/-- OPEN D33. The response bytes of the device the block is wired to: any bytes. -/
opaque Config.deviceOracle : History → Frame → List Byte

/-- OPEN D34. Whether each exchange completes, fails or never answers: any draw. -/
opaque Config.exchangeDraw : History → Frame → Draw

/-- OPEN D35. The reading a platform gives a device status byte. The block treats the byte as opaque (R131). -/
opaque Config.statusMeaning : Byte → Nat

/-- OPEN D36. HOST_BASE, where the platform places the 64-byte host window (R20). No rule depends on it. -/
opaque Config.hostBase : Word

/-- OPEN D37. BUS_HZ, the bus clock rate. The model has no time (R269). -/
opaque Config.busHz : Nat

/-- The device the block is wired to. -/
def Config.device : Device := ⟨Config.deviceOracle, Config.exchangeDraw⟩

/-- DEV_CELLS (R8): the device space has 65536 cells. -/
def Config.devCells : Nat := 65536

/-- The largest address of ADDR_W = 16 bits (R8, R60). -/
def Config.addrMax : Word := 0xFFFF

/-- The largest value of DATA_W = 8 bits (R8, R60). -/
def Config.valueMax : Word := 0xFF

/-- Where a register of the host window lies on the platform: HOST_BASE plus its offset (R20, D36). -/
def Config.hostAddress (offset : BitVec 6) : Word := Config.hostBase + offset.setWidth 32

end Sys2Proof
end

