-- ==== Sys2Proof/Syntax.lean ====
section
/-!
DEFINITION. The ten rows of spec/opcode_table.json as one inductive type: three bus frames (spec/30_encoding.md R90) and
seven host commands (R99). A frame carries its 32-bit operands as they stand before the range check (R120, R121);
a command carries none, since its operands come from the latched set (R98).
-/

namespace Sys2Proof

inductive Instr where
  /-- READ, format FR (R125). -/
  | read (addr : Word)
  /-- WRITE, format FW (R126). -/
  | write (addr value : Word)
  /-- READ_STATUS, format FS (R127). -/
  | readStatus
  /-- DREAD, OPC 0x1 (R129). -/
  | dread
  /-- DWRITE, OPC 0x2 (R130). -/
  | dwrite
  /-- DSTATUS, OPC 0x3 (R131). -/
  | dstatus
  /-- CHECKER, OPC 0x4 (R185). -/
  | checker
  /-- MARCH_A, OPC 0x5 (R188). -/
  | marchA
  /-- SEQUENCE, OPC 0x6 (R194). -/
  | sequence
  /-- MELEM, OPC 0x7 (R160). -/
  | melem
deriving DecidableEq, Repr

/-- Is the instruction a bus frame (R90), as against a host command (R99)? -/
def Instr.isFrame : Instr → Bool
  | .read _ | .write _ _ | .readStatus => true
  | .dread | .dwrite | .dstatus | .checker | .marchA | .sequence | .melem => false

end Sys2Proof
end

