-- ==== Sys2Proof/WellFormed.lean ====
section
/-!
DEFINITION. Which instructions have an encoding: the operands a frame can carry (spec/20_memory.md R60,
spec/40_transport.md R120, R121).
-/

namespace Sys2Proof

/-- The address passes the 16-bit range check of R120. -/
def addrFits (a : Word) : Bool := decide (a ≤ Config.addrMax)

/-- The value passes the 8-bit range check of R121. -/
def valueFits (v : Word) : Bool := decide (v ≤ Config.valueMax)

/-- Every operand of the instruction fits the bits its encoding gives it. -/
def Instr.wellFormed : Instr → Bool
  | .read a => addrFits a
  | .write a v => addrFits a && valueFits v
  | .readStatus | .dread | .dwrite | .dstatus | .checker | .marchA | .sequence | .melem => true

end Sys2Proof
end

