-- ==== Sys2Proof/Decode.lean ====
section
/-!
DEFINITION. The decoder, total on any bytes and on any command word, rejecting by name; after it the encoder
(spec/30_encoding.md R90 to R101, spec/40_transport.md R120 to R122).
-/

namespace Sys2Proof

/-- Why bytes or a command word are no instruction of this block. -/
inductive DecodeError where
  /-- No byte at all. -/
  | noBytes
  /-- Byte 0 is none of 0x03, 0x02, 0x05 (R97). -/
  | foreignOpcode (opcode : Byte)
  /-- Fewer bytes than byte 0 calls for (R96). -/
  | truncated
  /-- More bytes than byte 0 calls for, where one frame was expected (R96). -/
  | trailingBytes
  /-- The last byte is not the dummy 0x00 (R94). -/
  | dummyNotZero
  /-- OPC is 0x0 or 0x8 to 0xF (R101). -/
  | reservedOpc (opc : BitVec 4)
  /-- A bit of the command word's [31:4] is set (R101). -/
  | reservedBits
deriving DecidableEq, Repr

/-- addr[15:8], sent first (R64, R92). -/
def addrHi (a : Word) : Byte := a.extractLsb' 8 8

/-- addr[7:0], sent second (R64, R92). -/
def addrLo (a : Word) : Byte := a.extractLsb' 0 8

/-- The address that two address bytes carry, high byte first (R64). -/
def addressOf (hi lo : Byte) : Word := (hi ++ lo).setWidth 32

/-- The value operand that a WRITE's value byte carries (R93). -/
def valueOf (v : Byte) : Word := v.setWidth 32

/-- Is the byte the dummy 0x00 that ends every frame (R94)? -/
def checkDummy (dummy : Byte) (i : Instr) (rest : List Byte) : Except DecodeError (Instr × List Byte) :=
  if dummy = 0x00 then .ok (i, rest) else .error .dummyNotZero

/-- Format FR after its opcode byte (R90). -/
def decodeReadTail : List Byte → Except DecodeError (Instr × List Byte)
  | hi :: lo :: dummy :: rest => checkDummy dummy (.read (addressOf hi lo)) rest
  | _ => .error .truncated

/-- Format FW after its opcode byte (R90). -/
def decodeWriteTail : List Byte → Except DecodeError (Instr × List Byte)
  | hi :: lo :: v :: dummy :: rest => checkDummy dummy (.write (addressOf hi lo) (valueOf v)) rest
  | _ => .error .truncated

/-- Format FS after its opcode byte (R90; 90_conflicts.md C1: no address bytes). -/
def decodeStatusTail : List Byte → Except DecodeError (Instr × List Byte)
  | dummy :: rest => checkDummy dummy .readStatus rest
  | _ => .error .truncated

/-- The first frame of a byte stream, and the bytes after it: byte 0 alone says the format (R91, R96, R97). -/
def decodeStream : List Byte → Except DecodeError (Instr × List Byte)
  | [] => .error .noBytes
  | opcode :: rest =>
    if opcode = 0x03 then decodeReadTail rest
    else if opcode = 0x02 then decodeWriteTail rest
    else if opcode = 0x05 then decodeStatusTail rest
    else .error (.foreignOpcode opcode)

/-- One whole frame: a frame's end is the end of its exchange (R96). -/
def decodeFrame (bytes : List Byte) : Except DecodeError Instr :=
  match decodeStream bytes with
  | .ok (i, []) => .ok i
  | .ok (_, _ :: _) => .error .trailingBytes
  | .error e => .error e

/-- A byte stream cut into its frames, at most `fuel` of them (R96). -/
def decodeFrames : Nat → List Byte → Except DecodeError (List Instr)
  | _, [] => .ok []
  | 0, _ :: _ => .error .trailingBytes
  | fuel + 1, b :: bs =>
    match decodeStream (b :: bs) with
    | .error e => .error e
    | .ok (i, rest) =>
      match decodeFrames fuel rest with
      | .error e => .error e
      | .ok is => .ok (i :: is)

/-- The command opcode map of R99. -/
def decodeOpc (opc : BitVec 4) : Except DecodeError Instr :=
  if opc = 0x1 then .ok .dread
  else if opc = 0x2 then .ok .dwrite
  else if opc = 0x3 then .ok .dstatus
  else if opc = 0x4 then .ok .checker
  else if opc = 0x5 then .ok .marchA
  else if opc = 0x6 then .ok .sequence
  else if opc = 0x7 then .ok .melem
  else .error (.reservedOpc opc)

/-- Dispatch's view of a command word: its OPC field and whether its reserved bits are all 0 (R33, R100). -/
def decodeLatched (opc : BitVec 4) (wordOk : Bool) : Except DecodeError Instr :=
  if wordOk then decodeOpc opc else .error .reservedBits

/-- The OPC field of a command word, w[3:0] (R98). -/
def opcOf (w : Word) : BitVec 4 := w.extractLsb' 0 4

/-- word_ok of a command word: w[31:4] = 0 (R33, R98). -/
def wordOkOf (w : Word) : Bool := w.extractLsb' 4 28 == 0

/-- A command word as the host writes it to CMD (R98, R99). -/
def decodeCommand (w : Word) : Except DecodeError Instr := decodeLatched (opcOf w) (wordOkOf w)

/-- The two encodings of spec/30_encoding.md: the bytes of a bus frame, or a host command word. -/
inductive CodeWord where
  | frame (bytes : Frame)
  | command (w : Word)
deriving DecidableEq, Repr

def decode : CodeWord → Except DecodeError Instr
  | .frame bytes => decodeFrame bytes
  | .command w => decodeCommand w

/-- The low `n` bytes of a table number, most significant first: spec/opcode_table.json reads a frame's bytes as one
big-endian integer with byte 0 most significant (spec/30_encoding.md, before R90). -/
def tableBytes : Nat → Nat → List Byte
  | 0, _ => []
  | n + 1, w => BitVec.ofNat 8 (w / 256 ^ n) :: tableBytes n w

/-- The instruction of a row of spec/opcode_table.json, from the row's number `w` of `nbits` bits. A number of 32 bits is a
READ frame or a command word; no number is both, since a READ has 0x03 in bits [31:24] and a command word has 0 there. -/
def decodeTableWord (nbits w : Nat) : Option Instr :=
  match decodeFrame (tableBytes (nbits / 8) w) with
  | .ok i => some i
  | .error _ =>
    if nbits = 32 then
      match decodeCommand (BitVec.ofNat 32 w) with
      | .ok i => some i
      | .error _ => none
    else none

/-- Which operand was out of range (R28 RANGE_SEL, R120, R121). -/
inductive RangeSel where
  | addr
  | value
deriving DecidableEq, Repr

/-- EncRead (R120): no masking into range (R92, 90_conflicts.md C6). -/
def encRead (a : Word) : Except RangeSel Frame :=
  if a > Config.addrMax then .error .addr
  else .ok [0x03, addrHi a, addrLo a, 0x00]

/-- EncWrite (R121): the address is checked first (D14). -/
def encWrite (a v : Word) : Except RangeSel Frame :=
  if a > Config.addrMax then .error .addr
  else if v > Config.valueMax then .error .value
  else .ok [0x02, addrHi a, addrLo a, v.extractLsb' 0 8, 0x00]

/-- EncStatus (R122): it cannot raise. -/
def encStatus : Frame := [0x05, 0x00]

/-- The command word of an OPC: the reserved bits are 0 (R98, R102 RUN). -/
def commandWord (opc : BitVec 4) : Word := opc.setWidth 32

/-- The encoder, from the tables of R90 and R99. It raises RangeError exactly where an operand does not fit. -/
def encode : Instr → Except RangeSel CodeWord
  | .read a => (encRead a).map CodeWord.frame
  | .write a v => (encWrite a v).map CodeWord.frame
  | .readStatus => .ok (.frame encStatus)
  | .dread => .ok (.command (commandWord 0x1))
  | .dwrite => .ok (.command (commandWord 0x2))
  | .dstatus => .ok (.command (commandWord 0x3))
  | .checker => .ok (.command (commandWord 0x4))
  | .marchA => .ok (.command (commandWord 0x5))
  | .sequence => .ok (.command (commandWord 0x6))
  | .melem => .ok (.command (commandWord 0x7))

/-- The bytes an instruction puts on the bus: a well-formed frame's; none for a command or an operand out of range. -/
def frameBytes (i : Instr) : Option Frame :=
  match encode i with
  | .ok (.frame bytes) => some bytes
  | .ok (.command _) => none
  | .error _ => none

end Sys2Proof
end

