-- ==== Sys2Proof/Machine/State.lean ====
section
/-!
DEFINITION. The state of the block as plain data (spec/10_state.md), its reset value (R40), and the reasons a step can stop.
-/

namespace Sys2Proof.Machine

/-- The sequencer's control state (R35). STATUS.BUSY and STATUS.HALTED are read from it. -/
inductive Mode where
  | idle
  | busy
  | halted
deriving DecidableEq, Repr

/-- Completion codes (R29). The reserved values 7 to 15 are never produced and have no name here. -/
inductive Code where
  | none
  | pass
  | fail
  | rangeError
  | transportError
  | illegalCmd
  | badParam
deriving DecidableEq, Repr

/-- Phase codes (R30). The reserved values 10 to 15 are never produced and have no name here. -/
inductive Phase where
  | none
  | cbWrite
  | cbVerify
  | m0
  | m1
  | m2
  | m3
  | m4
  | sqWrite
  | sqVerify
deriving DecidableEq, Repr

/-- FKIND: the kind of the frame involved in a termination (R28). -/
inductive FrameKind where
  | none
  | read
  | write
  | readStatus
deriving DecidableEq, Repr

/-- The latched operand set L (R33). -/
structure Latched where
  opc : BitVec 4
  wordOk : Bool
  addr : Word
  data : Word
  size : Word
  step : Word
  lane : Word
  elem : Word
deriving DecidableEq, Repr

/-- The sequencer position (R34). -/
structure Pos where
  phase : Phase
  a : Word
  lane : BitVec 3
  fidx : BitVec 3
deriving DecidableEq, Repr

/-- The fields of FAIL_WHERE (R28). The reserved bits have no field and read 0. -/
structure FailWhere where
  alg : BitVec 4
  phase : Phase
  lane : BitVec 3
  laneValid : Bool
  step : BitVec 2
  rangeSel : Bool
  fidx : BitVec 3
  fkind : FrameKind
deriving DecidableEq, Repr

/-- The width of a host access (R21). -/
inductive AccessWidth where
  | byte
  | half
  | word
deriving DecidableEq, Repr

/-- What the world outside does to the block next (R11, R79, R102, R260). An offset is within the 64-byte window (R20). -/
inductive Input where
  /-- W: a host write of a value at an offset of the window. -/
  | write (offset : BitVec 6) (width : AccessWidth) (value : Word)
  /-- R: a host read at an offset of the window. -/
  | read (offset : BitVec 6) (width : AccessWidth)
  /-- POLL: read STATUS until BUSY = 0. -/
  | poll
  /-- The host does nothing while the sequencer takes one step. -/
  | sequencer
  /-- Reset is asserted and released between exchanges. -/
  | reset
  /-- Reset is asserted and released while the frame that comes next is partly sent (R261). -/
  | resetMidFrame
deriving DecidableEq, Repr

/-- The block's state: the host-port registers (R20), L (R33), pos (R34), mode (R35), rmw (R36) and the bus port (R40), which
is all the spec gives it (R37); then four fields of the model's own: `dispatched`, `history`, `inputs` and `hostData`. -/
structure State where
  /-- ARG_ADDR (R24). -/
  argAddr : Word
  /-- ARG_DATA (R24). -/
  argData : Word
  /-- ARG_SIZE (R24). -/
  argSize : Word
  /-- ARG_STEP (R24). -/
  argStep : Word
  /-- ARG_LANE (R24). -/
  argLane : Word
  /-- ARG_ELEM (R24). -/
  argElem : Word
  /-- STATUS.DONE (R23). -/
  done : Bool
  /-- STATUS.OVERRUN (R23, R226). -/
  overrun : Bool
  /-- STATUS.CODE (R29). -/
  code : Code
  /-- RESULT (R26). -/
  result : Word
  /-- FAIL_WHERE (R28). -/
  failWhere : FailWhere
  /-- FAIL_ADDR (R27). -/
  failAddr : Word
  /-- FAIL_EXP (R27). -/
  failExp : Word
  /-- FAIL_OBS (R27). -/
  failObs : Word
  /-- TXN_COUNT (R32). -/
  txnCount : Word
  /-- mode (R35). -/
  mode : Mode
  /-- L (R33). -/
  latched : Latched
  /-- pos (R34). -/
  pos : Pos
  /-- rmw (R36). -/
  rmw : Byte
  /-- The bus port: the frame whose exchange has not completed, if there is one (R40, R123). -/
  inFlight : Option Frame
  /-- MODEL: has the latched command been dispatched (R100; DEDUCED, log 2)? -/
  dispatched : Bool
  /-- MODEL: the bus events so far, newest first: what DeviceOracle reads (R38; DESIGN CHOICE, log 4). -/
  history : History
  /-- MODEL: what the world outside does next, in order (DESIGN CHOICE, log 6). -/
  inputs : List Input
  /-- MODEL: what the latest host read returned (DESIGN CHOICE, log 7). -/
  hostData : Option Word
deriving DecidableEq, Repr

/-- Why the machine stops with a fault. -/
inductive Fault where
  /-- Raised by `exec` on an instruction that the sequencer does not issue in that state: the block issues exactly the frames
  its rules name (R73), so no rule gives an effect. `step` never raises it. SAFE: the model stops where the hardware
  never is (DESIGN CHOICE, log 11). -/
  | notIssued
deriving DecidableEq, Repr

/-- Why the model gives a step no meaning. -/
inductive Refusal where
  /-- An instruction that has no meaning yet, by its mnemonic. SAFE. No arm of `exec` raises it any more. -/
  | notModelled (mnemonic : String)
  /-- Raised by `step` on a BUSY state whose position names no frame: a reserved value, "never produced", which a model that
  meets one refuses (93_implementation_defined.md I14). SAFE: no run from reset gets there (log 12). -/
  | reservedPosition
  /-- Raised by `step` on a host access narrower than 32 bits, which R21 says the model refuses. SAFE. -/
  | narrowAccess
  /-- Raised by `step` on a 32-bit host access at an offset that is no multiple of 4, which R21 says the model refuses. SAFE. -/
  | misalignedAccess
deriving DecidableEq, Repr

/-- What one step of the block ends in. -/
abbrev Outcome := Host.Outcome State Fault Refusal

/-- L at reset: all zeros, word_ok 0 (R33, R40). -/
def Latched.reset : Latched :=
  { opc := 0, wordOk := false, addr := 0, data := 0, size := 0, step := 0, lane := 0, elem := 0 }

/-- pos at reset and after acceptance: (NONE, 0, 0, 0) (R34, R43). -/
def Pos.start : Pos := { phase := .none, a := 0, lane := 0, fidx := 0 }

/-- FAIL_WHERE = 0x00000000 (R40, R43). -/
def FailWhere.zero : FailWhere :=
  { alg := 0, phase := .none, lane := 0, laneValid := false, step := 0, rangeSel := false, fidx := 0, fkind := .none }

/-- The block right after reset (R40). -/
def State.reset : State where
  argAddr := 0x00000000
  argData := 0x00000000
  argSize := 0x00010000
  argStep := 0x00000001
  argLane := 0x00000000
  argElem := 0x00000001
  done := false
  overrun := false
  code := .none
  result := 0x00000000
  failWhere := FailWhere.zero
  failAddr := 0x00000000
  failExp := 0x00000000
  failObs := 0x00000000
  txnCount := 0x00000000
  mode := .idle
  latched := Latched.reset
  pos := Pos.start
  rmw := 0x00
  inFlight := none
  dispatched := false
  history := []
  inputs := []
  hostData := none

end Sys2Proof.Machine
end

