-- ==== Sys2Proof/Machine/Flags.lean ====
section
/-!
DEFINITION. The codes and the register words the host reads: STATUS (spec/10_state.md R23), FAIL_WHERE (R28),
completion codes (R29), phase codes (R30) and frame kinds (R28).
-/

namespace Sys2Proof.Machine

/-- CODE's value (R29). -/
def codeValue : Code → BitVec 4
  | .none => 0
  | .pass => 1
  | .fail => 2
  | .rangeError => 3
  | .transportError => 4
  | .illegalCmd => 5
  | .badParam => 6

/-- PHASE's value (R30). -/
def phaseValue : Phase → BitVec 4
  | .none => 0
  | .cbWrite => 1
  | .cbVerify => 2
  | .m0 => 3
  | .m1 => 4
  | .m2 => 5
  | .m3 => 6
  | .m4 => 7
  | .sqWrite => 8
  | .sqVerify => 9

/-- FKIND's value (R28). -/
def kindValue : FrameKind → BitVec 2
  | .none => 0
  | .read => 1
  | .write => 2
  | .readStatus => 3

/-- STATUS (R23): CODE in [7:4], OVERRUN, DONE, HALTED, BUSY in [3], [2], [1], [0]; [31:8] reads 0. BUSY and HALTED are
read from mode (R35). -/
def statusWord (s : State) : Word :=
  0#24 ++ codeValue s.code ++ BitVec.ofBool s.overrun ++ BitVec.ofBool s.done
    ++ BitVec.ofBool (decide (s.mode = .halted)) ++ BitVec.ofBool (decide (s.mode = .busy))

/-- FAIL_WHERE (R28): FKIND [21:20], FIDX [18:16], RANGE_SEL [14], STEP [13:12], LANE_VALID [11], LANE [10:8], PHASE [7:4],
ALG [3:0]; the other bits read 0. -/
def failWhereWord (f : FailWhere) : Word :=
  0#10 ++ kindValue f.fkind ++ 0#1 ++ f.fidx ++ 0#1 ++ BitVec.ofBool f.rangeSel ++ f.step
    ++ BitVec.ofBool f.laneValid ++ f.lane ++ phaseValue f.phase ++ f.alg

/-- Does a termination with this code fill in the whole failure record, or only ALG (R27, R28, R229)? -/
def recordsFailure : Code → Bool
  | .fail | .rangeError | .transportError => true
  | .none | .pass | .illegalCmd | .badParam => false

/-- Phases whose frames belong to a lane element: M1 to M4, by MARCH_A or by MELEM (R28 LANE_VALID, R229). -/
def lanePhase : Phase → Bool
  | .m1 | .m2 | .m3 | .m4 => true
  | .none | .cbWrite | .cbVerify | .m0 | .sqWrite | .sqVerify => false

end Sys2Proof.Machine
end

