-- ==== Sys2Proof/Machine/Operands.lean ====
section
/-!
DEFINITION. Operand computations: lane arithmetic (spec/41_march_primitives.md R150), the checkerboard pattern
(spec/42_algorithms.md R185), the four March elements (R154 to R157) and the sweep and lane orders (R180, R181).
-/

namespace Sys2Proof.Machine

/-- m(b) = 1 << b, 8 bits wide (R150). -/
def laneMask (b : BitVec 3) : Byte := 1#8 <<< b.toNat

/-- bit(r, b) = (r >> b) & 1 (R150). -/
def laneBit (r : Byte) (b : BitVec 3) : Bool := (r >>> b.toNat).getLsbD 0

/-- Lane b of r set: r | m(b) (R150). -/
def setLane (r : Byte) (b : BitVec 3) : Byte := r ||| laneMask b

/-- Lane b of r cleared: r & (~m(b) & 0xFF) (R150). -/
def clearLane (r : Byte) (b : BitVec 3) : Byte := r &&& (~~~ laneMask b &&& 0xFF)

/-- The byte a lane write of value v sends back: WriteBit1 sets the lane, WriteBit0 clears it (R152, R153). -/
def writeLane (v : Bool) (r : Byte) (b : BitVec 3) : Byte := if v then setLane r b else clearLane r b

/-- zext_32 of a byte (R12). -/
def zext (b : Byte) : Word := b.setWidth 32

/-- Pat(step, a): 0xAA if (a mod 2 == 0) == (step == 1), otherwise 0x55 (R185). -/
def pat (step a : Word) : Byte := if decide (a % 2 = 0) = decide (step = 1) then 0xAA else 0x55

/-- The steps CHECKER takes: 1 and 2 (R185, D11). -/
def stepLegal (step : Word) : Bool := step = 1 || step = 2

/-- A March element: verify the lane against `expect`, then the lane writes in order, each one read-modify-write. -/
structure Element where
  expect : Bool
  writes : List Bool
deriving DecidableEq, Repr

/-- Element 1, phase M1: (r0, w1, w0, w1) (R154). -/
def element1 : Element := { expect := false, writes := [true, false, true] }

/-- Element 2, phase M2: (r1, w0, w1) (R155). -/
def element2 : Element := { expect := true, writes := [false, true] }

/-- Element 3, phase M3: (r1, w0, w1, w0) (R156). -/
def element3 : Element := { expect := true, writes := [false, true, false] }

/-- Element 4, phase M4: (r0, w1, w0) (R157). -/
def element4 : Element := { expect := false, writes := [true, false] }

/-- The element a March phase applies to one lane of one address (R190 to R193); M0 and the other phases have none. -/
def elementOf : Phase → Option Element
  | .m1 => some element1
  | .m2 => some element2
  | .m3 => some element3
  | .m4 => some element4
  | .none | .cbWrite | .cbVerify | .m0 | .sqWrite | .sqVerify => Option.none

/-- Frames of an element: the verify READ, then a READ and a WRITE for each lane write (R154 to R157, R161). -/
def elementFrames (e : Element) : Nat := 1 + 2 * e.writes.length

/-- The lane value a frame of an element writes: the WRITE at FIDX k + 1 belongs to the READ at the odd FIDX k (R161).
None for a READ and past the element's end. -/
def writeAt (e : Element) (fidx : Nat) : Option Bool :=
  if fidx % 2 = 0 ∧ fidx ≠ 0 then e.writes[fidx / 2 - 1]? else none

/-- Is the frame at FIDX a READ of the element: the verify at 0, or a read-modify-write's READ at an odd FIDX (R161)? -/
def readAt (e : Element) (fidx : Nat) : Bool := fidx = 0 || (fidx % 2 = 1 && decide (fidx < elementFrames e))

/-- PHASE_OF: the phase in which MELEM runs element 1, 2, 3 or 4; other element numbers have none (R160). -/
def phaseOf (elem : Word) : Option Phase :=
  if elem = 1 then some .m1
  else if elem = 2 then some .m2
  else if elem = 3 then some .m3
  else if elem = 4 then some .m4
  else none

/-- MELEM's lanes: 0 to 7 (R160). -/
def laneLegal (lane : Word) : Bool := lane ≤ 7

/-- M3 and M4 sweep addresses and lanes downwards; every other phase upwards (R181, R186 to R196). -/
def descending : Phase → Bool
  | .m3 | .m4 => true
  | .none | .cbWrite | .cbVerify | .m0 | .m1 | .m2 | .sqWrite | .sqVerify => false

/-- Asc(n): 0, 1, ..., n - 1 (R180). -/
def asc (n : Nat) : List Nat := List.range n

/-- Desc(n): n - 1, n - 2, ..., 0 (R180). -/
def desc (n : Nat) : List Nat := (List.range n).reverse

/-- The address sweep of a phase over n cells (R186 to R196). -/
def sweep (p : Phase) (n : Nat) : List Nat := if descending p then desc n else asc n

/-- The first lane of a phase: 0 in Up, 7 in Down (R181). Phases without lanes leave it 0. -/
def firstLane (p : Phase) : BitVec 3 := if descending p then 7 else 0

/-- The lane after `b` in a phase's lane order (R181). -/
def nextLane (p : Phase) (b : BitVec 3) : Option (BitVec 3) :=
  if descending p then (if b = 0 then none else some (b - 1)) else (if b = 7 then none else some (b + 1))

/-- The first address of a phase's sweep over n cells; none if the sweep is empty (R180). -/
def firstAddress (p : Phase) (n : Word) : Option Word :=
  if n = 0 then none else some (if descending p then n - 1 else 0)

/-- The address after `a` in a phase's sweep over n cells; the counter never wraps (R180). -/
def nextAddress (p : Phase) (n a : Word) : Option Word :=
  if descending p then (if a = 0 then none else some (a - 1))
  else (if a.toNat + 1 < n.toNat then some (a + 1) else none)

end Sys2Proof.Machine
end

