-- ==== Sys2Proof/Machine/Ops.lean ====
section
/-!
DEFINITION. The shared operations on the state: accepting a command (spec/10_state.md R43), ending one
(spec/60_exceptions.md R229, the analogue of taking an exception) and the bus exchange (spec/40_transport.md R123, R124).
The block has no return from an exception (R231): a later acceptance or reset clears the record.
-/

namespace Sys2Proof.Machine

/-- OPC values that termination and the sequencer test (R99). -/
def opcDread : BitVec 4 := 0x1
def opcDwrite : BitVec 4 := 0x2
def opcDstatus : BitVec 4 := 0x3
def opcChecker : BitVec 4 := 0x4
def opcMelem : BitVec 4 := 0x7

/-- Acceptance of command word w: the IDLE branch of R43, one atomic step. -/
def accept (w : Word) (s : State) : State :=
  { s with
    latched :=
      { opc := opcOf w, wordOk := wordOkOf w, addr := s.argAddr, data := s.argData, size := s.argSize,
        step := s.argStep, lane := s.argLane, elem := s.argElem }
    result := 0
    failWhere := FailWhere.zero
    failAddr := 0
    failExp := 0
    failObs := 0
    txnCount := 0
    done := false
    code := .none
    pos := Pos.start
    mode := .busy
    dispatched := false }

/-- A command request: accepted in IDLE; otherwise dropped, and only OVERRUN is set (R43, R226). -/
def requestCommand (w : Word) (s : State) : State :=
  if s.mode = .idle then accept w s else { s with overrun := true }

/-- What a termination records, R229's `info`: the frame involved, the operand out of range, the three record values of R27,
and the byte a direct command returns. -/
structure Info where
  kind : FrameKind
  sel : RangeSel
  addr : Word
  exp : Word
  obs : Word
  result : Word
deriving DecidableEq, Repr

/-- A termination with nothing to record. -/
def Info.empty : Info := { kind := .none, sel := .addr, addr := 0, exp := 0, obs := 0, result := 0 }

/-- FAIL_WHERE as termination writes it (R229, R28). -/
def failWhereOf (code : Code) (info : Info) (s : State) : FailWhere :=
  let records := recordsFailure code
  let laneValid := records && lanePhase s.pos.phase
  { alg := s.latched.opc
    phase := if records then s.pos.phase else .none
    fkind := if records then info.kind else .none
    lane := if laneValid then s.pos.lane else 0
    laneValid := laneValid
    fidx := if laneValid then s.pos.fidx else 0
    step := if records && s.latched.opc = opcChecker then s.latched.step.extractLsb' 0 2 else 0
    rangeSel := code = .rangeError && info.sel = .value }

/-- `terminate(code, info)` of R229, one atomic step: the whole of what ends a command, for every cause. -/
def terminate (code : Code) (info : Info) (s : State) : State :=
  { s with
    failWhere := failWhereOf code info s
    failAddr := if recordsFailure code then info.addr else 0
    failExp := if recordsFailure code then info.exp else 0
    failObs := if code = .fail then info.obs else 0
    result := if code = .pass && (s.latched.opc = opcDread || s.latched.opc = opcDstatus) then info.result else 0
    code := code
    done := true
    mode := if code = .transportError then .halted else .idle }

/-- `finish(PASS)` (R198, R229). -/
def finish (s : State) : State := terminate .pass Info.empty s

/-- `finish(PASS)` of a direct command that returns byte r: the RESULT write and finish are one step (R129, R131). -/
def finishWith (r : Byte) (s : State) : State := terminate .pass { Info.empty with result := zext r } s

/-- `raise VerifyFail(addr, exp, obs)` (R151, R187, R196, R223). -/
def verifyFail (exp : Word) (obs : Byte) (s : State) : State :=
  terminate .fail { Info.empty with kind := .read, addr := s.pos.a, exp := exp, obs := zext obs } s

/-- What a range error or a transport error records of the frame it concerns (R27, R221, R222): the address operand, the value
operand of a WRITE, 0 for what a frame does not have. -/
def frameInfo : Instr → Info
  | .read a => { Info.empty with kind := .read, addr := a }
  | .write a v => { Info.empty with kind := .write, addr := a, exp := v }
  | .readStatus => { Info.empty with kind := .readStatus }
  | .dread | .dwrite | .dstatus | .checker | .marchA | .sequence | .melem => Info.empty

/-- `raise RangeError` while frame i is being built: nothing is sent (R120, R121, R221). -/
def rangeError (i : Instr) (sel : RangeSel) (s : State) : State :=
  terminate .rangeError { frameInfo i with sel := sel } s

/-- `raise TransportError` with frame i in flight: not counted, not retried, the block halts (R124, R222). -/
def transportError (i : Instr) (tx : Frame) (s : State) : State :=
  terminate .transportError (frameInfo i) { s with history := .failed tx :: s.history }

/-- An exchange that returned a response of the right length is counted, modulo 2^32 (R32, R124). -/
def countExchange (tx : Frame) (s : State) : State :=
  { s with txnCount := s.txnCount + 1, history := .exchanged tx :: s.history }

/-- `Exchange(tx)`'s outcome (R123): the device gives the bytes and the draw says whether they arrive. -/
def exchange (d : Device) (h : History) (tx : Frame) : ExchangeOutcome :=
  match d.draw h tx with
  | .completes => .ok (d.respond h tx)
  | .fails => .err
  | .neverAnswers => .noAnswer

/-- The last response byte, the only one the block reads (R95, R124). A frame has at least two bytes. -/
def lastByte (rx : List Byte) : Byte := rx.getLastD 0

/-- `Decode(tx, Exchange(tx))` of R124 for frame i of bytes tx, and then `after` with the byte it returns. No answer leaves the
exchange in flight with mode = BUSY (R123, R227). -/
def exchangeThen (d : Device) (i : Instr) (tx : Frame) (after : Byte → State → State) (s : State) : State :=
  match exchange d s.history tx with
  | .noAnswer => { s with inFlight := some tx }
  | .err => transportError i tx s
  | .ok rx => if rx.length = tx.length then after (lastByte rx) (countExchange tx s) else transportError i tx s

end Sys2Proof.Machine
end

