-- ==== Sys2Proof/Machine/Sequencer.lean ====
section
/-!
DEFINITION. The sequencer: which instruction it issues at its position, how the position advances
(spec/10_state.md R34, spec/42_algorithms.md R197), and what it does with a byte read
(spec/40_transport.md R125 to R131, spec/41_march_primitives.md R151 to R161).
-/

namespace Sys2Proof.Machine

/-- The frame that position pos of the latched command names, with its 32-bit operands as they stand before the range check
(R129 to R131, R151 to R157, R186 to R196). -/
def frameAt (l : Latched) (pos : Pos) (rmw : Byte) : Option Instr :=
  match pos.phase with
  | .none =>
    if l.opc = opcDread then some (.read l.addr)
    else if l.opc = opcDwrite then some (.write l.addr l.data)
    else if l.opc = opcDstatus then some .readStatus
    else none
  | .cbWrite => some (.write pos.a (zext (pat l.step pos.a)))
  | .cbVerify => some (.read pos.a)
  | .m0 => some (.write pos.a 0)
  | .sqWrite => some (.write pos.a l.data)
  | .sqVerify => some (.read pos.a)
  | .m1 | .m2 | .m3 | .m4 =>
    match elementOf pos.phase with
    | none => none
    | some e =>
      if readAt e pos.fidx.toNat then some (.read pos.a)
      else match writeAt e pos.fidx.toNat with
        | none => none
        | some v => some (.write pos.a (zext (writeLane v rmw pos.lane)))

/-- Is the sequencer about to take a step of a command: BUSY, with no exchange in flight that never answers (R35, R227)? -/
def running (s : State) : Bool := s.mode = .busy && s.inFlight = none

/-- The instruction the sequencer issues: the latched command at dispatch (R100), then the frame its position names. -/
def issues (s : State) : Option Instr :=
  if running s then
    if s.dispatched then frameAt s.latched s.pos s.rmw
    else match decodeLatched s.latched.opc s.latched.wordOk with
      | .ok i => some i
      | .error _ => none
  else none

/-- `exec` of an instruction is what the sequencer does when it issues it (R73; log 11). -/
def issue (i : Instr) (s t : State) : Outcome := if issues s = some i then .next t else .fault .notIssued

/-- `pos <- p` (R13). -/
def moveTo (p : Pos) (s : State) : State := { s with pos := p }

/-- Dispatch is over and the command runs (R100). -/
def markDispatched (s : State) : State := { s with dispatched := true }

/-- Run the phases in order: each phase's sweep starts at its first address, an empty sweep has no frame, and after the last
phase the command ends PASS (R180, R183, R198). -/
def enterPhases : List Phase → State → State
  | [], s => finish s
  | p :: ps, s =>
    match firstAddress p s.latched.size with
    | none => enterPhases ps s
    | some a => moveTo { phase := p, a := a, lane := firstLane p, fidx := 0 } s

/-- The phases of CHECKER (R185). -/
def checkerPhases : List Phase := [.cbWrite, .cbVerify]

/-- The phases of MARCH_A (R188). -/
def marchPhases : List Phase := [.m0, .m1, .m2, .m3, .m4]

/-- The phases of SEQUENCE (R194). -/
def sequencePhases : List Phase := [.sqWrite, .sqVerify]

/-- The phases that follow one in its algorithm (R185, R188, R194). -/
def phasesAfter : Phase → List Phase
  | .cbWrite => [.cbVerify]
  | .m0 => [.m1, .m2, .m3, .m4]
  | .m1 => [.m2, .m3, .m4]
  | .m2 => [.m3, .m4]
  | .m3 => [.m4]
  | .sqWrite => [.sqVerify]
  | .none | .cbVerify | .m4 | .sqVerify => []

/-- The address of pos is done: the next address of the sweep, else the next phase, else PASS (R183, R197). -/
def addressDone (s : State) : State :=
  match nextAddress s.pos.phase s.latched.size s.pos.a with
  | some a => moveTo { phase := s.pos.phase, a := a, lane := firstLane s.pos.phase, fidx := 0 } s
  | none => enterPhases (phasesAfter s.pos.phase) s

/-- The element is done: MELEM ends PASS (R160); MARCH_A goes to the next lane, else the next address (R190 to R193). -/
def elementDone (s : State) : State :=
  if s.latched.opc = opcMelem then finish s
  else match nextLane s.pos.phase s.pos.lane with
    | some b => moveTo { s.pos with lane := b, fidx := 0 } s
    | none => addressDone s

/-- A frame of element e is done: the next frame of the element, else the element is done (R154 to R157, R161). -/
def elementFrameDone (e : Element) (s : State) : State :=
  if s.pos.fidx.toNat + 1 < elementFrames e then moveTo { s.pos with fidx := s.pos.fidx + 1 } s else elementDone s

/-- The frame at pos did what it should: the position advances (R197), and after the last frame the command ends PASS. A direct
command has one frame (R129 to R131). -/
def frameDone (s : State) : State :=
  match s.pos.phase with
  | .none => finish s
  | .cbWrite | .cbVerify | .m0 | .sqWrite | .sqVerify => addressDone s
  | .m1 | .m2 | .m3 | .m4 =>
    match elementOf s.pos.phase with
    | some e => elementFrameDone e s
    | none => s

/-- The lane value as the failure record holds it: 0 or 1 (R27, D10). -/
def laneValue (v : Bool) : Word := if v then 1 else 0

/-- A READ of element e returned r: at FIDX 0 only lane pos.lane is compared (R151); at an odd FIDX r goes into rmw
(R152, R153). -/
def afterElementRead (e : Element) (r : Byte) (s : State) : State :=
  if s.pos.fidx = 0 then
    if laneBit r s.pos.lane = e.expect then frameDone s else verifyFail (laneValue e.expect) r s
  else frameDone { s with rmw := r }

/-- The computation that follows a READ of byte r (R129, R151 to R153, R187, R196). CB_WRITE, M0 and SQ_WRITE issue no READ. -/
def afterRead (r : Byte) (s : State) : State :=
  match s.pos.phase with
  | .none => finishWith r s
  | .cbVerify =>
    if r = pat s.latched.step s.pos.a then frameDone s else verifyFail (zext (pat s.latched.step s.pos.a)) r s
  | .sqVerify =>
    if zext r = s.latched.data then frameDone s else verifyFail (zext (s.latched.data.extractLsb' 0 8)) r s
  | .m1 | .m2 | .m3 | .m4 =>
    match elementOf s.pos.phase with
    | some e => afterElementRead e r s
    | none => s
  | .cbWrite | .m0 | .sqWrite => frameDone s

/-- The computation that follows a WRITE, whose response is discarded: nothing is checked (R126, R130, R152, R153, R186, R189,
R195). -/
def afterWrite (s : State) : State := frameDone s

end Sys2Proof.Machine
end

