-- ==== Sys2Proof/Machine/Algorithms.lean ====
section
/-!
DEFINITION. Dispatch of the test algorithms CHECKER, MARCH_A and SEQUENCE (spec/42_algorithms.md R185, R188, R194): the
parameter check, then the first frame of the first phase, or PASS with no frame when the sweeps are empty.
-/

namespace Sys2Proof.Machine

/-- The effect of CHECKER's dispatch (R185): BAD_PARAM unless L.step is 1 or 2, even when L.size = 0. -/
def startChecker (s : State) : State :=
  if stepLegal s.latched.step then enterPhases checkerPhases (markDispatched s)
  else terminate .badParam Info.empty (markDispatched s)

/-- The effect of MARCH_A's dispatch (R188): it has no BAD_PARAM. -/
def startMarchA (s : State) : State := enterPhases marchPhases (markDispatched s)

/-- The effect of SEQUENCE's dispatch (R194): the datum is checked only when a WRITE frame is built with it. -/
def startSequence (s : State) : State := enterPhases sequencePhases (markDispatched s)

/-- CHECKER (R185). -/
def execChecker (s : State) : Outcome := issue .checker s (startChecker s)

/-- MARCH_A (R188). -/
def execMarchA (s : State) : Outcome := issue .marchA s (startMarchA s)

/-- SEQUENCE (R194). -/
def execSequence (s : State) : Outcome := issue .sequence s (startSequence s)

end Sys2Proof.Machine
end

