-- ==== Sys2Proof/Machine/Direct.lean ====
section
/-!
DEFINITION. Dispatch of the direct commands DREAD, DWRITE and DSTATUS (spec/40_transport.md R129 to R131): each sets pos for
its one frame, which the next sequencer step exchanges.
-/

namespace Sys2Proof.Machine

/-- The effect of DREAD's dispatch (R129): pos <- (NONE, L.addr, 0, 0). -/
def startDread (s : State) : State :=
  moveTo { phase := .none, a := s.latched.addr, lane := 0, fidx := 0 } (markDispatched s)

/-- The effect of DWRITE's dispatch (R130): pos <- (NONE, L.addr, 0, 0). -/
def startDwrite (s : State) : State :=
  moveTo { phase := .none, a := s.latched.addr, lane := 0, fidx := 0 } (markDispatched s)

/-- The effect of DSTATUS's dispatch (R131): pos <- (NONE, 0, 0, 0). -/
def startDstatus (s : State) : State :=
  moveTo { phase := .none, a := 0, lane := 0, fidx := 0 } (markDispatched s)

/-- DREAD (R129). -/
def execDread (s : State) : Outcome := issue .dread s (startDread s)

/-- DWRITE (R130). -/
def execDwrite (s : State) : Outcome := issue .dwrite s (startDwrite s)

/-- DSTATUS (R131). -/
def execDstatus (s : State) : Outcome := issue .dstatus s (startDstatus s)

end Sys2Proof.Machine
end

