-- ==== Sys2Proof/Machine/Element.lean ====
section
/-!
DEFINITION. Dispatch of MELEM, which runs one March element on one address and lane (spec/41_march_primitives.md R160).
-/

namespace Sys2Proof.Machine

/-- MELEM's parameter check: the phase of L.elem, if L.lane and L.elem are legal (R160). -/
def melemPhase (l : Latched) : Option Phase := if laneLegal l.lane then phaseOf l.elem else none

/-- The effect of MELEM's dispatch (R160): the parameter check comes before any range check; then
pos <- (PHASE_OF[L.elem], L.addr, L.lane, 0). -/
def startMelem (s : State) : State :=
  match melemPhase s.latched with
  | some p =>
    moveTo { phase := p, a := s.latched.addr, lane := s.latched.lane.extractLsb' 0 3, fidx := 0 } (markDispatched s)
  | none => terminate .badParam Info.empty (markDispatched s)

/-- MELEM (R160). -/
def execMelem (s : State) : Outcome := issue .melem s (startMelem s)

end Sys2Proof.Machine
end

