-- ==== Sys2Proof/Machine/Frames.lean ====
section
/-!
DEFINITION. The meanings of the three bus frames READ, WRITE and READ_STATUS (spec/40_transport.md R125 to R128): the range
check, one exchange, the response decoder, and the computation that follows. Each effect is stated for any device, and each
meaning for the device the block is wired to.
-/

namespace Sys2Proof.Machine

/-- BusRead(a) and what follows it (R125). -/
def busRead (d : Device) (a : Word) (s : State) : State :=
  match encRead a with
  | .error sel => rangeError (.read a) sel s
  | .ok tx => exchangeThen d (.read a) tx afterRead s

/-- BusWrite(a, v) and what follows it: the response is discarded (R126, 90_conflicts.md C5). -/
def busWrite (d : Device) (a v : Word) (s : State) : State :=
  match encWrite a v with
  | .error sel => rangeError (.write a v) sel s
  | .ok tx => exchangeThen d (.write a v) tx (fun _ => afterWrite) s

/-- BusStatus() and what follows it: DSTATUS returns the byte (R127, R131). -/
def busStatus (d : Device) (s : State) : State := exchangeThen d .readStatus encStatus finishWith s

/-- READ (R125). -/
def execRead (a : Word) (s : State) : Outcome := issue (.read a) s (busRead Config.device a s)

/-- WRITE (R126). -/
def execWrite (a v : Word) (s : State) : Outcome := issue (.write a v) s (busWrite Config.device a v s)

/-- READ_STATUS (R127). -/
def execReadStatus (s : State) : Outcome := issue .readStatus s (busStatus Config.device s)

end Sys2Proof.Machine
end

