-- ==== Sys2Proof/Machine/Dispatch.lean ====
section
/-! DEFINITION. One arm per row of spec/opcode_table.json: what the sequencer does when it issues the instruction. -/

namespace Sys2Proof.Machine

def exec (i : Instr) (s : State) : Host.Outcome State Fault Refusal :=
  match i with
  | .read a => Sys2Proof.Machine.execRead a s
  | .write a v => Sys2Proof.Machine.execWrite a v s
  | .readStatus => Sys2Proof.Machine.execReadStatus s
  | .dread => Sys2Proof.Machine.execDread s
  | .dwrite => Sys2Proof.Machine.execDwrite s
  | .dstatus => Sys2Proof.Machine.execDstatus s
  | .checker => Sys2Proof.Machine.execChecker s
  | .marchA => Sys2Proof.Machine.execMarchA s
  | .sequence => Sys2Proof.Machine.execSequence s
  | .melem => Sys2Proof.Machine.execMelem s

end Sys2Proof.Machine
end

