-- ==== Sys2Proof/Machine/HostPort.lean ====
section
/-!
DEFINITION. The host port: reading and writing the fourteen registers (spec/10_state.md R20 to R32, R41, R43), and the host
script notation (spec/30_encoding.md R102).
-/

namespace Sys2Proof.Machine

/-- What a host read of an aligned offset returns (R20 to R32). CMD and the unmapped offsets read 0. -/
def readReg (offset : BitVec 6) (s : State) : Word :=
  if offset = 0x04 then statusWord s
  else if offset = 0x08 then s.argAddr
  else if offset = 0x0C then s.argData
  else if offset = 0x10 then s.argSize
  else if offset = 0x14 then s.argStep
  else if offset = 0x18 then s.argLane
  else if offset = 0x1C then s.argElem
  else if offset = 0x20 then s.result
  else if offset = 0x24 then failWhereWord s.failWhere
  else if offset = 0x28 then s.failAddr
  else if offset = 0x2C then s.failExp
  else if offset = 0x30 then s.failObs
  else if offset = 0x34 then s.txnCount
  else 0x00000000

/-- A host write to STATUS: only bit 3 matters, and only when it is 1 (R23). -/
def writeStatus (w : Word) (s : State) : State := if w.getLsbD 3 then { s with overrun := false } else s

/-- What a host write of w to an aligned offset does (R20 to R25, R43). Read-only and unmapped offsets ignore it (R21). -/
def writeReg (offset : BitVec 6) (w : Word) (s : State) : State :=
  if offset = 0x00 then requestCommand w s
  else if offset = 0x04 then writeStatus w s
  else if offset = 0x08 then { s with argAddr := w }
  else if offset = 0x0C then { s with argData := w }
  else if offset = 0x10 then { s with argSize := w }
  else if offset = 0x14 then { s with argStep := w }
  else if offset = 0x18 then { s with argLane := w }
  else if offset = 0x1C then { s with argElem := w }
  else s

/-- Is the offset a multiple of 4 (R21)? -/
def aligned (offset : BitVec 6) : Bool := offset.extractLsb' 0 2 == 0

/-- A host access that R21 gives a meaning is next t; any other is refused. -/
def hostAccess (offset : BitVec 6) (width : AccessWidth) (t : State) : Outcome :=
  match width with
  | .byte => .refused .narrowAccess
  | .half => .refused .narrowAccess
  | .word => if aligned offset then .next t else .refused .misalignedAccess

/-- W: one host write (R102). -/
def hostWrite (offset : BitVec 6) (width : AccessWidth) (w : Word) (s : State) : Outcome :=
  hostAccess offset width (writeReg offset w s)

/-- R: one host read, which changes no state of the block (R41, R102). -/
def hostRead (offset : BitVec 6) (width : AccessWidth) (s : State) : Outcome :=
  hostAccess offset width { s with hostData := some (readReg offset s) }

/-- POLL: one read of STATUS; while BUSY = 1 the sequencer gets a step and the host polls again (R102; log 17). -/
def hostPoll (s : State) : State :=
  { s with
    hostData := some (statusWord s)
    inputs := if s.mode = .busy then .sequencer :: .poll :: s.inputs else s.inputs }

/-- RUN: the command's word written to CMD, then POLL (R102). -/
def runScript (opc : BitVec 4) : List Input := [.write 0x00 .word (commandWord opc), .poll]

end Sys2Proof.Machine
end

