-- ==== Sys2Proof/Machine/Turn.lean ====
section
/-!
DEFINITION. Who moves next, and one move, for any way `ex` of executing an instruction: the sequencer's step
(spec/00_scope.md R11, spec/92_eei_decisions.md D26), a host access (spec/20_memory.md R79) or reset
(spec/70_reset_and_hazards.md R260).
-/

namespace Sys2Proof.Machine

/-- The sequencer's step. In IDLE and HALTED it does nothing, and neither does it while an exchange never answers (R35, R227). A
latched word that is no command ends in ILLEGAL_CMD at dispatch (R100, R224). -/
def sequencerTurn (ex : Instr → State → Outcome) (s : State) : Outcome :=
  if running s then
    match issues s with
    | some i => ex i s
    | none => if s.dispatched then .refused .reservedPosition else .next (terminate .illegalCmd Info.empty s)
  else .next s

/-- The frame on the bus port when reset comes: one that never answered, or, when reset comes while the next frame is partly
sent, that frame (R261). A frame that the range check refuses is never sent (R120, R121). -/
def frameCutByReset (midFrame : Bool) (s : State) : Option Frame :=
  match s.inFlight with
  | some tx => some tx
  | none =>
    if midFrame then
      match issues s with
      | some i => frameBytes i
      | none => none
    else none

/-- The bus events after reset: an exchange that reset cuts short is not counted, and the device may have seen part of it
(R261). -/
def historyAfterReset (midFrame : Bool) (s : State) : History :=
  match frameCutByReset midFrame s with
  | some tx => .cut tx :: s.history
  | none => s.history

/-- Reset (R260, R261): every field of the block to its R40 value, with no termination step. What the device was sent and
what the world outside does next are not the block's, and stay (R262; log 4). -/
def resetBlock (midFrame : Bool) (s : State) : State :=
  { State.reset with history := historyAfterReset midFrame s, inputs := s.inputs }

/-- One step of the machine: the next input if there is one, else the sequencer (log 6). -/
def turn (ex : Instr → State → Outcome) (s : State) : Outcome :=
  match s.inputs with
  | [] => sequencerTurn ex s
  | .sequencer :: rest => sequencerTurn ex { s with inputs := rest }
  | .write offset width w :: rest => hostWrite offset width w { s with inputs := rest }
  | .read offset width :: rest => hostRead offset width { s with inputs := rest }
  | .poll :: rest => .next (hostPoll { s with inputs := rest })
  | .reset :: rest => .next (resetBlock false { s with inputs := rest })
  | .resetMidFrame :: rest => .next (resetBlock true { s with inputs := rest })

end Sys2Proof.Machine
end

