-- ==== Sys2Proof/Machine/Step.lean ====
section
/-!
DEFINITION. The step of the machine, and how the host places one instruction where the next step issues it.
-/

namespace Sys2Proof.Machine

/-- One step (R11): the next input of the world outside, else the sequencer, whose instruction `exec` runs. -/
def step (s : State) : Host.Outcome State Fault Refusal := turn exec s

/-- The sequencer's turn comes next: nothing else is waiting and no exchange is in flight. -/
def State.sequencerNext (s : State) : State := { s with inputs := [], inFlight := none }

/-- A direct command in the middle: dispatched, with its one frame next (R129 to R131). -/
def State.atDirectFrame (s : State) (opc : BitVec 4) (addr data : Word) : State :=
  { s.sequencerNext with
    mode := .busy
    dispatched := true
    latched := { s.latched with opc := opc, wordOk := true, addr := addr, data := data }
    pos := { phase := .none, a := addr, lane := 0, fidx := 0 } }

/-- s with the instruction of table number w placed where the next step issues it (log 9). A command word is placed as
a host write to CMD places it, by acceptance (R43); a frame as the one frame of the direct command that issues it. -/
def State.withFetchWord (s : State) (nbits w : Nat) : State :=
  match decodeTableWord nbits w with
  | some (.read a) => s.atDirectFrame opcDread a s.latched.data
  | some (.write a v) => s.atDirectFrame opcDwrite a v
  | some .readStatus => s.atDirectFrame opcDstatus 0 s.latched.data
  | some _ => accept (BitVec.ofNat 32 w) s.sequencerNext
  | none => accept (BitVec.ofNat 32 w) s.sequencerNext

end Sys2Proof.Machine
end

