-- ==== Sys2Proof/Machine/IdealMemory.lean ====
section
/-!
DEFINITION. The IdealMemory oracle of spec/10_state.md R38 and the faulty devices of spec/95_test_vectors.md section 0 that read
a cell wrongly. They are devices, not state of the block: a device's contents are computed from what it was sent.
-/

namespace Sys2Proof.Machine

/-- The contents of cell a after a history: the byte of the last WRITE of a that was exchanged, or the start contents
(R38, R77). A failed or a cut WRITE is not taken (log 16). -/
def cellAfter (start : Word → Byte) : History → Word → Byte
  | [], a => start a
  | .exchanged tx :: h, a =>
    match decodeFrame tx with
    | .ok (.write b v) => if b = a then v.extractLsb' 0 8 else cellAfter start h a
    | _ => cellAfter start h a
  | .failed _ :: h, a => cellAfter start h a
  | .cut _ :: h, a => cellAfter start h a

/-- The byte that matters of the device's answer: M[a] for a READ, S for READ_STATUS; a WRITE answers with any bytes. -/
def answerByte (cell : Word → Byte) (status filler : Byte) : Except DecodeError Instr → Byte
  | .ok (.read a) => cell a
  | .ok .readStatus => status
  | _ => filler

/-- IdealMemory (R38), with its start contents, its status byte S, and the bytes x that may be any byte. Every exchange
completes. -/
def idealMemory (start : Word → Byte) (status : Byte) (filler : History → Frame → Nat → Byte) : Device where
  respond h tx :=
    (List.range (tx.length - 1)).map (filler h tx)
      ++ [answerByte (cellAfter start h) status (filler h tx (tx.length - 1)) (decodeFrame tx)]
  draw _ _ := .completes

/-- A device that stores as IdealMemory does and reads cells through `view`: SA1, SA0 and RA are of this kind. -/
def viewedMemory (view : Word → Byte → Byte) (start : Word → Byte) (status : Byte) : Device where
  respond h tx :=
    List.replicate (tx.length - 1) 0
      ++ [answerByte (fun a => view a (cellAfter start h a)) status 0 (decodeFrame tx)]
  draw _ _ := .completes

/-- RA(b, v): every READ of b returns v (95_test_vectors.md section 0). -/
def readsAs (b : Word) (v : Byte) (a : Word) (x : Byte) : Byte := if a = b then v else x

/-- SA1(b, lane): every READ of b has the lane forced to 1. -/
def stuckAt1 (b : Word) (lane : BitVec 3) (a : Word) (x : Byte) : Byte := if a = b then setLane x lane else x

/-- SA0(b, lane): every READ of b has the lane forced to 0. -/
def stuckAt0 (b : Word) (lane : BitVec 3) (a : Word) (x : Byte) : Byte := if a = b then clearLane x lane else x

end Sys2Proof.Machine
end

