-- ==== Sys2Proof/Machine/Loops.lean ====
section
/-!
DEFINITION. The nested loops of the algorithms written out as lists of positions (spec/42_algorithms.md R180 to R197): what
the sequencer's advance, which only ever looks at the next position, must follow.
-/

namespace Sys2Proof.Machine

/-- The lane order of a phase: Up is 0, ..., 7 and Down is 7, ..., 0 (R181). -/
def laneOrder (p : Phase) : List (BitVec 3) :=
  if descending p then [7, 6, 5, 4, 3, 2, 1, 0] else [0, 1, 2, 3, 4, 5, 6, 7]

/-- The positions of one lane element, in FIDX order (R154 to R157, R161). -/
def elementPositions (p : Phase) (e : Element) (a : Word) (b : BitVec 3) : List Pos :=
  (List.range (elementFrames e)).map fun f => { phase := p, a := a, lane := b, fidx := BitVec.ofNat 3 f }

/-- The positions of a phase at one address: its lanes in order, or its one frame (R186 to R196). -/
def addressPositions (p : Phase) (a : Word) : List Pos :=
  match elementOf p with
  | some e => (laneOrder p).flatMap (elementPositions p e a)
  | none => [{ phase := p, a := a, lane := 0, fidx := 0 }]

/-- The positions of a phase over its sweep of n cells (R180, R186 to R196). -/
def phasePositions (p : Phase) (n : Nat) : List Pos :=
  (sweep p n).flatMap fun a => addressPositions p (BitVec.ofNat 32 a)

/-- The positions of an algorithm: each phase over its whole sweep before the next (R183). -/
def algorithmPositions (ps : List Phase) (n : Nat) : List Pos := ps.flatMap fun p => phasePositions p n

end Sys2Proof.Machine
end

