-- ==== Sys2Proof/Machine/OnDevice.lean ====
section
/-!
DEFINITION. The machine wired to any device: the oracle as a parameter of the step relation (spec/00_scope.md R7, R10,
spec/10_state.md R38). `exec` and `step` are these at the device the block is wired to.
-/

namespace Sys2Proof.Machine

/-- What an instruction does to the state when the sequencer issues it, with device d behind the bus port. Only the three frames
reach the device (R13). -/
def effectOn (d : Device) (i : Instr) (s : State) : State :=
  match i with
  | .read a => busRead d a s
  | .write a v => busWrite d a v s
  | .readStatus => busStatus d s
  | .dread => startDread s
  | .dwrite => startDwrite s
  | .dstatus => startDstatus s
  | .checker => startChecker s
  | .marchA => startMarchA s
  | .sequence => startSequence s
  | .melem => startMelem s

/-- `exec` with device d behind the bus port. -/
def execOn (d : Device) (i : Instr) (s : State) : Outcome := issue i s (effectOn d i s)

/-- One step with device d behind the bus port. -/
def stepOn (d : Device) (s : State) : Outcome := turn (execOn d) s

/-- k steps with device d behind the bus port, stopping at the first fault or refusal. -/
def runOn (d : Device) : Nat → State → Outcome
  | 0, s => .next s
  | k + 1, s =>
    match stepOn d s with
    | .next t => runOn d k t
    | .fault r => .fault r
    | .refused r => .refused r

end Sys2Proof.Machine
end

