-- ==== Sys2Proof/Safety.lean ====
section
/-!
DEFINITION. What counts as a safe run, and the words the statements use: where the sequencer stands, what a termination or a
counted exchange leaves, the positions the rules reach, and the invariant of the block.
-/

namespace Sys2Proof.Machine

/-- The sequencer is about to dispatch the latched command of this OPC (R100). -/
structure AtDispatch (opc : BitVec 4) (s : State) : Prop where
  busy : s.mode = .busy
  portFree : s.inFlight = none
  accepted : s.dispatched = false
  opcode : s.latched.opc = opc
  wordOk : s.latched.wordOk = true

/-- The sequencer is about to exchange the frame at position p of the latched command of this OPC (R34). -/
structure AtFrame (opc : BitVec 4) (p : Pos) (s : State) : Prop where
  busy : s.mode = .busy
  portFree : s.inFlight = none
  dispatched : s.dispatched = true
  opcode : s.latched.opc = opc
  position : s.pos = p

/-- The command has ended: the registers a termination writes, and nothing else (R229). -/
def ended (code : Code) (w : FailWhere) (addr exp obs result : Word) (s : State) : State :=
  { s with
    code := code
    done := true
    mode := if code = .transportError then .halted else .idle
    failWhere := w
    failAddr := addr
    failExp := exp
    failObs := obs
    result := result }

/-- FAIL_WHERE with ALG alone: after PASS, ILLEGAL_CMD and BAD_PARAM (R28). -/
def algOnly (opc : BitVec 4) : FailWhere := { FailWhere.zero with alg := opc }

/-- FAIL_WHERE inside a lane element (R28). -/
def laneWhere (opc : BitVec 4) (p : Pos) (kind : FrameKind) : FailWhere :=
  { FailWhere.zero with
    alg := opc, phase := p.phase, lane := p.lane, laneValid := true, fidx := p.fidx, fkind := kind }

/-- FAIL_WHERE outside lane elements (R28). `step` is the latched step for CHECKER, else 0. -/
def plainWhere (opc : BitVec 4) (phase : Phase) (step : BitVec 2) (kind : FrameKind) : FailWhere :=
  { FailWhere.zero with alg := opc, phase := phase, step := step, fkind := kind }

/-- FAIL_WHERE of a RANGE_ERROR or TRANSPORT_ERROR in state s, field by field (R28). -/
def whereIn (kind : FrameKind) (valueOut : Bool) (s : State) : FailWhere where
  alg := s.latched.opc
  phase := s.pos.phase
  lane := if lanePhase s.pos.phase then s.pos.lane else 0
  laneValid := lanePhase s.pos.phase
  step := if s.latched.opc = 0x4 then s.latched.step.extractLsb' 0 2 else 0
  rangeSel := valueOut
  fidx := if lanePhase s.pos.phase then s.pos.fidx else 0
  fkind := kind

/-- The four March phases with the lane value their verify expects and the lane writes that follow (R154 to R157). -/
def marchTable : List (Phase × Bool × List Bool) :=
  [(.m1, false, [true, false, true]), (.m2, true, [false, true]), (.m3, true, [false, true, false]),
    (.m4, false, [true, false])]

/-- The registers a termination writes hold in t what they held in s (R42). -/
def SameResults (s t : State) : Prop :=
  t.done = s.done ∧ t.code = s.code ∧ t.result = s.result ∧ t.failWhere = s.failWhere ∧ t.failAddr = s.failAddr ∧
    t.failExp = s.failExp ∧ t.failObs = s.failObs

/-- The host's registers, what it has latched and what is outside the block hold in t what they held in s. -/
def SameOperands (s t : State) : Prop :=
  t.argAddr = s.argAddr ∧ t.argData = s.argData ∧ t.argSize = s.argSize ∧ t.argStep = s.argStep ∧
    t.argLane = s.argLane ∧ t.argElem = s.argElem ∧ t.latched = s.latched ∧ t.overrun = s.overrun ∧
    t.inputs = s.inputs ∧ t.hostData = s.hostData

/-- The next input is a reset (R260, R261). -/
def ResetNext (s : State) : Prop := ∃ rest, s.inputs = .reset :: rest ∨ s.inputs = .resetMidFrame :: rest

/-- The input is a whole aligned host access, a poll or a sequencer turn: no access that R21 refuses, and no reset. -/
def Input.keepsRunning : Input → Bool
  | .write offset width _ => decide (width = .word) && decide (offset.toNat % 4 = 0)
  | .read offset width => decide (width = .word) && decide (offset.toNat % 4 = 0)
  | .poll => true
  | .sequencer => true
  | .reset => false
  | .resetMidFrame => false

/-- One exchange counted (R32). -/
def counted (tx : Frame) (s : State) : State :=
  { s with txnCount := s.txnCount + 1, history := .exchanged tx :: s.history }

/-- One exchange that failed: on the bus, and not counted (R32, R222). -/
def lost (tx : Frame) (s : State) : State := { s with history := .failed tx :: s.history }

/-- The sequencer at another position, everything else as it was. -/
def atPos (phase : Phase) (a : Word) (lane fidx : BitVec 3) (s : State) : State :=
  { s with pos := { phase := phase, a := a, lane := lane, fidx := fidx } }

/-- What an exchange of tx leads to, for each of its outcomes (R123, R124): no answer leaves it in flight; Err and a response of
another length are the transport failure; otherwise the last response byte is what counts. -/
def byOutcome (o : ExchangeOutcome) (tx : Frame) (s : State) (onByte : Byte → State) (onFailure : State) : State :=
  match o with
  | .noAnswer => { s with inFlight := some tx }
  | .err => onFailure
  | .ok rx => if rx.length = tx.length then onByte (rx.getLastD 0) else onFailure

/-- What the device behind the bus port does with tx next. -/
def outcomeNow (tx : Frame) (s : State) : ExchangeOutcome := exchange Config.device s.history tx

/-- The bytes of a READ frame (R90). -/
def readFrame (a : Word) : Frame := [0x03, a.extractLsb' 8 8, a.extractLsb' 0 8, 0x00]

/-- The bytes of a WRITE frame (R90). -/
def writeFrame (a v : Word) : Frame := [0x02, a.extractLsb' 8 8, a.extractLsb' 0 8, v.extractLsb' 0 8, 0x00]

/-- The bytes of the READ_STATUS frame (R90). -/
def statusFrame : Frame := [0x05, 0x00]

/-- The positions that a dispatched command of latched operands l reaches, by the rules R129 to R131, R160 and R186 to R196. -/
inductive Reaches (l : Latched) : Pos → Prop where
  | dread : l.opc = 0x1 → Reaches l { phase := .none, a := l.addr, lane := 0, fidx := 0 }
  | dwrite : l.opc = 0x2 → Reaches l { phase := .none, a := l.addr, lane := 0, fidx := 0 }
  | dstatus : l.opc = 0x3 → Reaches l { phase := .none, a := 0, lane := 0, fidx := 0 }
  | cbWrite (a : Word) : l.opc = 0x4 → (l.step = 1 ∨ l.step = 2) → a.toNat < l.size.toNat → a.toNat ≤ 0x10000 →
      Reaches l { phase := .cbWrite, a := a, lane := 0, fidx := 0 }
  | cbVerify (a : Word) : l.opc = 0x4 → (l.step = 1 ∨ l.step = 2) → a.toNat < l.size.toNat → l.size.toNat ≤ 0x10000 →
      Reaches l { phase := .cbVerify, a := a, lane := 0, fidx := 0 }
  | m0 (a : Word) : l.opc = 0x5 → a.toNat < l.size.toNat → a.toNat ≤ 0x10000 →
      Reaches l { phase := .m0, a := a, lane := 0, fidx := 0 }
  | march (p : Phase) (e : Element) (a : Word) (b f : BitVec 3) : l.opc = 0x5 → elementOf p = some e →
      f.toNat < elementFrames e → a.toNat < l.size.toNat → l.size.toNat ≤ 0x10000 →
      Reaches l { phase := p, a := a, lane := b, fidx := f }
  | sqWrite (a : Word) : l.opc = 0x6 → a.toNat < l.size.toNat → a.toNat ≤ 0x10000 →
      (a ≠ 0 → l.data.toNat ≤ 0xFF) → Reaches l { phase := .sqWrite, a := a, lane := 0, fidx := 0 }
  | sqVerify (a : Word) : l.opc = 0x6 → a.toNat < l.size.toNat → l.size.toNat ≤ 0x10000 → l.data.toNat ≤ 0xFF →
      Reaches l { phase := .sqVerify, a := a, lane := 0, fidx := 0 }
  | melem (p : Phase) (e : Element) (f : BitVec 3) : l.opc = 0x7 → l.lane.toNat ≤ 7 → phaseOf l.elem = some p →
      elementOf p = some e → f.toNat < elementFrames e → (f ≠ 0 → l.addr.toNat ≤ 0xFFFF) →
      Reaches l { phase := p, a := l.addr, lane := l.lane.extractLsb' 0 3, fidx := f }

/-- The invariant of the block: what the rules promise of every state between two steps. -/
structure BlockInvariant (s : State) : Prop where
  /-- While BUSY the result registers hold what acceptance gave them (R42). -/
  busyClear : s.mode = .busy →
    s.done = false ∧ s.code = .none ∧ s.result = 0 ∧ s.failWhere = FailWhere.zero ∧ s.failAddr = 0 ∧ s.failExp = 0 ∧
      s.failObs = 0
  /-- Between acceptance and dispatch, pos is (NONE, 0, 0, 0) and nothing was exchanged (R43, R100). -/
  beforeDispatch : s.mode = .busy → s.dispatched = false → s.pos = Pos.start ∧ s.txnCount = 0 ∧ s.inFlight = none
  /-- A dispatched command stands at a position its rules reach (R197), and its word was legal (R100). -/
  onTrack : s.mode = .busy → s.dispatched = true → s.latched.wordOk = true ∧ Reaches s.latched s.pos
  /-- An exchange is in flight only in a BUSY block, and it is of the frame pos names (R40, R123). -/
  portFrame : ∀ tx, s.inFlight = some tx →
    s.mode = .busy ∧ ∃ i, frameAt s.latched s.pos s.rmw = some i ∧ frameBytes i = some tx
  /-- HALTED exactly after TRANSPORT_ERROR (R35, R222). -/
  halted : s.mode = .halted ↔ s.code = .transportError
  /-- DONE exactly when CODE describes a terminated command (R23, R29). -/
  doneCode : s.done = true ↔ s.code ≠ .none
  /-- Only FAIL, RANGE_ERROR and TRANSPORT_ERROR fill in the record; only FAIL an observed byte; only PASS a result (R26, R27). -/
  record : (recordsFailure s.code = false → s.failAddr = 0 ∧ s.failExp = 0) ∧ (s.code ≠ .fail → s.failObs = 0) ∧
    (s.code ≠ .pass → s.result = 0) ∧ s.failObs.toNat ≤ 0xFF ∧ s.result.toNat ≤ 0xFF

/-- Every frame that ever was on the bus is one of the block's three formats (R97, R132). -/
def OnlyBlockFrames (s : State) : Prop :=
  ∀ ev ∈ s.history, ∃ i tx, i.isFrame = true ∧ frameBytes i = some tx ∧
    (ev = .exchanged tx ∨ ev = .failed tx ∨ ev = .cut tx)

/-- A safe run: k steps on device d end in a state, with no fault and no refusal. -/
def SafeRun (d : Device) (k : Nat) (s t : State) : Prop := runOn d k s = .next t

end Sys2Proof.Machine
end

