-- ==== Sys2Proof/Certificates/Slice0/Obligations.lean ====
section
/-!
DEFINITION. The statements for the provers. `exec` and `step` stand for the block wired to a device nothing is assumed of;
`execOn`, `stepOn` and `runOn` for the block wired to any given device (spec/10_state.md R38).
-/

open Sys2Proof Sys2Proof.Machine

/-! ## Encodings -/

/-- R90, R99: words written out from the spec's encodings decode to the instructions they stand for. -/
def Obligations.SpecWordsDecode : Prop :=
  decode (.frame [0x03, 0x12, 0x34, 0x00]) = .ok (.read 0x1234) ∧
  decode (.frame [0x02, 0xAB, 0xCD, 0x01, 0x00]) = .ok (.write 0xABCD 0x01) ∧
  decode (.frame [0x05, 0x00]) = .ok .readStatus ∧
  decode (.command 0x00000001) = .ok .dread ∧ decode (.command 0x00000004) = .ok .checker ∧
  decode (.command 0x00000005) = .ok .marchA ∧ decode (.command 0x00000007) = .ok .melem ∧
  decode (.frame [0x04, 0x00]) = .error (.foreignOpcode 0x04) ∧
  decode (.command 0x00000011) = .error .reservedBits ∧ decode (.command 0x00000008) = .error (.reservedOpc 0x8)

/-- R90, R99: no bit of an encoding is dropped, for every well-formed instruction and every operand. -/
def Obligations.DecodeOfEncodeIsTheInstruction : Prop :=
  ∀ i : Instr, i.wellFormed = true → ∃ c, encode i = .ok c ∧ decode c = .ok i

/-- R90, R97, R101: what decodes is exactly what the encoder emits, so no other bytes and no other word are read as an
instruction. -/
def Obligations.OnlyEncodedWordsDecode : Prop :=
  ∀ (c : CodeWord) (i : Instr), decode c = .ok i → i.wellFormed = true ∧ encode i = .ok c

/-- R96: a byte stream of the block's frames divides into those frames by byte 0 alone. -/
def Obligations.FrameStreamDividesByByteZero : Prop :=
  ∀ (is : List Instr) (frames : List Frame), List.Forall₂ (fun i tx => frameBytes i = some tx) is frames →
    decodeFrames frames.flatten.length frames.flatten = .ok is

/-- R92, R93: an operand out of range raises RangeError and builds no frame, the address first; an operand in range goes
into the frame unmasked, high byte first. -/
def Obligations.EncodersNeverMaskIntoRange : Prop :=
  ∀ a v : Word,
    (0xFFFF < a.toNat → encRead a = .error .addr ∧ encWrite a v = .error .addr) ∧
    (a.toNat ≤ 0xFFFF → encRead a = .ok [0x03, BitVec.ofNat 8 (a.toNat / 256), BitVec.ofNat 8 (a.toNat % 256), 0x00]) ∧
    (a.toNat ≤ 0xFFFF → 0xFF < v.toNat → encWrite a v = .error .value) ∧
    (a.toNat ≤ 0xFFFF → v.toNat ≤ 0xFF →
      encWrite a v =
        .ok [0x02, BitVec.ofNat 8 (a.toNat / 256), BitVec.ofNat 8 (a.toNat % 256), BitVec.ofNat 8 v.toNat, 0x00])

/-- R91, R94, R96: every frame starts with one of the three opcodes, has the length that opcode gives, and ends in the dummy. -/
def Obligations.FramesEndInTheDummyByte : Prop :=
  ∀ (i : Instr) (tx : Frame), frameBytes i = some tx →
    tx.getLast? = some 0x00 ∧
    ((tx.head? = some 0x03 ∧ tx.length = 4) ∨ (tx.head? = some 0x02 ∧ tx.length = 5) ∨
      (tx.head? = some 0x05 ∧ tx.length = 2))

/-! ## The step -/

/-- R100, R11: when it is the sequencer's turn, a step is `exec` of the instruction the sequencer issues: the latched command
word's at dispatch, then the one its position names. A turn granted by the input list runs it on the rest of the list, and a
host access at its head is that access (the input list is the model's own, log 6). -/
def Obligations.StepRunsTheIssuedInstruction : Prop :=
  ∀ (s : State) (i : Instr),
    (s.inputs = [] → issues s = some i → step s = exec i s) ∧
    (∀ rest, s.inputs = .sequencer :: rest → issues s = some i → step s = exec i { s with inputs := rest }) ∧
    (s.mode = .busy → s.inFlight = none → s.dispatched = false →
      decodeLatched s.latched.opc s.latched.wordOk = .ok i → issues s = some i) ∧
    (s.mode = .busy → s.inFlight = none → s.dispatched = true → frameAt s.latched s.pos s.rmw = some i →
      issues s = some i) ∧
    (∀ o width w rest, s.inputs = .write o width w :: rest →
      step s = hostWrite o width w { s with inputs := rest }) ∧
    (∀ o width rest, s.inputs = .read o width :: rest → step s = hostRead o width { s with inputs := rest })

/-- An instruction of the opcode table, placed where the next step issues it, is what the next step runs (log 9). -/
def Obligations.PlacedInstructionRuns : Prop :=
  ∀ (s : State) (nbits w : Nat) (i : Instr), decodeTableWord nbits w = some i →
    issues (s.withFetchWord nbits w) = some i ∧ step (s.withFetchWord nbits w) = exec i (s.withFetchWord nbits w)

/-- R7, R38: the device is a parameter of the step relation, and `exec` and `step` are the block at one device. -/
def Obligations.ExecAndStepAreAtOneDevice : Prop :=
  (∀ i s, exec i s = execOn Config.device i s) ∧ (∀ s, step s = stepOn Config.device s)

/-! ## The host port -/

/-- R43: a CMD write in IDLE latches the word and every ARG register, clears the results and TXN_COUNT and starts the command with
no frame, and changes nothing else; in BUSY or HALTED it is dropped, and only OVERRUN is set. -/
def Obligations.CommandWriteIsAcceptedOrDropped : Prop :=
  ∀ (s : State) (w : Word),
    (s.mode = .idle → ∃ t, hostWrite 0x00 .word w s = .next t ∧
      t.latched =
        { opc := w.extractLsb' 0 4, wordOk := decide (w.toNat < 16), addr := s.argAddr, data := s.argData,
          size := s.argSize, step := s.argStep, lane := s.argLane, elem := s.argElem } ∧
      t.result = 0 ∧ failWhereWord t.failWhere = 0 ∧ t.failAddr = 0 ∧ t.failExp = 0 ∧ t.failObs = 0 ∧
      t.txnCount = 0 ∧ t.done = false ∧ t.code = .none ∧ t.pos = { phase := .none, a := 0, lane := 0, fidx := 0 } ∧
      t.mode = .busy ∧
      t.argAddr = s.argAddr ∧ t.argData = s.argData ∧ t.argSize = s.argSize ∧ t.argStep = s.argStep ∧
      t.argLane = s.argLane ∧ t.argElem = s.argElem ∧ t.overrun = s.overrun ∧ t.rmw = s.rmw ∧
      t.inFlight = s.inFlight ∧ t.history = s.history) ∧
    (s.mode ≠ .idle → hostWrite 0x00 .word w s = .next { s with overrun := true })

/-- R226: OVERRUN is STATUS bit 3; a CMD write while BUSY or HALTED sets it and changes nothing else, and nothing else sets it; only a
STATUS write with bit 3 = 1, which changes nothing else, or reset clears it. -/
def Obligations.OverrunIsStickyAndDropsTheWrite : Prop :=
  (∀ s : State, (statusWord s).getLsbD 3 = s.overrun) ∧
  (∀ (s : State) (w : Word), s.mode ≠ .idle → hostWrite 0x00 .word w s = .next { s with overrun := true }) ∧
  (∀ (s : State) (w : Word), hostWrite 0x04 .word w s = .next { s with overrun := s.overrun && !w.getLsbD 3 }) ∧
  (∀ s t : State, step s = .next t → s.overrun = false → t.overrun = true →
    s.mode ≠ .idle ∧ ∃ w rest, s.inputs = .write 0x00 .word w :: rest) ∧
  (∀ s t : State, step s = .next t → s.overrun = true → t.overrun = false →
    ResetNext s ∨ ∃ w rest, s.inputs = .write 0x04 .word w :: rest ∧ w.getLsbD 3 = true)

/-- R20, R22, R24, R25: the register map. Which register each offset reads; which ARG register each offset writes, with any value,
changing nothing else and starting nothing; that an ARG register then reads as written and every other register as before. CMD
reads 0. -/
def Obligations.ArgumentRegistersHoldWhatIsWritten : Prop :=
  ∀ (s : State) (w : Word) (o q : BitVec 6),
    (writeReg 0x08 w s = { s with argAddr := w } ∧ writeReg 0x0C w s = { s with argData := w } ∧
      writeReg 0x10 w s = { s with argSize := w } ∧ writeReg 0x14 w s = { s with argStep := w } ∧
      writeReg 0x18 w s = { s with argLane := w } ∧ writeReg 0x1C w s = { s with argElem := w }) ∧
    (readReg 0x00 s = 0 ∧ readReg 0x04 s = statusWord s ∧ readReg 0x08 s = s.argAddr ∧ readReg 0x0C s = s.argData ∧
      readReg 0x10 s = s.argSize ∧ readReg 0x14 s = s.argStep ∧ readReg 0x18 s = s.argLane ∧
      readReg 0x1C s = s.argElem ∧ readReg 0x20 s = s.result ∧ readReg 0x24 s = failWhereWord s.failWhere ∧
      readReg 0x28 s = s.failAddr ∧ readReg 0x2C s = s.failExp ∧ readReg 0x30 s = s.failObs ∧
      readReg 0x34 s = s.txnCount) ∧
    (o.toNat ∈ [0x08, 0x0C, 0x10, 0x14, 0x18, 0x1C] →
      readReg o (writeReg o w s) = w ∧ (q ≠ o → readReg q (writeReg o w s) = readReg q s) ∧
      (writeReg o w s).mode = s.mode ∧ (writeReg o w s).latched = s.latched)

/-- R41: a read of any register, in any state, changes nothing of the block: only the value reaches the host (in the model's own
`hostData`, log 7). -/
def Obligations.HostReadHasNoSideEffect : Prop :=
  ∀ (s : State) (o : BitVec 6), o.toNat % 4 = 0 →
    hostRead o .word s = .next { s with hostData := some (readReg o s) }

/-- R21: a host access moves one whole register at a multiple of 4; a narrower one, or one at another offset, is refused; the unmapped
offsets read 0, and a write to one or to a read-only register is ignored. The model's own choices here: a narrow access at such
an offset is named narrow (log 8), and what a read returns stands in `hostData` (log 7). -/
def Obligations.OnlyWholeAlignedAccessesHaveAMeaning : Prop :=
  ∀ (s : State) (o : BitVec 6) (width : AccessWidth) (w : Word),
    (width ≠ .word → hostRead o width s = .refused .narrowAccess ∧ hostWrite o width w s = .refused .narrowAccess) ∧
    (o.toNat % 4 ≠ 0 →
      hostRead o .word s = .refused .misalignedAccess ∧ hostWrite o .word w s = .refused .misalignedAccess) ∧
    (o.toNat % 4 = 0 →
      (∃ t, hostRead o .word s = .next t ∧ t.hostData = some (readReg o s)) ∧
      hostWrite o .word w s = .next (writeReg o w s)) ∧
    (o.toNat ∈ [0x38, 0x3C] → readReg o s = 0 ∧ writeReg o w s = s) ∧
    (o.toNat ∈ [0x20, 0x24, 0x28, 0x2C, 0x30, 0x34] → writeReg o w s = s)

/-- R23, R29, R35: the value the host reads at offset 0x04, STATUS, field by field. -/
def Obligations.StatusWordFields : Prop :=
  ∀ s : State,
    readReg 0x04 s = statusWord s ∧
    (statusWord s).getLsbD 0 = decide (s.mode = .busy) ∧ (statusWord s).getLsbD 1 = decide (s.mode = .halted) ∧
    (statusWord s).getLsbD 2 = s.done ∧ (statusWord s).getLsbD 3 = s.overrun ∧
    (statusWord s).extractLsb' 8 24 = 0 ∧
    ((statusWord s).extractLsb' 4 4).toNat =
      (match s.code with
       | .none => 0 | .pass => 1 | .fail => 2 | .rangeError => 3 | .transportError => 4 | .illegalCmd => 5
       | .badParam => 6)

/-- R28, R30: the value the host reads at offset 0x24, FAIL_WHERE, field by field. -/
def Obligations.FailWhereWordFields : Prop :=
  ∀ f : FailWhere,
    (∀ s : State, s.failWhere = f → readReg 0x24 s = failWhereWord f) ∧
    (failWhereWord f).extractLsb' 0 4 = f.alg ∧
    ((failWhereWord f).extractLsb' 4 4).toNat =
      (match f.phase with
       | .none => 0 | .cbWrite => 1 | .cbVerify => 2 | .m0 => 3 | .m1 => 4 | .m2 => 5 | .m3 => 6 | .m4 => 7
       | .sqWrite => 8 | .sqVerify => 9) ∧
    (failWhereWord f).extractLsb' 8 3 = f.lane ∧ (failWhereWord f).getLsbD 11 = f.laneValid ∧
    (failWhereWord f).extractLsb' 12 2 = f.step ∧ (failWhereWord f).getLsbD 14 = f.rangeSel ∧
    (failWhereWord f).getLsbD 15 = false ∧ (failWhereWord f).extractLsb' 16 3 = f.fidx ∧
    (failWhereWord f).getLsbD 19 = false ∧
    ((failWhereWord f).extractLsb' 20 2).toNat =
      (match f.fkind with | .none => 0 | .read => 1 | .write => 2 | .readStatus => 3) ∧
    (failWhereWord f).extractLsb' 22 10 = 0

/-! ## Dispatch of the commands -/

/-- R129, R130, R131: DREAD and DWRITE set pos to (NONE, L.addr, 0, 0), DSTATUS to (NONE, 0, 0, 0); that no frame is sent in the
same step is the model's step granularity (log 1). -/
def Obligations.DirectCommandsDispatch : Prop :=
  ∀ s : State,
    (AtDispatch 0x1 s → exec .dread s = .next { atPos .none s.latched.addr 0 0 s with dispatched := true }) ∧
    (AtDispatch 0x2 s → exec .dwrite s = .next { atPos .none s.latched.addr 0 0 s with dispatched := true }) ∧
    (AtDispatch 0x3 s → exec .dstatus s = .next { atPos .none 0 0 0 s with dispatched := true })

/-- R185: CHECKER with another step than 1 or 2 ends BAD_PARAM whatever the size; with size 0 it ends PASS with no frame;
otherwise its first position is CB_WRITE at address 0. -/
def Obligations.CheckerDispatches : Prop :=
  ∀ s : State, AtDispatch 0x4 s →
    (s.latched.step.toNat ≠ 1 → s.latched.step.toNat ≠ 2 →
      exec .checker s = .next (ended .badParam (algOnly 0x4) 0 0 0 0 { s with dispatched := true })) ∧
    (s.latched.step.toNat = 1 ∨ s.latched.step.toNat = 2 →
      exec .checker s = .next
        (if s.latched.size.toNat = 0 then ended .pass (algOnly 0x4) 0 0 0 0 { s with dispatched := true }
         else { atPos .cbWrite 0 0 0 s with dispatched := true }))

/-- R188, R194: MARCH_A starts in M0 and SEQUENCE in SQ_WRITE at address 0, or they end PASS with no frame when size is 0,
whatever the datum. -/
def Obligations.MarchAAndSequenceDispatch : Prop :=
  (∀ s : State, AtDispatch 0x5 s →
    exec .marchA s = .next
      (if s.latched.size.toNat = 0 then ended .pass (algOnly 0x5) 0 0 0 0 { s with dispatched := true }
       else { atPos .m0 0 0 0 s with dispatched := true })) ∧
  ∀ s : State, AtDispatch 0x6 s →
    exec .sequence s = .next
      (if s.latched.size.toNat = 0 then ended .pass (algOnly 0x6) 0 0 0 0 { s with dispatched := true }
       else { atPos .sqWrite 0 0 0 s with dispatched := true })

/-- R160: MELEM with a lane above 7 or an element outside 1 to 4 ends BAD_PARAM, even when the address is out of range; otherwise it
stands at its element's verify frame. -/
def Obligations.MelemDispatches : Prop :=
  ∀ s : State, AtDispatch 0x7 s →
    (7 < s.latched.lane.toNat ∨ s.latched.elem.toNat = 0 ∨ 4 < s.latched.elem.toNat →
      exec .melem s = .next (ended .badParam (algOnly 0x7) 0 0 0 0 { s with dispatched := true })) ∧
    (∀ p n, (p, n) ∈ [(Phase.m1, 1), (Phase.m2, 2), (Phase.m3, 3), (Phase.m4, 4)] →
      s.latched.lane.toNat ≤ 7 → s.latched.elem.toNat = n →
      exec .melem s = .next
        { atPos p s.latched.addr (BitVec.ofNat 3 s.latched.lane.toNat) 0 s with dispatched := true })

/-- R100, R101, R224: dispatch of a latched word with a reserved bit set or an OPC outside 1 to 7 ends ILLEGAL_CMD, with no frame and
only ALG recorded: in any state, and so for any accepted word that is 0 or above 7, which leaves every result register 0. -/
def Obligations.IllegalCommandWordEndsAtDispatch : Prop :=
  (∀ s : State, s.inputs = [] → s.mode = .busy → s.inFlight = none → s.dispatched = false →
    (s.latched.wordOk = false ∨ s.latched.opc.toNat = 0 ∨ 7 < s.latched.opc.toNat) →
    step s = .next (ended .illegalCmd (algOnly s.latched.opc) 0 0 0 0 s)) ∧
  (∀ (s t : State) (w : Word), s.inputs = [] → s.mode = .idle → s.inFlight = none → w.toNat = 0 ∨ 7 < w.toNat →
    hostWrite 0x00 .word w s = .next t →
    step t = .next (ended .illegalCmd (algOnly (w.extractLsb' 0 4)) 0 0 0 0 t) ∧ t.txnCount = 0)

/-! ## Frames and what follows them -/

/-- R129: the READ of DREAD ends PASS with RESULT the last response byte; a failed exchange or a wrong length halts the block
(R222); no answer leaves it BUSY (R123). -/
def Obligations.DreadReadEndsWithTheByte : Prop :=
  ∀ s : State, AtFrame 0x1 { phase := .none, a := s.latched.addr, lane := 0, fidx := 0 } s →
    s.latched.addr.toNat ≤ 0xFFFF →
    exec (.read s.latched.addr) s = .next
      (byOutcome (outcomeNow (readFrame s.latched.addr) s) (readFrame s.latched.addr) s
        (fun r => ended .pass (algOnly 0x1) 0 0 0 (r.setWidth 32) (counted (readFrame s.latched.addr) s))
        (ended .transportError (plainWhere 0x1 .none 0 .read) s.latched.addr 0 0 0
          (lost (readFrame s.latched.addr) s)))

/-- R130: the WRITE of DWRITE ends PASS with RESULT 0, whatever bytes come back. -/
def Obligations.DwriteWriteEndsPass : Prop :=
  ∀ s : State, AtFrame 0x2 { phase := .none, a := s.latched.addr, lane := 0, fidx := 0 } s →
    s.latched.addr.toNat ≤ 0xFFFF → s.latched.data.toNat ≤ 0xFF →
    exec (.write s.latched.addr s.latched.data) s = .next
      (byOutcome (outcomeNow (writeFrame s.latched.addr s.latched.data) s)
        (writeFrame s.latched.addr s.latched.data) s
        (fun _ => ended .pass (algOnly 0x2) 0 0 0 0 (counted (writeFrame s.latched.addr s.latched.data) s))
        (ended .transportError (plainWhere 0x2 .none 0 .write) s.latched.addr s.latched.data 0 0
          (lost (writeFrame s.latched.addr s.latched.data) s)))

/-- R131: the READ_STATUS of DSTATUS ends PASS with RESULT the device's last response byte, whatever it means. -/
def Obligations.DstatusFrameEndsWithTheStatusByte : Prop :=
  ∀ s : State, AtFrame 0x3 { phase := .none, a := 0, lane := 0, fidx := 0 } s →
    exec .readStatus s = .next
      (byOutcome (outcomeNow statusFrame s) statusFrame s
        (fun r => ended .pass (algOnly 0x3) 0 0 0 (r.setWidth 32) (counted statusFrame s))
        (ended .transportError (plainWhere 0x3 .none 0 .readStatus) 0 0 0 0 (lost statusFrame s)))

/-- R186: CB_WRITE writes 0xAA where the address is even exactly when step is 1, else 0x55; then the next address, and after the
last one CB_VERIFY from address 0. -/
def Obligations.CheckerWritePassWritesThePattern : Prop :=
  ∀ (s : State) (a v : Word), AtFrame 0x4 { phase := .cbWrite, a := a, lane := 0, fidx := 0 } s → a.toNat ≤ 0xFFFF →
    a.toNat < s.latched.size.toNat → v = (if (a.toNat % 2 = 0 ↔ s.latched.step.toNat = 1) then 0xAA else 0x55) →
    exec (.write a v) s = .next
      (byOutcome (outcomeNow (writeFrame a v) s) (writeFrame a v) s
        (fun _ =>
          if a.toNat + 1 < s.latched.size.toNat then atPos .cbWrite (a + 1) 0 0 (counted (writeFrame a v) s)
          else atPos .cbVerify 0 0 0 (counted (writeFrame a v) s))
        (ended .transportError (plainWhere 0x4 .cbWrite (s.latched.step.extractLsb' 0 2) .write) a v 0 0
          (lost (writeFrame a v) s)))

/-- R187: CB_VERIFY compares the whole byte with the pattern; a match goes on, after the last address to PASS; a mismatch ends
FAIL with the address, the pattern and the byte. -/
def Obligations.CheckerVerifyPassComparesTheByte : Prop :=
  ∀ (s : State) (a : Word) (x : Byte), AtFrame 0x4 { phase := .cbVerify, a := a, lane := 0, fidx := 0 } s →
    a.toNat ≤ 0xFFFF → a.toNat < s.latched.size.toNat →
    x = (if (a.toNat % 2 = 0 ↔ s.latched.step.toNat = 1) then 0xAA else 0x55) →
    exec (.read a) s = .next
      (byOutcome (outcomeNow (readFrame a) s) (readFrame a) s
        (fun r =>
          if r = x then
            if a.toNat + 1 < s.latched.size.toNat then atPos .cbVerify (a + 1) 0 0 (counted (readFrame a) s)
            else ended .pass (algOnly 0x4) 0 0 0 0 (counted (readFrame a) s)
          else
            ended .fail (plainWhere 0x4 .cbVerify (s.latched.step.extractLsb' 0 2) .read) a (x.setWidth 32)
              (r.setWidth 32) 0 (counted (readFrame a) s))
        (ended .transportError (plainWhere 0x4 .cbVerify (s.latched.step.extractLsb' 0 2) .read) a 0 0 0
          (lost (readFrame a) s)))

/-- R189: M0 writes 0x00, records no lane, and is followed by M1 from address 0, lane 0. -/
def Obligations.MarchM0WritesZero : Prop :=
  ∀ (s : State) (a : Word), AtFrame 0x5 { phase := .m0, a := a, lane := 0, fidx := 0 } s → a.toNat ≤ 0xFFFF →
    a.toNat < s.latched.size.toNat →
    exec (.write a 0) s = .next
      (byOutcome (outcomeNow (writeFrame a 0) s) (writeFrame a 0) s
        (fun _ =>
          if a.toNat + 1 < s.latched.size.toNat then atPos .m0 (a + 1) 0 0 (counted (writeFrame a 0) s)
          else atPos .m1 0 0 0 (counted (writeFrame a 0) s))
        (ended .transportError (plainWhere 0x5 .m0 0 .write) a 0 0 0 (lost (writeFrame a 0) s)))

/-- R151, R154 to R157: an element's verify READ compares lane b alone; a match goes to FIDX 1, a mismatch ends FAIL with the lane
value expected and the whole byte observed. -/
def Obligations.ElementVerifyComparesOneLane : Prop :=
  ∀ (s : State) (opc : BitVec 4) (p : Phase) (x : Bool) (ws : List Bool) (a : Word) (b : BitVec 3),
    opc = 0x5 ∨ opc = 0x7 → (p, x, ws) ∈ marchTable →
    AtFrame opc { phase := p, a := a, lane := b, fidx := 0 } s → a.toNat ≤ 0xFFFF →
    exec (.read a) s = .next
      (byOutcome (outcomeNow (readFrame a) s) (readFrame a) s
        (fun r =>
          if r.getLsbD b.toNat = x then atPos p a b 1 (counted (readFrame a) s)
          else
            ended .fail (laneWhere opc { phase := p, a := a, lane := b, fidx := 0 } .read) a (if x then 1 else 0)
              (r.setWidth 32) 0 (counted (readFrame a) s))
        (ended .transportError (laneWhere opc { phase := p, a := a, lane := b, fidx := 0 } .read) a 0 0 0
          (lost (readFrame a) s)))

/-- R152, R153, R161: the READ of an element's j-th read-modify-write, at FIDX 2j + 1, latches the byte into rmw and goes to the
WRITE at FIDX 2j + 2; nothing is compared. -/
def Obligations.RmwReadLatchesTheByte : Prop :=
  ∀ (s : State) (opc : BitVec 4) (p : Phase) (x : Bool) (ws : List Bool) (a : Word) (b : BitVec 3) (j : Nat),
    opc = 0x5 ∨ opc = 0x7 → (p, x, ws) ∈ marchTable → j < ws.length →
    AtFrame opc { phase := p, a := a, lane := b, fidx := BitVec.ofNat 3 (2 * j + 1) } s → a.toNat ≤ 0xFFFF →
    exec (.read a) s = .next
      (byOutcome (outcomeNow (readFrame a) s) (readFrame a) s
        (fun r => { atPos p a b (BitVec.ofNat 3 (2 * j + 2)) (counted (readFrame a) s) with rmw := r })
        (ended .transportError
          (laneWhere opc { phase := p, a := a, lane := b, fidx := BitVec.ofNat 3 (2 * j + 1) } .read) a 0 0 0
          (lost (readFrame a) s)))

/-- R152, R153, R158, R161: the WRITE of an element's j-th read-modify-write, at FIDX 2j + 2, sends rmw with lane b alone set or
cleared; before the last one the element goes on to FIDX 2j + 3. -/
def Obligations.RmwWriteSendsRmwWithOneLaneChanged : Prop :=
  ∀ (s : State) (opc : BitVec 4) (p : Phase) (x : Bool) (ws : List Bool) (a v : Word) (b : BitVec 3) (j : Nat) (w : Bool),
    opc = 0x5 ∨ opc = 0x7 → (p, x, ws) ∈ marchTable → j + 1 < ws.length → ws[j]? = some w →
    AtFrame opc { phase := p, a := a, lane := b, fidx := BitVec.ofNat 3 (2 * j + 2) } s → a.toNat ≤ 0xFFFF →
    v = (if w then s.rmw ||| 1#8 <<< b.toNat else s.rmw &&& ~~~(1#8 <<< b.toNat)).setWidth 32 →
    exec (.write a v) s = .next
      (byOutcome (outcomeNow (writeFrame a v) s) (writeFrame a v) s
        (fun _ => atPos p a b (BitVec.ofNat 3 (2 * j + 3)) (counted (writeFrame a v) s))
        (ended .transportError
          (laneWhere opc { phase := p, a := a, lane := b, fidx := BitVec.ofNat 3 (2 * j + 2) } .write) a v 0 0
          (lost (writeFrame a v) s)))

/-- R160: after the last WRITE of its element MELEM ends PASS. -/
def Obligations.MelemLastWriteEndsPass : Prop :=
  ∀ (s : State) (p : Phase) (x : Bool) (ws : List Bool) (a v : Word) (b : BitVec 3) (w : Bool),
    (p, x, ws) ∈ marchTable → ws.getLast? = some w →
    AtFrame 0x7 { phase := p, a := a, lane := b, fidx := BitVec.ofNat 3 (2 * ws.length) } s → a.toNat ≤ 0xFFFF →
    v = (if w then s.rmw ||| 1#8 <<< b.toNat else s.rmw &&& ~~~(1#8 <<< b.toNat)).setWidth 32 →
    exec (.write a v) s = .next
      (byOutcome (outcomeNow (writeFrame a v) s) (writeFrame a v) s
        (fun _ => ended .pass (algOnly 0x7) 0 0 0 0 (counted (writeFrame a v) s))
        (ended .transportError
          (laneWhere 0x7 { phase := p, a := a, lane := b, fidx := BitVec.ofNat 3 (2 * ws.length) } .write) a v 0 0
          (lost (writeFrame a v) s)))

/-- R181, R190 to R193: after the last WRITE of a lane MARCH_A goes to the next lane of the phase, then to the next address of its
sweep, then to the next phase, and after M4 it ends PASS: M1 and M2 upwards, M3 and M4 downwards. -/
def Obligations.MarchLastWriteGoesToTheNextLane : Prop :=
  ∀ (s : State) (p : Phase) (x : Bool) (ws : List Bool) (a v : Word) (b : BitVec 3) (w : Bool),
    (p, x, ws) ∈ marchTable → ws.getLast? = some w →
    AtFrame 0x5 { phase := p, a := a, lane := b, fidx := BitVec.ofNat 3 (2 * ws.length) } s → a.toNat ≤ 0xFFFF →
    a.toNat < s.latched.size.toNat →
    v = (if w then s.rmw ||| 1#8 <<< b.toNat else s.rmw &&& ~~~(1#8 <<< b.toNat)).setWidth 32 →
    exec (.write a v) s = .next
      (byOutcome (outcomeNow (writeFrame a v) s) (writeFrame a v) s
        (fun _ =>
          if p = .m1 ∨ p = .m2 then
            if b.toNat < 7 then atPos p a (b + 1) 0 (counted (writeFrame a v) s)
            else if a.toNat + 1 < s.latched.size.toNat then atPos p (a + 1) 0 0 (counted (writeFrame a v) s)
            else if p = .m1 then atPos .m2 0 0 0 (counted (writeFrame a v) s)
            else atPos .m3 (s.latched.size - 1) 7 0 (counted (writeFrame a v) s)
          else
            if 0 < b.toNat then atPos p a (b - 1) 0 (counted (writeFrame a v) s)
            else if 0 < a.toNat then atPos p (a - 1) 7 0 (counted (writeFrame a v) s)
            else if p = .m3 then atPos .m4 (s.latched.size - 1) 7 0 (counted (writeFrame a v) s)
            else ended .pass (algOnly 0x5) 0 0 0 0 (counted (writeFrame a v) s))
        (ended .transportError
          (laneWhere 0x5 { phase := p, a := a, lane := b, fidx := BitVec.ofNat 3 (2 * ws.length) } .write) a v 0 0
          (lost (writeFrame a v) s)))

/-- R195: SQ_WRITE writes the datum; then the next address, and after the last one SQ_VERIFY from address 0. -/
def Obligations.SequenceWritePassWritesTheDatum : Prop :=
  ∀ (s : State) (a : Word), AtFrame 0x6 { phase := .sqWrite, a := a, lane := 0, fidx := 0 } s → a.toNat ≤ 0xFFFF →
    a.toNat < s.latched.size.toNat → s.latched.data.toNat ≤ 0xFF →
    exec (.write a s.latched.data) s = .next
      (byOutcome (outcomeNow (writeFrame a s.latched.data) s) (writeFrame a s.latched.data) s
        (fun _ =>
          if a.toNat + 1 < s.latched.size.toNat then
            atPos .sqWrite (a + 1) 0 0 (counted (writeFrame a s.latched.data) s)
          else atPos .sqVerify 0 0 0 (counted (writeFrame a s.latched.data) s))
        (ended .transportError (plainWhere 0x6 .sqWrite 0 .write) a s.latched.data 0 0
          (lost (writeFrame a s.latched.data) s)))

/-- R196: SQ_VERIFY compares the whole byte with the datum; a match goes on, after the last address to PASS; a mismatch ends FAIL
with the address, the datum and the byte. -/
def Obligations.SequenceVerifyPassComparesTheByte : Prop :=
  ∀ (s : State) (a : Word), AtFrame 0x6 { phase := .sqVerify, a := a, lane := 0, fidx := 0 } s → a.toNat ≤ 0xFFFF →
    a.toNat < s.latched.size.toNat → s.latched.data.toNat ≤ 0xFF →
    exec (.read a) s = .next
      (byOutcome (outcomeNow (readFrame a) s) (readFrame a) s
        (fun r =>
          if r.toNat = s.latched.data.toNat then
            if a.toNat + 1 < s.latched.size.toNat then atPos .sqVerify (a + 1) 0 0 (counted (readFrame a) s)
            else ended .pass (algOnly 0x6) 0 0 0 0 (counted (readFrame a) s)
          else
            ended .fail (plainWhere 0x6 .sqVerify 0 .read) a s.latched.data (r.setWidth 32) 0
              (counted (readFrame a) s))
        (ended .transportError (plainWhere 0x6 .sqVerify 0 .read) a 0 0 0 (lost (readFrame a) s)))

/-- R221, R228: whatever command issues it, a frame whose address is above 0xFFFF, or a WRITE whose value is above 0xFF, ends
RANGE_ERROR with both operands recorded and the address first; it is never sent, and the block is IDLE. -/
def Obligations.OutOfRangeFrameEndsRangeError : Prop :=
  ∀ (s : State) (a v : Word),
    (issues s = some (.read a) → 0xFFFF < a.toNat →
      exec (.read a) s = .next (ended .rangeError (whereIn .read false s) a 0 0 0 s)) ∧
    (issues s = some (.write a v) → 0xFFFF < a.toNat →
      exec (.write a v) s = .next (ended .rangeError (whereIn .write false s) a v 0 0 s)) ∧
    (issues s = some (.write a v) → a.toNat ≤ 0xFFFF → 0xFF < v.toNat →
      exec (.write a v) s = .next (ended .rangeError (whereIn .write true s) a v 0 0 s))

/-! ## What instructions leave unchanged -/

/-- What the dispatch of any of the seven commands leaves unchanged (R13, R100, R128): it exchanges nothing, so TXN_COUNT, the
bus port, the frame history, rmw, the ARG registers, L and OVERRUN stay; a command that goes on keeps the result registers
(R42), and one that ends keeps pos. -/
def Obligations.DispatchExchangesNothing : Prop :=
  ∀ (i : Instr) (s t : State), i.isFrame = false → exec i s = .next t →
    SameOperands s t ∧ t.dispatched = true ∧ t.txnCount = s.txnCount ∧ t.history = s.history ∧
    t.inFlight = s.inFlight ∧ t.rmw = s.rmw ∧ (t.mode = .busy → SameResults s t) ∧ (t.mode ≠ .busy → t.pos = s.pos)

/-- What a frame leaves unchanged: the ARG registers, L and OVERRUN always (R24, R33); the result registers while the command goes
on (R42); pos when the command ends (log 18). At most the one exchange of its own bytes is added (R71, R128), and rmw changes
only by a READ of an element past FIDX 0 (R36, R152). -/
def Obligations.FrameInstructionsFrame : Prop :=
  ∀ (i : Instr) (s t : State), i.isFrame = true → exec i s = .next t →
    SameOperands s t ∧ t.dispatched = s.dispatched ∧
    (t.rmw = s.rmw ∨ ((∃ a, i = .read a) ∧ lanePhase s.pos.phase = true ∧ s.pos.fidx ≠ 0)) ∧
    (t.mode = .busy → SameResults s t) ∧ (t.mode ≠ .busy → t.pos = s.pos) ∧
    ((t.history = s.history ∧ t.txnCount = s.txnCount ∧
        ((frameBytes i = none ∧ t.code = .rangeError ∧ t.inFlight = none) ∨
          (t.inFlight = frameBytes i ∧ t.mode = .busy ∧ t.pos = s.pos ∧ t.rmw = s.rmw))) ∨
      ∃ tx, frameBytes i = some tx ∧ t.inFlight = none ∧
        ((t.history = .exchanged tx :: s.history ∧ t.txnCount = s.txnCount + 1) ∨
          (t.history = .failed tx :: s.history ∧ t.txnCount = s.txnCount ∧ t.mode = .halted)))

/-- What is stored where, whatever the device answers (`exec` is `execOn` at one device, `ExecAndStepAreAtOneDevice`): every byte
of the device's cells, computed from the frames sent as R38's IdealMemory does, reads as before, except the one byte at the
address of an exchanged WRITE, which reads as written (R60, R68). A READ, a READ_STATUS and a command store nothing; nor does a
WRITE that the range check refuses, which is never sent (R221), nor, as the model reads IdealMemory (log 16), one whose exchange
fails or is not answered. -/
def Obligations.OnlyTheWrittenCellChanges : Prop :=
  ∀ (d : Device) (i : Instr) (s t : State) (start : Word → Byte), execOn d i s = .next t →
    (∀ c, (∀ a v, i = .write a v → c ≠ a) → cellAfter start t.history c = cellAfter start s.history c) ∧
    (∀ a v, i = .write a v → t.txnCount = s.txnCount + 1 → cellAfter start t.history a = v.extractLsb' 0 8) ∧
    (frameBytes i = none → ∀ c, cellAfter start t.history c = cellAfter start s.history c) ∧
    (t.txnCount = s.txnCount → ∀ c, cellAfter start t.history c = cellAfter start s.history c)

/-! ## Reset, hang, halt and modes -/

/-- R40: the state after reset, register by register as the host reads it, and the sequencer's own. What the spec does not name
(the model's own fields) is the model's choice (logs 2, 4, 6, 7) and is not stated here. -/
def Obligations.ResetValues : Prop :=
  (∀ o : BitVec 6, readReg o State.reset =
    if o = 0x10 then 0x00010000 else if o = 0x14 then 0x00000001 else if o = 0x1C then 0x00000001 else 0x00000000) ∧
  State.reset.mode = .idle ∧
  State.reset.latched = { opc := 0, wordOk := false, addr := 0, data := 0, size := 0, step := 0, lane := 0, elem := 0 } ∧
  State.reset.pos = { phase := .none, a := 0, lane := 0, fidx := 0 } ∧ State.reset.rmw = 0x00 ∧
  State.reset.inFlight = none

/-- R260, R261, R262: from every state, hung and HALTED ones too, reset gives every field of the block its reset value; the bus
history only gains the frame that was cut short. The model's own: that the history is kept (log 4), that the input list goes on
(log 6), and that reset may cut the frame issued next, when it comes while that frame is partly sent (log 14). -/
def Obligations.ResetFromAnyState : Prop :=
  ∀ s : State, ResetNext s →
    ∃ h rest, step s = .next { State.reset with history := h, inputs := rest } ∧ s.inputs.tail = rest ∧
      (h = s.history ∨ ∃ tx, h = .cut tx :: s.history ∧
        (s.inFlight = some tx ∨ ∃ i, issues s = some i ∧ frameBytes i = some tx))

/-- R227: a command whose exchange never answers stays BUSY, with nothing counted and no frame issued, whatever the host does short
of reset. -/
def Obligations.HangLastsUntilReset : Prop :=
  ∀ (s t : State) (tx : Frame), s.mode = .busy → s.inFlight = some tx → ¬ ResetNext s → step s = .next t →
    t.mode = .busy ∧ t.inFlight = some tx ∧ t.history = s.history ∧ t.txnCount = s.txnCount ∧ SameResults s t ∧
    t.latched = s.latched ∧ t.pos = s.pos

/-- R222, R226: a HALTED block stays HALTED, keeps its record and issues no frame, whatever the host does short of reset. -/
def Obligations.HaltLastsUntilReset : Prop :=
  ∀ s t : State, s.mode = .halted → ¬ ResetNext s → step s = .next t →
    t.mode = .halted ∧ t.history = s.history ∧ t.txnCount = s.txnCount ∧ SameResults s t ∧ t.latched = s.latched

/-- R35: STATUS shows the mode, and the transitions of mode, for every step of every state, are these and no others. -/
def Obligations.ModeTransitions : Prop :=
  ∀ s t : State, step s = .next t →
    ((statusWord t).getLsbD 0 = true ↔ t.mode = .busy) ∧ ((statusWord t).getLsbD 1 = true ↔ t.mode = .halted) ∧
    (ResetNext s → t.mode = .idle) ∧
    ((∃ w rest, s.inputs = .write 0x00 .word w :: rest) → s.mode = .idle → t.mode = .busy) ∧
    (t.mode = s.mode ∨
      (s.mode = .idle ∧ t.mode = .busy ∧ ∃ w rest, s.inputs = .write 0x00 .word w :: rest) ∨
      (s.mode = .busy ∧ t.mode = .idle ∧ t.done = true ∧ t.code ≠ .none ∧ t.code ≠ .transportError) ∨
      (s.mode = .busy ∧ t.mode = .halted ∧ t.done = true ∧ t.code = .transportError) ∨
      (ResetNext s ∧ t.mode = .idle))

/-- R71, R128, R182: a step adds at most one event to the bus, and only while a dispatched command runs, so after a command has
ended no frame follows before another is accepted; TXN_COUNT counts exactly the exchanges that completed. For every device. -/
def Obligations.AtMostOneExchangePerStep : Prop :=
  ∀ (d : Device) (s t : State), stepOn d s = .next t → ¬ ResetNext s →
    (t.history = s.history ∨ ∃ ev, t.history = ev :: s.history) ∧
    (t.history ≠ s.history → s.mode = .busy ∧ s.dispatched = true ∧ s.inFlight = none) ∧
    (t.txnCount = s.txnCount ∨ (∃ w rest, s.inputs = .write 0x00 .word w :: rest ∧ s.mode = .idle ∧ t.txnCount = 0) ∨
      (t.txnCount = s.txnCount + 1 ∧ ∃ tx, t.history = .exchanged tx :: s.history)) ∧
    (∀ tx, t.history = .exchanged tx :: s.history → t.txnCount = s.txnCount + 1)

/-! ## Invariants -/

/-- The invariant holds after reset. -/
def Obligations.InvariantHoldsAtReset : Prop := BlockInvariant State.reset

/-- R42, R197 and the rules named in `BlockInvariant`: every step keeps the invariant, for every input and every device answer. -/
def Obligations.EveryStepKeepsTheInvariant : Prop :=
  ∀ s t : State, BlockInvariant s → step s = .next t → BlockInvariant t

/-- From a state of the invariant a step never faults, and refuses nothing but a narrow or misaligned host access (R21): no reserved
phase or position is ever met (93_implementation_defined.md I14). -/
def Obligations.StepStopsOnlyAtABadHostAccess : Prop :=
  ∀ s : State, BlockInvariant s →
    (∃ t, step s = .next t) ∨
    (∃ o width rest, (s.inputs = .read o width :: rest ∨ ∃ w, s.inputs = .write o width w :: rest) ∧
      (width ≠ .word ∨ o.toNat % 4 ≠ 0) ∧ ∃ r, step s = .refused r)

/-- R97, R132: whatever the host and the device do, every frame on the bus is a READ, a WRITE or a READ_STATUS of the table. -/
def Obligations.OnlyTheThreeFramesAreSent : Prop :=
  ∀ s t : State, BlockInvariant s → OnlyBlockFrames s → step s = .next t → OnlyBlockFrames t

/-! ## Lanes, patterns and orders -/

/-- R150: lane masks, lane values, setting and clearing. -/
def Obligations.LaneArithmetic : Prop :=
  ∀ (r : Byte) (b : BitVec 3),
    (laneMask b).toNat = 2 ^ b.toNat ∧ (laneBit r b = true ↔ r.toNat / 2 ^ b.toNat % 2 = 1) ∧
    setLane r b = r ||| laneMask b ∧ clearLane r b = r &&& (~~~ laneMask b &&& 0xFF) ∧
    laneMask 0 = 0x01 ∧ laneMask 7 = 0x80 ∧
    (∀ c : BitVec 3, laneBit (setLane r b) c = (decide (c = b) || laneBit r c)) ∧
    (∀ c : BitVec 3, laneBit (clearLane r b) c = (decide (c ≠ b) && laneBit r c))

/-- R180 to R183, R197: the sequencer's advance, frame by frame, visits exactly the positions of the algorithm's nested loops in their
order, and ends PASS after the last; an empty sweep ends PASS at once. -/
def Obligations.AdvanceFollowsTheLoops : Prop :=
  ∀ (s : State) (ps : List Phase), ps = checkerPhases ∨ ps = marchPhases ∨ ps = sequencePhases → s.latched.opc ≠ 0x7 →
    enterPhases ps s =
      (match (algorithmPositions ps s.latched.size.toNat)[0]? with
       | some q => { s with pos := q }
       | none => finish s) ∧
    (∀ k, (algorithmPositions ps s.latched.size.toNat)[k]? = some s.pos →
      frameDone s =
        (match (algorithmPositions ps s.latched.size.toNat)[k + 1]? with
         | some q => { s with pos := q }
         | none => finish s))

/-- R199: the frames of the algorithms over n cells: 2n, 193n and 2n. -/
def Obligations.LoopLengths : Prop :=
  ∀ n : Nat,
    (algorithmPositions checkerPhases n).length = 2 * n ∧ (algorithmPositions marchPhases n).length = 193 * n ∧
    (algorithmPositions sequencePhases n).length = 2 * n

/-! ## Whole commands on a device -/

/-- R77, R38: on IdealMemory a READ of a returns the byte of the last WRITE of a, else the start contents; a WRITE of another cell, a
READ and a READ_STATUS change no cell. -/
def Obligations.IdealMemoryReturnsTheLastWrite : Prop :=
  ∀ (start : Word → Byte) (status : Byte) (filler : History → Frame → Nat → Byte) (h : History) (a c v : Word),
    a.toNat ≤ 0xFFFF → c.toNat ≤ 0xFFFF → v.toNat ≤ 0xFF →
    (∃ rx, exchange (idealMemory start status filler) h (readFrame a) = .ok rx ∧ rx.length = 4 ∧
      rx.getLastD 0 = cellAfter start h a) ∧
    (∃ rx, exchange (idealMemory start status filler) h statusFrame = .ok rx ∧ rx.length = 2 ∧ rx.getLastD 0 = status) ∧
    (∃ rx, exchange (idealMemory start status filler) h (writeFrame a v) = .ok rx ∧ rx.length = 5) ∧
    cellAfter start [] a = start a ∧
    cellAfter start (.exchanged (writeFrame c v) :: h) a = (if c = a then v.extractLsb' 0 8 else cellAfter start h a) ∧
    cellAfter start (.exchanged (readFrame c) :: h) a = cellAfter start h a ∧
    cellAfter start (.exchanged statusFrame :: h) a = cellAfter start h a

/-- R129 ("Round-trip"): on IdealMemory, DWRITE of a legal value at a legal address and then DREAD of it return the value, as the host
sees it through CMD writes. The input list and its turns are the model's own (log 6), and so is the count of steps (log 1). -/
def Obligations.WriteThenReadRoundTrip : Prop :=
  ∀ (start : Word → Byte) (status : Byte) (filler : History → Frame → Nat → Byte) (s : State),
    s.mode = .idle → s.inFlight = none → s.argAddr.toNat ≤ 0xFFFF → s.argData.toNat ≤ 0xFF →
    s.inputs = [.write 0x00 .word 0x00000002, .sequencer, .sequencer,
      .write 0x00 .word 0x00000001, .sequencer, .sequencer] →
    ∃ t, runOn (idealMemory start status filler) 6 s = .next t ∧ t.result = s.argData ∧ t.code = .pass ∧
      t.mode = .idle ∧ t.done = true ∧ t.txnCount = 1 ∧ t.inputs = []

/-- R160, R162: on IdealMemory a MELEM whose lane reads as its element expects ends PASS after all its frames, leaves the lane
at the element's last write and every other lane and cell as it was; one whose lane reads otherwise ends FAIL after one frame
and changes nothing of the device. The number of steps rests on the model's granularity (log 1), the empty input list on log
6. -/
def Obligations.MelemOnIdealMemory : Prop :=
  ∀ (start : Word → Byte) (status : Byte) (filler : History → Frame → Nat → Byte) (s : State) (p : Phase) (x : Bool)
    (ws : List Bool) (n : Nat) (b : BitVec 3),
    (p, x, ws) ∈ marchTable → (p, n) ∈ [(Phase.m1, 1), (Phase.m2, 2), (Phase.m3, 3), (Phase.m4, 4)] →
    AtDispatch 0x7 s → s.inputs = [] → s.txnCount = 0 → s.latched.elem.toNat = n → s.latched.lane.toNat = b.toNat →
    s.latched.addr.toNat ≤ 0xFFFF →
    (laneBit (cellAfter start s.history s.latched.addr) b = x →
      ∃ t, runOn (idealMemory start status filler) (2 + 2 * ws.length) s = .next t ∧ t.mode = .idle ∧ t.code = .pass ∧
        t.txnCount.toNat = 1 + 2 * ws.length ∧
        (∀ c : BitVec 3, laneBit (cellAfter start t.history s.latched.addr) c =
          if c = b then ws.getLastD x else laneBit (cellAfter start s.history s.latched.addr) c) ∧
        (∀ a, a ≠ s.latched.addr → cellAfter start t.history a = cellAfter start s.history a)) ∧
    (laneBit (cellAfter start s.history s.latched.addr) b ≠ x →
      ∃ t, runOn (idealMemory start status filler) 2 s = .next t ∧ t.mode = .idle ∧ t.code = .fail ∧ t.txnCount = 1 ∧
        t.failWhere = laneWhere 0x7 { phase := p, a := s.latched.addr, lane := b, fidx := 0 } .read ∧
        t.failAddr = s.latched.addr ∧ t.failExp = (if x then 1 else 0) ∧
        t.failObs = (cellAfter start s.history s.latched.addr).setWidth 32 ∧
        (∀ a, cellAfter start t.history a = cellAfter start s.history a))

/-- R199, R201: CHECKER over n cells of IdealMemory ends PASS after exactly 2n frames, and cell a below n then holds its
pattern; no other cell changed. The number of steps rests on the model's granularity (log 1), the empty input list on log 6.
-/
def Obligations.CheckerPassesOnIdealMemory : Prop :=
  ∀ (start : Word → Byte) (status : Byte) (filler : History → Frame → Nat → Byte) (s : State),
    AtDispatch 0x4 s → s.inputs = [] → s.txnCount = 0 → s.latched.size.toNat ≤ 0x10000 →
    s.latched.step.toNat = 1 ∨ s.latched.step.toNat = 2 →
    ∃ t, runOn (idealMemory start status filler) (1 + 2 * s.latched.size.toNat) s = .next t ∧ t.mode = .idle ∧
      t.code = .pass ∧ t.txnCount.toNat = 2 * s.latched.size.toNat ∧
      ∀ a : Word, cellAfter start t.history a =
        if a.toNat < s.latched.size.toNat then
          (if (a.toNat % 2 = 0 ↔ s.latched.step.toNat = 1) then 0xAA else 0x55)
        else cellAfter start s.history a

/-- R199, R201: SEQUENCE over n cells of IdealMemory ends PASS after exactly 2n frames, and every cell below n then holds the
datum; no other cell changed. The number of steps rests on the model's granularity (log 1), the empty input list on log 6. -/
def Obligations.SequencePassesOnIdealMemory : Prop :=
  ∀ (start : Word → Byte) (status : Byte) (filler : History → Frame → Nat → Byte) (s : State),
    AtDispatch 0x6 s → s.inputs = [] → s.txnCount = 0 → s.latched.size.toNat ≤ 0x10000 → s.latched.data.toNat ≤ 0xFF →
    ∃ t, runOn (idealMemory start status filler) (1 + 2 * s.latched.size.toNat) s = .next t ∧ t.mode = .idle ∧
      t.code = .pass ∧ t.txnCount.toNat = 2 * s.latched.size.toNat ∧
      ∀ a : Word, cellAfter start t.history a =
        if a.toNat < s.latched.size.toNat then s.latched.data.extractLsb' 0 8 else cellAfter start s.history a

/-- R199, R201: MARCH_A over n cells of IdealMemory, whatever they held, ends PASS after exactly 193n frames, and every cell
below n then holds 0x00; no other cell changed. The number of steps rests on the model's granularity (log 1), the empty input
list on log 6. -/
def Obligations.MarchPassesOnIdealMemory : Prop :=
  ∀ (start : Word → Byte) (status : Byte) (filler : History → Frame → Nat → Byte) (s : State),
    AtDispatch 0x5 s → s.inputs = [] → s.txnCount = 0 → s.latched.size.toNat ≤ 0x10000 →
    ∃ t, runOn (idealMemory start status filler) (1 + 193 * s.latched.size.toNat) s = .next t ∧ t.mode = .idle ∧
      t.code = .pass ∧ t.txnCount.toNat = 193 * s.latched.size.toNat ∧
      ∀ a : Word, cellAfter start t.history a =
        if a.toNat < s.latched.size.toNat then 0x00 else cellAfter start s.history a

/-- R182, R187, R199: on a device that stores as IdealMemory does, reads its cells through any view, and whose cells below k
read as their pattern while cell k reads otherwise, CHECKER ends FAIL at address k after n + k + 1 frames and is IDLE,
whatever the cells above k read. The number of steps rests on the model's granularity (log 1), the empty input list on log 6.
-/
def Obligations.CheckerFailsFastAtTheFaultyCell : Prop :=
  ∀ (view : Word → Byte → Byte) (start : Word → Byte) (status : Byte) (s : State) (k : Word) (pattern : Word → Byte),
    (∀ a : Word, pattern a = if (a.toNat % 2 = 0 ↔ s.latched.step.toNat = 1) then 0xAA else 0x55) →
    AtDispatch 0x4 s → s.inputs = [] → s.txnCount = 0 → s.latched.size.toNat ≤ 0x10000 →
    s.latched.step.toNat = 1 ∨ s.latched.step.toNat = 2 → k.toNat < s.latched.size.toNat →
    (∀ a : Word, a.toNat < k.toNat → view a (pattern a) = pattern a) → view k (pattern k) ≠ pattern k →
    ∃ t, runOn (viewedMemory view start status) (s.latched.size.toNat + k.toNat + 2) s = .next t ∧
      t.mode = .idle ∧ t.code = .fail ∧ t.txnCount.toNat = s.latched.size.toNat + k.toNat + 1 ∧ t.failAddr = k ∧
      t.failExp = (pattern k).setWidth 32 ∧ t.failObs = (view k (pattern k)).setWidth 32 ∧
      t.failWhere = plainWhere 0x4 .cbVerify (s.latched.step.extractLsb' 0 2) .read

/-- R182, R190, R199: MARCH_A finds a lane stuck at 1 in any cell of its range: it ends FAIL in M1 at that cell and lane,
after n + 56k + 7b + 1 frames. The number of steps rests on the model's granularity (log 1), the empty input list on log 6. -/
def Obligations.MarchFindsALaneStuckAtOne : Prop :=
  ∀ (start : Word → Byte) (status : Byte) (s : State) (k : Word) (b : BitVec 3),
    AtDispatch 0x5 s → s.inputs = [] → s.txnCount = 0 → s.latched.size.toNat ≤ 0x10000 →
    k.toNat < s.latched.size.toNat →
    ∃ t, runOn (viewedMemory (stuckAt1 k b) start status)
        (s.latched.size.toNat + 56 * k.toNat + 7 * b.toNat + 2) s = .next t ∧
      t.mode = .idle ∧ t.code = .fail ∧
      t.txnCount.toNat = s.latched.size.toNat + 56 * k.toNat + 7 * b.toNat + 1 ∧ t.failAddr = k ∧ t.failExp = 0 ∧
      t.failWhere = laneWhere 0x5 { phase := .m1, a := k, lane := b, fidx := 0 } .read

/-- R269: where every exchange completes or fails, every command that has been accepted comes to an end, whatever the device answers,
whatever the operands, and whatever the host does meanwhile short of reset and of an access that R21 refuses: the host's accesses
and polls are an input list of any length (the model's own, log 6), empty or not. -/
def Obligations.CommandsEndIfEveryExchangeAnswers : Prop :=
  ∀ (d : Device) (s : State), (∀ h tx, d.draw h tx ≠ .neverAnswers) → BlockInvariant s → s.mode = .busy →
    s.inFlight = none → (∀ x ∈ s.inputs, x.keepsRunning = true) →
    ∃ k t, runOn d k s = .next t ∧ t.mode ≠ .busy ∧ t.done = true
end

