-- ==== Sys2Proof/Laws/Encoding.lean ====
section
/-!
SUPPORT. What the encoder and the decoder do on a frame, one lemma each.
-/

namespace Sys2Proof

@[simp] theorem addrMax_toNat : Config.addrMax.toNat = 0xFFFF := rfl

@[simp] theorem valueMax_toNat : Config.valueMax.toNat = 0xFF := rfl

theorem gt_addrMax_iff (a : Word) : a > Config.addrMax ↔ 0xFFFF < a.toNat := by
  simp [BitVec.lt_def]

theorem gt_valueMax_iff (v : Word) : v > Config.valueMax ↔ 0xFF < v.toNat := by
  simp [BitVec.lt_def]

theorem addrFits_iff (a : Word) : addrFits a = true ↔ a.toNat ≤ 0xFFFF := by
  simp [addrFits, BitVec.le_def]

theorem valueFits_iff (v : Word) : valueFits v = true ↔ v.toNat ≤ 0xFF := by
  simp [valueFits, BitVec.le_def]

/-- The two address bytes of an address in range give the address back (R64, R92). -/
theorem addressOf_addrHi_addrLo {a : Word} (h : a.toNat ≤ 0xFFFF) : addressOf (addrHi a) (addrLo a) = a := by
  apply BitVec.eq_of_toNat_eq
  have hi : (a.toNat >>> 8) % 256 = a.toNat / 256 := by rw [Nat.shiftRight_eq_div_pow]; omega
  simp only [addressOf, addrHi, addrLo, BitVec.toNat_setWidth, BitVec.toNat_append, BitVec.extractLsb'_toNat]
  norm_num
  rw [hi, Nat.shiftLeft_eq, Nat.mul_comm, ← Nat.two_pow_add_eq_or_of_lt (by omega : a.toNat % 256 < 2 ^ 8)]
  omega

/-- The value byte of a value in range gives the value back (R93). -/
theorem valueOf_extract {v : Word} (h : v.toNat ≤ 0xFF) : valueOf (v.extractLsb' 0 8) = v := by
  apply BitVec.eq_of_toNat_eq
  simp only [valueOf, BitVec.toNat_setWidth, BitVec.extractLsb'_toNat, Nat.shiftRight_zero]
  omega

theorem encRead_ok {a : Word} (h : a.toNat ≤ 0xFFFF) : encRead a = .ok [0x03, addrHi a, addrLo a, 0x00] := by
  have : ¬ a > Config.addrMax := by rw [gt_addrMax_iff]; omega
  simp [encRead, this]

theorem encRead_error {a : Word} (h : 0xFFFF < a.toNat) : encRead a = .error .addr := by
  have : a > Config.addrMax := by rw [gt_addrMax_iff]; omega
  simp [encRead, this]

theorem encWrite_ok {a v : Word} (h : a.toNat ≤ 0xFFFF) (hv : v.toNat ≤ 0xFF) :
    encWrite a v = .ok [0x02, addrHi a, addrLo a, v.extractLsb' 0 8, 0x00] := by
  have h1 : ¬ a > Config.addrMax := by rw [gt_addrMax_iff]; omega
  have h2 : ¬ v > Config.valueMax := by rw [gt_valueMax_iff]; omega
  simp [encWrite, h1, h2]

theorem encWrite_addr_error {a : Word} (v : Word) (h : 0xFFFF < a.toNat) : encWrite a v = .error .addr := by
  have : a > Config.addrMax := by rw [gt_addrMax_iff]; omega
  simp [encWrite, this]

theorem encWrite_value_error {a v : Word} (h : a.toNat ≤ 0xFFFF) (hv : 0xFF < v.toNat) :
    encWrite a v = .error .value := by
  have h1 : ¬ a > Config.addrMax := by rw [gt_addrMax_iff]; omega
  have h2 : v > Config.valueMax := by rw [gt_valueMax_iff]; omega
  simp [encWrite, h1, h2]

/-- The three frames the decoder takes off a stream, whatever bytes follow (R96). -/
theorem decodeStream_read (hi lo : Byte) (rest : List Byte) :
    decodeStream (0x03 :: hi :: lo :: 0x00 :: rest) = .ok (.read (addressOf hi lo), rest) := rfl

theorem decodeStream_write (hi lo v : Byte) (rest : List Byte) :
    decodeStream (0x02 :: hi :: lo :: v :: 0x00 :: rest) = .ok (.write (addressOf hi lo) (valueOf v), rest) := rfl

theorem decodeStream_status (rest : List Byte) : decodeStream (0x05 :: 0x00 :: rest) = .ok (.readStatus, rest) := rfl

/-- A frame's bytes are those of its format, and only a frame with operands in range has any. -/
theorem frameBytes_cases {i : Instr} {tx : Frame} (h : frameBytes i = some tx) :
    (∃ a, i = .read a ∧ a.toNat ≤ 0xFFFF ∧ tx = [0x03, addrHi a, addrLo a, 0x00]) ∨
    (∃ a v, i = .write a v ∧ a.toNat ≤ 0xFFFF ∧ v.toNat ≤ 0xFF ∧
      tx = [0x02, addrHi a, addrLo a, v.extractLsb' 0 8, 0x00]) ∨
    (i = .readStatus ∧ tx = [0x05, 0x00]) := by
  cases i with
  | read a =>
    by_cases ha : a.toNat ≤ 0xFFFF
    · refine .inl ⟨a, rfl, ha, ?_⟩
      simpa [frameBytes, encode, encRead_ok ha, Except.map] using h.symm
    · simp [frameBytes, encode, encRead_error (not_le.mp ha), Except.map] at h
  | write a v =>
    by_cases ha : a.toNat ≤ 0xFFFF
    · by_cases hv : v.toNat ≤ 0xFF
      · refine .inr (.inl ⟨a, v, rfl, ha, hv, ?_⟩)
        simpa [frameBytes, encode, encWrite_ok ha hv, Except.map] using h.symm
      · simp [frameBytes, encode, encWrite_value_error ha (not_le.mp hv), Except.map] at h
    · simp [frameBytes, encode, encWrite_addr_error v (not_le.mp ha), Except.map] at h
  | readStatus => exact .inr (.inr ⟨rfl, by simpa [frameBytes, encode, encStatus] using h.symm⟩)
  | dread | dwrite | dstatus | checker | marchA | sequence | melem => simp [frameBytes, encode] at h

theorem frameBytes_read {a : Word} (h : a.toNat ≤ 0xFFFF) :
    frameBytes (.read a) = some [0x03, addrHi a, addrLo a, 0x00] := by
  simp [frameBytes, encode, encRead_ok h, Except.map]

theorem frameBytes_write {a v : Word} (h : a.toNat ≤ 0xFFFF) (hv : v.toNat ≤ 0xFF) :
    frameBytes (.write a v) = some [0x02, addrHi a, addrLo a, v.extractLsb' 0 8, 0x00] := by
  simp [frameBytes, encode, encWrite_ok h hv, Except.map]

/-- A decoded frame is the instruction whose bytes were sent. -/
theorem decodeFrame_read {a : Word} (h : a.toNat ≤ 0xFFFF) :
    decodeFrame [0x03, addrHi a, addrLo a, 0x00] = .ok (.read a) := by
  simp only [decodeFrame, decodeStream_read, addressOf_addrHi_addrLo h]

theorem decodeFrame_write {a v : Word} (h : a.toNat ≤ 0xFFFF) (hv : v.toNat ≤ 0xFF) :
    decodeFrame [0x02, addrHi a, addrLo a, v.extractLsb' 0 8, 0x00] = .ok (.write a v) := by
  simp only [decodeFrame, decodeStream_write, addressOf_addrHi_addrLo h, valueOf_extract hv]

/-- The address two bytes carry is in range, and its two bytes are those (R64). -/
theorem addressOf_bytes (hi lo : Byte) :
    (addressOf hi lo).toNat ≤ 0xFFFF ∧ addrHi (addressOf hi lo) = hi ∧ addrLo (addressOf hi lo) = lo := by
  have h : (addressOf hi lo).toNat = hi.toNat * 256 + lo.toNat := by
    simp only [addressOf, BitVec.toNat_setWidth, BitVec.toNat_append]
    rw [Nat.shiftLeft_eq, Nat.mul_comm, ← Nat.two_pow_add_eq_or_of_lt lo.isLt]
    omega
  refine ⟨by omega, ?_, ?_⟩ <;> apply BitVec.eq_of_toNat_eq
  · simp only [addrHi, BitVec.extractLsb'_toNat, h, Nat.shiftRight_eq_div_pow]
    omega
  · simp only [addrLo, BitVec.extractLsb'_toNat, h, Nat.shiftRight_eq_div_pow]
    omega

/-- The value a byte carries is in range, and its byte is that one (R93). -/
theorem valueOf_byte (v : Byte) : (valueOf v).toNat ≤ 0xFF ∧ (valueOf v).extractLsb' 0 8 = v := by
  have := v.isLt
  refine ⟨by simp only [valueOf, BitVec.toNat_setWidth]; omega, ?_⟩
  apply BitVec.eq_of_toNat_eq
  simp only [valueOf, BitVec.extractLsb'_toNat, BitVec.toNat_setWidth, Nat.shiftRight_zero]
  omega

theorem checkDummy_ok {d : Byte} {i j : Instr} {rest out : List Byte} (h : checkDummy d i rest = .ok (j, out)) :
    d = 0x00 ∧ j = i ∧ out = rest := by
  unfold checkDummy at h
  split at h
  · injection h with h
    injection h with h1 h2
    exact ⟨‹_›, h1.symm, h2.symm⟩
  · cases h

/-- What decodes as one frame has the bytes of one of the three formats. -/
theorem decodeFrame_cases {bytes : Frame} {i : Instr} (h : decodeFrame bytes = .ok i) :
    (∃ hi lo, bytes = [0x03, hi, lo, 0x00] ∧ i = .read (addressOf hi lo)) ∨
    (∃ hi lo v, bytes = [0x02, hi, lo, v, 0x00] ∧ i = .write (addressOf hi lo) (valueOf v)) ∨
    (bytes = [0x05, 0x00] ∧ i = .readStatus) := by
  unfold decodeFrame at h
  split at h
  · rename_i j hs
    injection h with h
    subst h
    unfold decodeStream at hs
    split at hs
    · cases hs
    · split at hs
      · subst ‹_ = (0x03 : Byte)›
        unfold decodeReadTail at hs
        split at hs
        · obtain ⟨rfl, rfl, rfl⟩ := checkDummy_ok hs
          exact .inl ⟨_, _, rfl, rfl⟩
        · cases hs
      · split at hs
        · subst ‹_ = (0x02 : Byte)›
          unfold decodeWriteTail at hs
          split at hs
          · obtain ⟨rfl, rfl, rfl⟩ := checkDummy_ok hs
            exact .inr (.inl ⟨_, _, _, rfl, rfl⟩)
          · cases hs
        · split at hs
          · subst ‹_ = (0x05 : Byte)›
            unfold decodeStatusTail at hs
            split at hs
            · obtain ⟨rfl, rfl, rfl⟩ := checkDummy_ok hs
              exact .inr (.inr ⟨rfl, rfl⟩)
            · cases hs
          · cases hs
  · cases h
  · cases h

/-- What the opcode map gives is a command, by its row of R99. -/
theorem decodeOpc_cases {opc : BitVec 4} {i : Instr} (h : decodeOpc opc = .ok i) :
    (opc = 0x1 ∧ i = .dread) ∨ (opc = 0x2 ∧ i = .dwrite) ∨ (opc = 0x3 ∧ i = .dstatus) ∨ (opc = 0x4 ∧ i = .checker) ∨
      (opc = 0x5 ∧ i = .marchA) ∨ (opc = 0x6 ∧ i = .sequence) ∨ (opc = 0x7 ∧ i = .melem) := by
  unfold decodeOpc at h
  by_cases h1 : opc = 0x1
  · simp_all
  by_cases h2 : opc = 0x2
  · simp_all
  by_cases h3 : opc = 0x3
  · simp_all
  by_cases h4 : opc = 0x4
  · simp_all
  by_cases h5 : opc = 0x5
  · simp_all
  by_cases h6 : opc = 0x6
  · simp_all
  by_cases h7 : opc = 0x7
  · simp_all
  simp_all

/-- A command that dispatch accepts has no reserved bit set, and its opcode is in the map (R100). -/
theorem decodeLatched_ok {opc : BitVec 4} {wordOk : Bool} {i : Instr} (h : decodeLatched opc wordOk = .ok i) :
    wordOk = true ∧ decodeOpc opc = .ok i := by
  unfold decodeLatched at h
  split at h
  · exact ⟨‹_›, h⟩
  · cases h

/-- A bus frame is an instruction with bytes, and only a bus frame has any. -/
theorem isFrame_of_frameBytes {i : Instr} {tx : Frame} (h : frameBytes i = some tx) : i.isFrame = true := by
  rcases frameBytes_cases h with ⟨_, rfl, _⟩ | ⟨_, _, rfl, _⟩ | ⟨rfl, _⟩ <;> rfl

end Sys2Proof
end

