-- ==== Sys2Proof/Laws/State.lean ====
section
/-!
SUPPORT. What each update of the state leaves in each field, so that no proof unfolds an update.
-/

namespace Sys2Proof.Machine

@[simp] theorem accept_argAddr (w : Word) (s : State) : (accept w s).argAddr = s.argAddr := rfl
@[simp] theorem accept_argData (w : Word) (s : State) : (accept w s).argData = s.argData := rfl
@[simp] theorem accept_argSize (w : Word) (s : State) : (accept w s).argSize = s.argSize := rfl
@[simp] theorem accept_argStep (w : Word) (s : State) : (accept w s).argStep = s.argStep := rfl
@[simp] theorem accept_argLane (w : Word) (s : State) : (accept w s).argLane = s.argLane := rfl
@[simp] theorem accept_argElem (w : Word) (s : State) : (accept w s).argElem = s.argElem := rfl
@[simp] theorem accept_done (w : Word) (s : State) : (accept w s).done = false := rfl
@[simp] theorem accept_overrun (w : Word) (s : State) : (accept w s).overrun = s.overrun := rfl
@[simp] theorem accept_code (w : Word) (s : State) : (accept w s).code = .none := rfl
@[simp] theorem accept_result (w : Word) (s : State) : (accept w s).result = 0 := rfl
@[simp] theorem accept_failWhere (w : Word) (s : State) : (accept w s).failWhere = FailWhere.zero := rfl
@[simp] theorem accept_failAddr (w : Word) (s : State) : (accept w s).failAddr = 0 := rfl
@[simp] theorem accept_failExp (w : Word) (s : State) : (accept w s).failExp = 0 := rfl
@[simp] theorem accept_failObs (w : Word) (s : State) : (accept w s).failObs = 0 := rfl
@[simp] theorem accept_txnCount (w : Word) (s : State) : (accept w s).txnCount = 0 := rfl
@[simp] theorem accept_mode (w : Word) (s : State) : (accept w s).mode = .busy := rfl
@[simp] theorem accept_latched (w : Word) (s : State) :
    (accept w s).latched =
      { opc := opcOf w, wordOk := wordOkOf w, addr := s.argAddr, data := s.argData, size := s.argSize,
        step := s.argStep, lane := s.argLane, elem := s.argElem } := rfl
@[simp] theorem accept_pos (w : Word) (s : State) : (accept w s).pos = Pos.start := rfl
@[simp] theorem accept_rmw (w : Word) (s : State) : (accept w s).rmw = s.rmw := rfl
@[simp] theorem accept_inFlight (w : Word) (s : State) : (accept w s).inFlight = s.inFlight := rfl
@[simp] theorem accept_dispatched (w : Word) (s : State) : (accept w s).dispatched = false := rfl
@[simp] theorem accept_history (w : Word) (s : State) : (accept w s).history = s.history := rfl
@[simp] theorem accept_inputs (w : Word) (s : State) : (accept w s).inputs = s.inputs := rfl
@[simp] theorem accept_hostData (w : Word) (s : State) : (accept w s).hostData = s.hostData := rfl

@[simp] theorem terminate_argAddr (c : Code) (info : Info) (s : State) : (terminate c info s).argAddr = s.argAddr := rfl
@[simp] theorem terminate_argData (c : Code) (info : Info) (s : State) : (terminate c info s).argData = s.argData := rfl
@[simp] theorem terminate_argSize (c : Code) (info : Info) (s : State) : (terminate c info s).argSize = s.argSize := rfl
@[simp] theorem terminate_argStep (c : Code) (info : Info) (s : State) : (terminate c info s).argStep = s.argStep := rfl
@[simp] theorem terminate_argLane (c : Code) (info : Info) (s : State) : (terminate c info s).argLane = s.argLane := rfl
@[simp] theorem terminate_argElem (c : Code) (info : Info) (s : State) : (terminate c info s).argElem = s.argElem := rfl
@[simp] theorem terminate_done (c : Code) (info : Info) (s : State) : (terminate c info s).done = true := rfl
@[simp] theorem terminate_overrun (c : Code) (info : Info) (s : State) : (terminate c info s).overrun = s.overrun := rfl
@[simp] theorem terminate_code (c : Code) (info : Info) (s : State) : (terminate c info s).code = c := rfl
@[simp] theorem terminate_result (c : Code) (info : Info) (s : State) :
    (terminate c info s).result =
      if c = .pass && (s.latched.opc = opcDread || s.latched.opc = opcDstatus) then info.result else 0 := rfl
@[simp] theorem terminate_failWhere (c : Code) (info : Info) (s : State) :
    (terminate c info s).failWhere =
      failWhereOf c info s := rfl
@[simp] theorem terminate_failAddr (c : Code) (info : Info) (s : State) :
    (terminate c info s).failAddr =
      if recordsFailure c then info.addr else 0 := rfl
@[simp] theorem terminate_failExp (c : Code) (info : Info) (s : State) :
    (terminate c info s).failExp =
      if recordsFailure c then info.exp else 0 := rfl
@[simp] theorem terminate_failObs (c : Code) (info : Info) (s : State) :
    (terminate c info s).failObs =
      if c = .fail then info.obs else 0 := rfl
@[simp] theorem terminate_txnCount (c : Code) (info : Info) (s : State) :
    (terminate c info s).txnCount =
      s.txnCount := rfl
@[simp] theorem terminate_mode (c : Code) (info : Info) (s : State) :
    (terminate c info s).mode =
      if c = .transportError then .halted else .idle := rfl
@[simp] theorem terminate_latched (c : Code) (info : Info) (s : State) : (terminate c info s).latched = s.latched := rfl
@[simp] theorem terminate_pos (c : Code) (info : Info) (s : State) : (terminate c info s).pos = s.pos := rfl
@[simp] theorem terminate_rmw (c : Code) (info : Info) (s : State) : (terminate c info s).rmw = s.rmw := rfl
@[simp] theorem terminate_inFlight (c : Code) (info : Info) (s : State) :
    (terminate c info s).inFlight =
      s.inFlight := rfl
@[simp] theorem terminate_dispatched (c : Code) (info : Info) (s : State) :
    (terminate c info s).dispatched =
      s.dispatched := rfl
@[simp] theorem terminate_history (c : Code) (info : Info) (s : State) : (terminate c info s).history = s.history := rfl
@[simp] theorem terminate_inputs (c : Code) (info : Info) (s : State) : (terminate c info s).inputs = s.inputs := rfl
@[simp] theorem terminate_hostData (c : Code) (info : Info) (s : State) :
    (terminate c info s).hostData =
      s.hostData := rfl

@[simp] theorem moveTo_argAddr (p : Pos) (s : State) : (moveTo p s).argAddr = s.argAddr := rfl
@[simp] theorem moveTo_argData (p : Pos) (s : State) : (moveTo p s).argData = s.argData := rfl
@[simp] theorem moveTo_argSize (p : Pos) (s : State) : (moveTo p s).argSize = s.argSize := rfl
@[simp] theorem moveTo_argStep (p : Pos) (s : State) : (moveTo p s).argStep = s.argStep := rfl
@[simp] theorem moveTo_argLane (p : Pos) (s : State) : (moveTo p s).argLane = s.argLane := rfl
@[simp] theorem moveTo_argElem (p : Pos) (s : State) : (moveTo p s).argElem = s.argElem := rfl
@[simp] theorem moveTo_done (p : Pos) (s : State) : (moveTo p s).done = s.done := rfl
@[simp] theorem moveTo_overrun (p : Pos) (s : State) : (moveTo p s).overrun = s.overrun := rfl
@[simp] theorem moveTo_code (p : Pos) (s : State) : (moveTo p s).code = s.code := rfl
@[simp] theorem moveTo_result (p : Pos) (s : State) : (moveTo p s).result = s.result := rfl
@[simp] theorem moveTo_failWhere (p : Pos) (s : State) : (moveTo p s).failWhere = s.failWhere := rfl
@[simp] theorem moveTo_failAddr (p : Pos) (s : State) : (moveTo p s).failAddr = s.failAddr := rfl
@[simp] theorem moveTo_failExp (p : Pos) (s : State) : (moveTo p s).failExp = s.failExp := rfl
@[simp] theorem moveTo_failObs (p : Pos) (s : State) : (moveTo p s).failObs = s.failObs := rfl
@[simp] theorem moveTo_txnCount (p : Pos) (s : State) : (moveTo p s).txnCount = s.txnCount := rfl
@[simp] theorem moveTo_mode (p : Pos) (s : State) : (moveTo p s).mode = s.mode := rfl
@[simp] theorem moveTo_latched (p : Pos) (s : State) : (moveTo p s).latched = s.latched := rfl
@[simp] theorem moveTo_pos (p : Pos) (s : State) : (moveTo p s).pos = p := rfl
@[simp] theorem moveTo_rmw (p : Pos) (s : State) : (moveTo p s).rmw = s.rmw := rfl
@[simp] theorem moveTo_inFlight (p : Pos) (s : State) : (moveTo p s).inFlight = s.inFlight := rfl
@[simp] theorem moveTo_dispatched (p : Pos) (s : State) : (moveTo p s).dispatched = s.dispatched := rfl
@[simp] theorem moveTo_history (p : Pos) (s : State) : (moveTo p s).history = s.history := rfl
@[simp] theorem moveTo_inputs (p : Pos) (s : State) : (moveTo p s).inputs = s.inputs := rfl
@[simp] theorem moveTo_hostData (p : Pos) (s : State) : (moveTo p s).hostData = s.hostData := rfl

@[simp] theorem markDispatched_argAddr (s : State) : (markDispatched s).argAddr = s.argAddr := rfl
@[simp] theorem markDispatched_argData (s : State) : (markDispatched s).argData = s.argData := rfl
@[simp] theorem markDispatched_argSize (s : State) : (markDispatched s).argSize = s.argSize := rfl
@[simp] theorem markDispatched_argStep (s : State) : (markDispatched s).argStep = s.argStep := rfl
@[simp] theorem markDispatched_argLane (s : State) : (markDispatched s).argLane = s.argLane := rfl
@[simp] theorem markDispatched_argElem (s : State) : (markDispatched s).argElem = s.argElem := rfl
@[simp] theorem markDispatched_done (s : State) : (markDispatched s).done = s.done := rfl
@[simp] theorem markDispatched_overrun (s : State) : (markDispatched s).overrun = s.overrun := rfl
@[simp] theorem markDispatched_code (s : State) : (markDispatched s).code = s.code := rfl
@[simp] theorem markDispatched_result (s : State) : (markDispatched s).result = s.result := rfl
@[simp] theorem markDispatched_failWhere (s : State) : (markDispatched s).failWhere = s.failWhere := rfl
@[simp] theorem markDispatched_failAddr (s : State) : (markDispatched s).failAddr = s.failAddr := rfl
@[simp] theorem markDispatched_failExp (s : State) : (markDispatched s).failExp = s.failExp := rfl
@[simp] theorem markDispatched_failObs (s : State) : (markDispatched s).failObs = s.failObs := rfl
@[simp] theorem markDispatched_txnCount (s : State) : (markDispatched s).txnCount = s.txnCount := rfl
@[simp] theorem markDispatched_mode (s : State) : (markDispatched s).mode = s.mode := rfl
@[simp] theorem markDispatched_latched (s : State) : (markDispatched s).latched = s.latched := rfl
@[simp] theorem markDispatched_pos (s : State) : (markDispatched s).pos = s.pos := rfl
@[simp] theorem markDispatched_rmw (s : State) : (markDispatched s).rmw = s.rmw := rfl
@[simp] theorem markDispatched_inFlight (s : State) : (markDispatched s).inFlight = s.inFlight := rfl
@[simp] theorem markDispatched_dispatched (s : State) : (markDispatched s).dispatched = true := rfl
@[simp] theorem markDispatched_history (s : State) : (markDispatched s).history = s.history := rfl
@[simp] theorem markDispatched_inputs (s : State) : (markDispatched s).inputs = s.inputs := rfl
@[simp] theorem markDispatched_hostData (s : State) : (markDispatched s).hostData = s.hostData := rfl

@[simp] theorem countExchange_argAddr (tx : Frame) (s : State) : (countExchange tx s).argAddr = s.argAddr := rfl
@[simp] theorem countExchange_argData (tx : Frame) (s : State) : (countExchange tx s).argData = s.argData := rfl
@[simp] theorem countExchange_argSize (tx : Frame) (s : State) : (countExchange tx s).argSize = s.argSize := rfl
@[simp] theorem countExchange_argStep (tx : Frame) (s : State) : (countExchange tx s).argStep = s.argStep := rfl
@[simp] theorem countExchange_argLane (tx : Frame) (s : State) : (countExchange tx s).argLane = s.argLane := rfl
@[simp] theorem countExchange_argElem (tx : Frame) (s : State) : (countExchange tx s).argElem = s.argElem := rfl
@[simp] theorem countExchange_done (tx : Frame) (s : State) : (countExchange tx s).done = s.done := rfl
@[simp] theorem countExchange_overrun (tx : Frame) (s : State) : (countExchange tx s).overrun = s.overrun := rfl
@[simp] theorem countExchange_code (tx : Frame) (s : State) : (countExchange tx s).code = s.code := rfl
@[simp] theorem countExchange_result (tx : Frame) (s : State) : (countExchange tx s).result = s.result := rfl
@[simp] theorem countExchange_failWhere (tx : Frame) (s : State) : (countExchange tx s).failWhere = s.failWhere := rfl
@[simp] theorem countExchange_failAddr (tx : Frame) (s : State) : (countExchange tx s).failAddr = s.failAddr := rfl
@[simp] theorem countExchange_failExp (tx : Frame) (s : State) : (countExchange tx s).failExp = s.failExp := rfl
@[simp] theorem countExchange_failObs (tx : Frame) (s : State) : (countExchange tx s).failObs = s.failObs := rfl
@[simp] theorem countExchange_txnCount (tx : Frame) (s : State) : (countExchange tx s).txnCount = s.txnCount + 1 := rfl
@[simp] theorem countExchange_mode (tx : Frame) (s : State) : (countExchange tx s).mode = s.mode := rfl
@[simp] theorem countExchange_latched (tx : Frame) (s : State) : (countExchange tx s).latched = s.latched := rfl
@[simp] theorem countExchange_pos (tx : Frame) (s : State) : (countExchange tx s).pos = s.pos := rfl
@[simp] theorem countExchange_rmw (tx : Frame) (s : State) : (countExchange tx s).rmw = s.rmw := rfl
@[simp] theorem countExchange_inFlight (tx : Frame) (s : State) : (countExchange tx s).inFlight = s.inFlight := rfl
@[simp] theorem countExchange_dispatched (tx : Frame) (s : State) :
    (countExchange tx s).dispatched =
      s.dispatched := rfl
@[simp] theorem countExchange_history (tx : Frame) (s : State) :
    (countExchange tx s).history =
      .exchanged tx :: s.history := rfl
@[simp] theorem countExchange_inputs (tx : Frame) (s : State) : (countExchange tx s).inputs = s.inputs := rfl
@[simp] theorem countExchange_hostData (tx : Frame) (s : State) : (countExchange tx s).hostData = s.hostData := rfl

end Sys2Proof.Machine
end

