-- ==== Sys2Proof/Laws/Ops.lean ====
section
/-!
SUPPORT. One lemma for each shared operation, which says everything it can do: the exchange, the range checks, the advance of
the position, the computation after a frame, and what the sequencer issues.
-/

namespace Sys2Proof.Machine

/-- The exchange of a frame: no answer, a transport failure, or one counted exchange and the last byte (R123, R124). -/
theorem exchangeThen_eq (d : Device) (i : Instr) (tx : Frame) (after : Byte → State → State) (s : State) :
    exchangeThen d i tx after s =
      byOutcome (exchange d s.history tx) tx s (fun r => after r (countExchange tx s)) (transportError i tx s) := by
  unfold exchangeThen byOutcome
  cases exchange d s.history tx <;> rfl

theorem exchangeThen_cases (d : Device) (i : Instr) (tx : Frame) (after : Byte → State → State) (s : State) :
    exchangeThen d i tx after s = { s with inFlight := some tx } ∨
    exchangeThen d i tx after s = transportError i tx s ∨
    ∃ r, exchangeThen d i tx after s = after r (countExchange tx s) := by
  rw [exchangeThen_eq]
  unfold byOutcome
  split
  · exact .inl rfl
  · exact .inr (.inl rfl)
  · split
    · exact .inr (.inr ⟨_, rfl⟩)
    · exact .inr (.inl rfl)

/-- A READ either raises RangeError before anything is sent or is one exchange (R125). -/
theorem busRead_cases (d : Device) (a : Word) (s : State) :
    (0xFFFF < a.toNat ∧ busRead d a s = rangeError (.read a) .addr s) ∨
    (a.toNat ≤ 0xFFFF ∧ busRead d a s = exchangeThen d (.read a) (readFrame a) afterRead s) := by
  by_cases h : a.toNat ≤ 0xFFFF
  · exact .inr ⟨h, by simp only [busRead, encRead_ok h]; rfl⟩
  · exact .inl ⟨not_le.mp h, by simp only [busRead, encRead_error (not_le.mp h)]⟩

/-- A WRITE either raises RangeError, for the address first, or is one exchange (R126). -/
theorem busWrite_cases (d : Device) (a v : Word) (s : State) :
    (0xFFFF < a.toNat ∧ busWrite d a v s = rangeError (.write a v) .addr s) ∨
    (a.toNat ≤ 0xFFFF ∧ 0xFF < v.toNat ∧ busWrite d a v s = rangeError (.write a v) .value s) ∨
    (a.toNat ≤ 0xFFFF ∧ v.toNat ≤ 0xFF ∧
      busWrite d a v s = exchangeThen d (.write a v) (writeFrame a v) (fun _ => afterWrite) s) := by
  by_cases h : a.toNat ≤ 0xFFFF
  · by_cases hv : v.toNat ≤ 0xFF
    · exact .inr (.inr ⟨h, hv, by simp only [busWrite, encWrite_ok h hv]; rfl⟩)
    · exact .inr (.inl ⟨h, not_le.mp hv, by simp only [busWrite, encWrite_value_error h (not_le.mp hv)]⟩)
  · exact .inl ⟨not_le.mp h, by simp only [busWrite, encWrite_addr_error v (not_le.mp h)]⟩

/-- Entering phases moves the position or ends PASS; nothing else. -/
theorem enterPhases_cases (ps : List Phase) (s : State) :
    enterPhases ps s = finish s ∨ ∃ p, enterPhases ps s = moveTo p s := by
  induction ps with
  | nil => exact .inl rfl
  | cons p ps ih =>
    unfold enterPhases
    split
    · exact ih
    · exact .inr ⟨_, rfl⟩

/-- The advance moves the position or ends PASS; nothing else. -/
theorem frameDone_cases (s : State) : frameDone s = finish s ∨ ∃ p, frameDone s = moveTo p s := by
  have address : addressDone s = finish s ∨ ∃ p, addressDone s = moveTo p s := by
    unfold addressDone
    split
    · exact .inr ⟨_, rfl⟩
    · exact enterPhases_cases _ s
  have element : elementDone s = finish s ∨ ∃ p, elementDone s = moveTo p s := by
    unfold elementDone
    split
    · exact .inl rfl
    · split
      · exact .inr ⟨_, rfl⟩
      · exact address
  unfold frameDone
  split
  · exact .inl rfl
  all_goals first | exact address | skip
  all_goals
    split
    · unfold elementFrameDone
      split
      · exact .inr ⟨_, rfl⟩
      · exact element
    · exact .inr ⟨s.pos, rfl⟩

/-- After a READ: a direct command's result, a mismatch, or the advance, with the byte latched into rmw past FIDX 0 of a
lane element and only there. -/
theorem afterRead_cases (r : Byte) (s : State) :
    (s.pos.phase = .none ∧ afterRead r s = finishWith r s) ∨ (∃ x, afterRead r s = verifyFail x r s) ∨
    afterRead r s = frameDone s ∨
    (lanePhase s.pos.phase = true ∧ s.pos.fidx ≠ 0 ∧ afterRead r s = frameDone { s with rmw := r }) := by
  cases h : s.pos.phase <;> simp only [afterRead, h, elementOf, afterElementRead, lanePhase]
  all_goals first
    | (exact .inl ⟨trivial, trivial⟩)
    | (exact .inr (.inr (.inl trivial)))
    | (split
       · first
         | (split
            · exact .inr (.inr (.inl rfl))
            · exact .inr (.inl ⟨_, rfl⟩))
         | exact .inr (.inr (.inl rfl))
       · first
         | (rename_i hf; exact .inr (.inr (.inr ⟨trivial, hf, rfl⟩)))
         | exact .inr (.inl ⟨_, rfl⟩))

/-- `issue` answers a next state exactly for the instruction the sequencer issues. -/
theorem issue_eq_next_iff {i : Instr} {s t u : State} : issue i s t = .next u ↔ issues s = some i ∧ t = u := by
  unfold issue
  split
  · rename_i h
    exact ⟨fun e => ⟨h, by injection e⟩, fun e => by rw [e.2]⟩
  · rename_i h
    exact ⟨fun e => by injection e, fun e => absurd e.1 h⟩

theorem issue_eq_next {i : Instr} {s : State} (t : State) (h : issues s = some i) : issue i s t = .next t :=
  issue_eq_next_iff.mpr ⟨h, rfl⟩

/-- `exec` is the effect of the instruction, when the sequencer issues it. -/
theorem exec_eq_issue (i : Instr) (s : State) : exec i s = issue i s (effectOn Config.device i s) := by
  cases i <;> rfl

theorem running_iff (s : State) : running s = true ↔ s.mode = .busy ∧ s.inFlight = none := by
  simp [running]

theorem issues_atDispatch {opc : BitVec 4} {s : State} (h : AtDispatch opc s) {i : Instr} (hi : decodeOpc opc = .ok i) :
    issues s = some i := by
  have hr : running s = true := (running_iff s).mpr ⟨h.busy, h.portFree⟩
  simp [issues, hr, h.accepted, decodeLatched, h.wordOk, h.opcode, hi]

theorem issues_atFrame {opc : BitVec 4} {p : Pos} {s : State} (h : AtFrame opc p s) :
    issues s = frameAt s.latched p s.rmw := by
  have hr : running s = true := (running_iff s).mpr ⟨h.busy, h.portFree⟩
  simp [issues, hr, h.dispatched, h.position]

/-- Whatever the sequencer issues, it is running: BUSY, with the bus port free. -/
theorem running_of_issues {s : State} {i : Instr} (h : issues s = some i) : s.mode = .busy ∧ s.inFlight = none := by
  rw [← running_iff]
  by_contra hr
  simp [issues, hr] at h

end Sys2Proof.Machine
end

