-- ==== Sys2Proof/Laws/Effects.lean ====
section
/-!
SUPPORT. Everything an instruction's effect can be, said once for the seven commands and once for the three frames: later proofs
cite these and unfold no meaning.
-/

namespace Sys2Proof.Machine

/-- An instruction that the sequencer issues has its effect. -/
theorem exec_issued {i : Instr} {s : State} (h : issues s = some i) : exec i s = .next (effectOn Config.device i s) := by
  rw [exec_eq_issue, issue_eq_next _ h]

/-- The effect on any device, for an instruction that the sequencer issues. -/
theorem execOn_issued (d : Device) {i : Instr} {s : State} (h : issues s = some i) :
    execOn d i s = .next (effectOn d i s) := issue_eq_next _ h

/-- What `exec` answers next is the effect of the instruction, which the sequencer issued. -/
theorem exec_next {i : Instr} {s t : State} (h : exec i s = .next t) :
    issues s = some i ∧ t = effectOn Config.device i s := by
  rw [exec_eq_issue, issue_eq_next_iff] at h
  exact ⟨h.1, h.2.symm⟩

/-- A READ in range, by the outcome of its exchange (R125). -/
theorem busRead_inRange (d : Device) {a : Word} (s : State) (ha : a.toNat ≤ 0xFFFF) :
    busRead d a s =
      byOutcome (exchange d s.history (readFrame a)) (readFrame a) s
        (fun r => afterRead r (counted (readFrame a) s)) (transportError (.read a) (readFrame a) s) := by
  rcases busRead_cases d a s with ⟨h, _⟩ | ⟨_, h⟩
  · omega
  · rw [h, exchangeThen_eq]
    rfl

/-- A WRITE in range, by the outcome of its exchange (R126). -/
theorem busWrite_inRange (d : Device) {a v : Word} (s : State) (ha : a.toNat ≤ 0xFFFF) (hv : v.toNat ≤ 0xFF) :
    busWrite d a v s =
      byOutcome (exchange d s.history (writeFrame a v)) (writeFrame a v) s
        (fun _ => afterWrite (counted (writeFrame a v) s)) (transportError (.write a v) (writeFrame a v) s) := by
  rcases busWrite_cases d a v s with ⟨h, _⟩ | ⟨_, h, _⟩ | ⟨_, _, h⟩
  · omega
  · omega
  · rw [h, exchangeThen_eq]
    rfl

/-- The checkerboard pattern over numbers (R185). -/
theorem pat_eq (step a : Word) : pat step a = if (a.toNat % 2 = 0 ↔ step.toNat = 1) then 0xAA else 0x55 := by
  have h1 : (a % 2 = 0) = (a.toNat % 2 = 0) := by rw [← BitVec.toNat_inj]; simp
  have h2 : (step = 1) = (step.toNat = 1) := by rw [← BitVec.toNat_inj]; simp
  simp only [pat, h1, h2, decide_eq_decide]

/-- After the byte came back: a termination or a move, from s or s with rmw latched. -/
theorem afterRead_form (r : Byte) (s : State) :
    ∃ s1, (s1 = s ∨ (lanePhase s.pos.phase = true ∧ s.pos.fidx ≠ 0 ∧ s1 = { s with rmw := r })) ∧
      ((∃ p, afterRead r s = moveTo p s1) ∨
        ∃ c info, c ≠ .none ∧ c ≠ .transportError ∧ c ≠ .rangeError ∧ afterRead r s = terminate c info s1) := by
  rcases afterRead_cases r s with ⟨_, h⟩ | ⟨x, h⟩ | h | ⟨hl, hf, h⟩ <;> rw [h]
  · exact ⟨s, .inl rfl, .inr ⟨_, _, by decide, by decide, by decide, rfl⟩⟩
  · exact ⟨s, .inl rfl, .inr ⟨_, _, by decide, by decide, by decide, rfl⟩⟩
  · rcases frameDone_cases s with h' | ⟨p, h'⟩ <;> rw [h']
    · exact ⟨s, .inl rfl, .inr ⟨_, _, by decide, by decide, by decide, rfl⟩⟩
    · exact ⟨s, .inl rfl, .inl ⟨_, rfl⟩⟩
  · rcases frameDone_cases { s with rmw := r } with h' | ⟨p, h'⟩ <;> rw [h']
    · exact ⟨_, .inr ⟨hl, hf, rfl⟩, .inr ⟨_, _, by decide, by decide, by decide, rfl⟩⟩
    · exact ⟨_, .inr ⟨hl, hf, rfl⟩, .inl ⟨_, rfl⟩⟩

/-- A command's dispatch: a first position, or a termination; never a frame. -/
theorem start_form (i : Instr) (d : Device) (s : State) (h : i.isFrame = false) :
    (∃ p, effectOn d i s = moveTo p (markDispatched s)) ∨
      ∃ c info, c ≠ .none ∧ c ≠ .transportError ∧ effectOn d i s = terminate c info (markDispatched s) := by
  cases i <;> simp [Instr.isFrame] at h <;> simp only [effectOn]
  · exact .inl ⟨_, rfl⟩
  · exact .inl ⟨_, rfl⟩
  · exact .inl ⟨_, rfl⟩
  · unfold startChecker; split
    · rcases enterPhases_cases checkerPhases (markDispatched s) with h | ⟨p, h⟩ <;> rw [h]
      · exact .inr ⟨_, _, by decide, by decide, rfl⟩
      · exact .inl ⟨_, rfl⟩
    · exact .inr ⟨_, _, by decide, by decide, rfl⟩
  · unfold startMarchA
    rcases enterPhases_cases marchPhases (markDispatched s) with h | ⟨p, h⟩ <;> rw [h]
    · exact .inr ⟨_, _, by decide, by decide, rfl⟩
    · exact .inl ⟨_, rfl⟩
  · unfold startSequence
    rcases enterPhases_cases sequencePhases (markDispatched s) with h | ⟨p, h⟩ <;> rw [h]
    · exact .inr ⟨_, _, by decide, by decide, rfl⟩
    · exact .inl ⟨_, rfl⟩
  · unfold startMelem; split
    · exact .inl ⟨_, rfl⟩
    · exact .inr ⟨_, _, by decide, by decide, rfl⟩

/-- A frame's effect: a range error before anything is sent, no answer, a transport failure, or one counted exchange and then a
move or a termination. -/
theorem frame_form (i : Instr) (d : Device) (s : State) (h : i.isFrame = true) :
    (frameBytes i = none ∧ ∃ info, effectOn d i s = terminate .rangeError info s) ∨
    ∃ tx, frameBytes i = some tx ∧
      (effectOn d i s = { s with inFlight := some tx } ∨
       (∃ info, effectOn d i s = terminate .transportError info (lost tx s)) ∨
       ∃ s1, (s1 = counted tx s ∨
           ∃ r, (∃ a, i = .read a) ∧ lanePhase s.pos.phase = true ∧ s.pos.fidx ≠ 0 ∧
             s1 = { counted tx s with rmw := r }) ∧
         ((∃ p, effectOn d i s = moveTo p s1) ∨
           ∃ c info, c ≠ .none ∧ c ≠ .transportError ∧ c ≠ .rangeError ∧ effectOn d i s = terminate c info s1)) := by
  cases i with
  | read a =>
    simp only [effectOn]
    rcases busRead_cases d a s with ⟨ha, e⟩ | ⟨ha, e⟩
    · left; exact ⟨by simp [frameBytes, encode, encRead_error ha, Except.map], _, e⟩
    · right; refine ⟨_, frameBytes_read ha, ?_⟩
      rw [e]
      rcases exchangeThen_cases d (.read a) (readFrame a) afterRead s with h | h | ⟨r, h⟩ <;> rw [h]
      · exact .inl rfl
      · exact .inr (.inl ⟨_, rfl⟩)
      · right; right
        obtain ⟨s1, hs, hf⟩ := afterRead_form r (countExchange (readFrame a) s)
        refine ⟨s1, ?_, hf⟩
        rcases hs with hs | ⟨h1, h2, h3⟩
        · exact .inl hs
        · exact .inr ⟨r, ⟨_, rfl⟩, h1, h2, h3⟩
  | write a v =>
    simp only [effectOn]
    rcases busWrite_cases d a v s with ⟨ha, e⟩ | ⟨ha, hv, e⟩ | ⟨ha, hv, e⟩
    · left; exact ⟨by simp [frameBytes, encode, encWrite_addr_error v ha, Except.map], _, e⟩
    · left; exact ⟨by simp [frameBytes, encode, encWrite_value_error ha hv, Except.map], _, e⟩
    · right; refine ⟨_, frameBytes_write ha hv, ?_⟩
      rw [e]
      rcases exchangeThen_cases d (.write a v) (writeFrame a v) (fun _ => afterWrite) s with h | h | ⟨r, h⟩ <;> rw [h]
      · exact .inl rfl
      · exact .inr (.inl ⟨_, rfl⟩)
      · right; right
        refine ⟨_, .inl rfl, ?_⟩
        unfold afterWrite
        rcases frameDone_cases (countExchange (writeFrame a v) s) with h' | ⟨p, h'⟩ <;> rw [h']
        · exact .inr ⟨_, _, by decide, by decide, by decide, rfl⟩
        · exact .inl ⟨_, rfl⟩
  | readStatus =>
    right; refine ⟨_, rfl, ?_⟩
    simp only [effectOn, busStatus]
    rcases exchangeThen_cases d .readStatus encStatus finishWith s with h | h | ⟨r, h⟩ <;> rw [h]
    · exact .inl rfl
    · exact .inr (.inl ⟨_, rfl⟩)
    · right; right
      exact ⟨_, .inl rfl, .inr ⟨_, _, by decide, by decide, by decide, rfl⟩⟩
  | _ => simp [Instr.isFrame] at h

/-- No instruction changes the host's operand registers, the latched set or OVERRUN (R24, R33, R226). -/
theorem effect_operands (d : Device) (i : Instr) (s : State) : SameOperands s (effectOn d i s) := by
  cases hf : i.isFrame
  · rcases start_form i d s hf with ⟨p, h⟩ | ⟨c, info, _, _, h⟩ <;> rw [h] <;> simp [SameOperands]
  · rcases frame_form i d s hf with ⟨_, info, h⟩ | ⟨tx, _, h | ⟨info, h⟩ | ⟨s1, hs, h⟩⟩
    · rw [h]; simp [SameOperands]
    · rw [h]; simp [SameOperands]
    · rw [h]; simp [SameOperands, lost]
    · have : SameOperands s s1 := by
        rcases hs with rfl | ⟨r, _, _, _, rfl⟩ <;> simp [SameOperands, counted]
      rcases h with ⟨p, h⟩ | ⟨c, info, _, _, _, h⟩ <;> rw [h] <;> simpa [SameOperands] using this

end Sys2Proof.Machine
end

