-- ==== Sys2Proof/Laws/IdealMemory.lean ====
section
/-!
SUPPORT. The contents of an ideal device, event by event.
-/

namespace Sys2Proof.Machine

@[simp] theorem cellAfter_nil (start : Word → Byte) (a : Word) : cellAfter start [] a = start a := rfl

@[simp] theorem cellAfter_failed (start : Word → Byte) (tx : Frame) (h : History) (a : Word) :
    cellAfter start (.failed tx :: h) a = cellAfter start h a := rfl

@[simp] theorem cellAfter_cut (start : Word → Byte) (tx : Frame) (h : History) (a : Word) :
    cellAfter start (.cut tx :: h) a = cellAfter start h a := rfl

theorem cellAfter_write (start : Word → Byte) {b v : Word} (hb : b.toNat ≤ 0xFFFF) (hv : v.toNat ≤ 0xFF)
    (h : History) (a : Word) :
    cellAfter start (.exchanged (writeFrame b v) :: h) a =
      if b = a then v.extractLsb' 0 8 else cellAfter start h a := by
  have hd : decodeFrame (writeFrame b v) = .ok (.write b v) := decodeFrame_write hb hv
  rw [cellAfter]
  simp only [hd]

theorem cellAfter_read (start : Word → Byte) {b : Word} (hb : b.toNat ≤ 0xFFFF) (h : History) (a : Word) :
    cellAfter start (.exchanged (readFrame b) :: h) a = cellAfter start h a := by
  have hd : decodeFrame (readFrame b) = .ok (.read b) := decodeFrame_read hb
  rw [cellAfter]
  simp only [hd]

@[simp] theorem cellAfter_status (start : Word → Byte) (h : History) (a : Word) :
    cellAfter start (.exchanged statusFrame :: h) a = cellAfter start h a := rfl

end Sys2Proof.Machine
end

