-- ==== Sys2Proof/Laws/PerInstr.lean ====
section
/-!
SUPPORT. Families of statements made for every instruction as syntax, one lemma per constructor.
-/

namespace Sys2Proof.Laws.EncodedForm

/-- What the encoder gives an instruction: a frame of two to five bytes that ends in the dummy (R94, R96), a command word without
reserved bits (R98), or a RangeError for operands that do not fit (R120, R121). -/
def Statement (i : Instr) : Prop :=
  match encode i with
  | .ok (.frame bytes) =>
    i.isFrame = true ∧ i.wellFormed = true ∧ 2 ≤ bytes.length ∧ bytes.length ≤ 5 ∧ bytes.getLast? = some 0x00
  | .ok (.command w) => i.isFrame = false ∧ i.wellFormed = true ∧ wordOkOf w = true
  | .error _ => i.wellFormed = false

theorem read (a : Word) : Statement (.read a) := by
  by_cases h : a.toNat ≤ 0xFFFF
  · have hw : (Instr.read a).wellFormed = true := (addrFits_iff a).mpr h
    simp [Statement, encode, encRead_ok h, Except.map, Instr.isFrame, hw]
  · have hw : (Instr.read a).wellFormed = false := Bool.eq_false_iff.mpr fun e => h ((addrFits_iff a).mp e)
    simp [Statement, encode, encRead_error (not_le.mp h), Except.map, hw]

theorem write (a v : Word) : Statement (.write a v) := by
  have hw : (Instr.write a v).wellFormed = true ↔ a.toNat ≤ 0xFFFF ∧ v.toNat ≤ 0xFF := by
    simp [Instr.wellFormed, addrFits_iff, valueFits_iff]
  by_cases h : a.toNat ≤ 0xFFFF
  · by_cases hv : v.toNat ≤ 0xFF
    · simp [Statement, encode, encWrite_ok h hv, Except.map, Instr.isFrame, hw.mpr ⟨h, hv⟩]
    · have hf : (Instr.write a v).wellFormed = false := Bool.eq_false_iff.mpr fun e => hv (hw.mp e).2
      simp [Statement, encode, encWrite_value_error h (not_le.mp hv), Except.map, hf]
  · have hf : (Instr.write a v).wellFormed = false := Bool.eq_false_iff.mpr fun e => h (hw.mp e).1
    simp [Statement, encode, encWrite_addr_error v (not_le.mp h), Except.map, hf]

theorem readStatus : Statement .readStatus :=
  ⟨rfl, rfl, Nat.le_refl 2, by decide, rfl⟩

theorem dread : Statement .dread := ⟨rfl, rfl, rfl⟩

theorem dwrite : Statement .dwrite := ⟨rfl, rfl, rfl⟩

theorem dstatus : Statement .dstatus := ⟨rfl, rfl, rfl⟩

theorem checker : Statement .checker := ⟨rfl, rfl, rfl⟩

theorem marchA : Statement .marchA := ⟨rfl, rfl, rfl⟩

theorem sequence : Statement .sequence := ⟨rfl, rfl, rfl⟩

theorem melem : Statement .melem := ⟨rfl, rfl, rfl⟩

end Sys2Proof.Laws.EncodedForm
end

