-- ==== Sys2Proof/Laws/Reaches.lean ====
section
/-!
SUPPORT. The positions of a command: the advance stays on the positions the rules reach, and the frame at one has its operands.
-/

namespace Sys2Proof.Machine

/-- The next address of an upward sweep does not wrap (R180). -/
theorem toNat_add_one {a : Word} {n : Nat} (h : a.toNat + 1 < n) (hn : n ≤ 2^32) : (a + 1).toNat = a.toNat + 1 := by
  simp [BitVec.toNat_add]; omega

/-- The advance from a reached position, after a frame that was in range, is the end of the command or a reached position
(R197). -/
theorem frameDone_reaches (s : State) (ha : s.pos.a.toNat ≤ 0xFFFF) (hr : Reaches s.latched s.pos)
    (hd : s.pos.phase = .sqWrite → s.latched.data.toNat ≤ 0xFF) :
    frameDone s = finish s ∨ ∃ p, Reaches s.latched p ∧ frameDone s = moveTo p s := by
  have hlt := s.latched.size.isLt
  generalize hp : s.pos = p at hr ha hd
  cases hr with
  | dread ho => left; simp [frameDone, hp]
  | dwrite ho => left; simp [frameDone, hp]
  | dstatus ho => left; simp [frameDone, hp]
  | cbWrite a ho hs h1 h2 =>
    simp only [frameDone, addressDone, hp, nextAddress, descending]
    by_cases hl : a.toNat + 1 < s.latched.size.toNat
    · have := toNat_add_one hl (by omega)
      simp only [hl, if_true]
      exact .inr ⟨_, .cbWrite (a+1) ho hs (by omega) (by simp at ha; omega), rfl⟩
    · have : ¬ s.latched.size = 0#32 := by intro e; simp [e] at h1
      simp [hl, phasesAfter, enterPhases, firstAddress, descending, this, firstLane]
      exact .inr ⟨_, .cbVerify 0 ho hs (by simp at ha ⊢; omega) (by simp at ha; omega), rfl⟩
  | cbVerify a ho hs h1 h2 =>
    simp only [frameDone, addressDone, hp, nextAddress, descending]
    by_cases hl : a.toNat + 1 < s.latched.size.toNat
    · have := toNat_add_one hl (by omega)
      simp only [hl, if_true]
      exact .inr ⟨_, .cbVerify (a+1) ho hs (by omega) h2, rfl⟩
    · simp [hl, phasesAfter, enterPhases]
  | m0 a ho h1 h2 =>
    simp only [frameDone, addressDone, hp, nextAddress, descending]
    by_cases hl : a.toNat + 1 < s.latched.size.toNat
    · have := toNat_add_one hl (by omega)
      simp only [hl, if_true]
      exact .inr ⟨_, .m0 (a+1) ho (by omega) (by simp at ha; omega), rfl⟩
    · have : ¬ s.latched.size = 0#32 := by intro e; simp [e] at h1
      simp [hl, phasesAfter, enterPhases, firstAddress, descending, this, firstLane]
      exact .inr ⟨_, .march .m1 _ 0 0 0 ho rfl (by decide) (by simp at ha ⊢; omega) (by simp at ha; omega), rfl⟩
  | march p e a b f ho he hf h1 h2 =>
    have hz : ¬ s.latched.size = 0#32 := by intro e; simp [e] at h1
    have hs1 : (s.latched.size - 1#32).toNat = s.latched.size.toNat - 1 := by
      simp [BitVec.toNat_sub]; omega
    have key : frameDone s = elementFrameDone e s := by
      cases p <;> simp [elementOf] at he <;> subst he <;> simp [frameDone, hp, elementOf]
    rw [key]
    unfold elementFrameDone
    simp only [hp]
    split
    · rename_i hff
      have : (f + 1).toNat = f.toNat + 1 := by
        have : elementFrames e ≤ 7 := by cases p <;> simp [elementOf] at he <;> subst he <;> decide
        simp [BitVec.toNat_add]; omega
      exact .inr ⟨_, .march p e a b (f+1) ho he (by omega) h1 h2, rfl⟩
    · unfold elementDone
      simp only [ho, opcMelem, hp]
      rw [if_neg (by decide)]
      split
      · rename_i b' _
        exact .inr ⟨_, .march p e a b' 0 ho he (by unfold elementFrames; simp) h1 h2, rfl⟩
      · unfold addressDone
        simp only [hp]
        split
        · rename_i a' hna
          have : a'.toNat < s.latched.size.toNat := by
            unfold nextAddress at hna
            split at hna
            · split at hna
              · cases hna
              · rename_i hne; injection hna with e; subst e
                have : (a - 1).toNat = a.toNat - 1 := by
                  have : a.toNat ≠ 0 := fun e => hne (BitVec.eq_of_toNat_eq e)
                  simp [BitVec.toNat_sub]; omega
                omega
            · split at hna
              · rename_i hlt'; injection hna with e; subst e; rw [toNat_add_one hlt' (by omega)]; omega
              · cases hna
          exact .inr ⟨_, .march p e a' _ 0 ho he (by unfold elementFrames; simp) this h2, rfl⟩
        · cases p <;> simp [elementOf] at he <;>
            simp [phasesAfter, enterPhases, firstAddress, hz, descending, firstLane]
          · exact .inr ⟨_, .march .m2 _ 0 0 0 ho rfl (by decide) (by simp; omega) h2, rfl⟩
          · exact .inr ⟨_, .march .m3 _ (s.latched.size - 1#32) 7 0 ho rfl (by decide) (by omega) h2, rfl⟩
          · exact .inr ⟨_, .march .m4 _ (s.latched.size - 1#32) 7 0 ho rfl (by decide) (by omega) h2, rfl⟩
  | sqWrite a ho h1 h2 h3 =>
    simp only [frameDone, addressDone, hp, nextAddress, descending]
    have hd' := hd rfl
    by_cases hl : a.toNat + 1 < s.latched.size.toNat
    · have := toNat_add_one hl (by omega)
      simp only [hl, if_true]
      exact .inr ⟨_, .sqWrite (a+1) ho (by omega) (by simp at ha; omega) (fun _ => hd'), rfl⟩
    · have : ¬ s.latched.size = 0#32 := by intro e; simp [e] at h1
      simp [hl, phasesAfter, enterPhases, firstAddress, descending, this, firstLane]
      exact .inr ⟨_, .sqVerify 0 ho (by simp at ha ⊢; omega) (by simp at ha; omega) hd', rfl⟩
  | sqVerify a ho h1 h2 h3 =>
    simp only [frameDone, addressDone, hp, nextAddress, descending]
    by_cases hl : a.toNat + 1 < s.latched.size.toNat
    · have := toNat_add_one hl (by omega)
      simp only [hl, if_true]
      exact .inr ⟨_, .sqVerify (a+1) ho (by omega) h2 h3, rfl⟩
    · simp [hl, phasesAfter, enterPhases]
  | melem p e f ho hl hp' he hf hx =>
    have key : frameDone s = elementFrameDone e s := by
      cases p <;> simp [elementOf] at he <;> subst he <;> simp [frameDone, hp, elementOf]
    rw [key]
    unfold elementFrameDone
    simp only [hp]
    split
    · rename_i hff
      have : (f + 1).toNat = f.toNat + 1 := by
        have : elementFrames e ≤ 7 := by cases p <;> simp [elementOf] at he <;> subst he <;> decide
        simp [BitVec.toNat_add]; omega
      exact .inr ⟨_, .melem p e (f+1) ho hl hp' he (by omega) (fun _ => ha), rfl⟩
    · unfold elementDone
      simp [ho, opcMelem]

/-- The frame at a reached position addresses the position's cell, and SQ_WRITE's carries the datum (R34, R195). -/
theorem frameAt_operands {l : Latched} {p : Pos} {rmw : Byte} {i : Instr} (hr : Reaches l p)
    (h : frameAt l p rmw = some i) :
    (∀ a, i = .read a → a = p.a ∧ p.phase ≠ .sqWrite) ∧
    (∀ a v, i = .write a v → a = p.a ∧ (p.phase = .sqWrite → v = l.data)) ∧
    (i = .readStatus → p.a = 0 ∧ p.phase = .none) := by
  cases hr with
  | march p e a b f ho he hf h1 h2 =>
    cases p <;> simp [elementOf] at he <;> simp [frameAt, elementOf] at h <;> split at h <;>
      (try split at h) <;> simp at h <;> subst h <;> simp
  | melem p e f ho hl hp' he hf h1 =>
    cases p <;> simp [elementOf] at he <;> simp [frameAt, elementOf] at h <;> split at h <;>
      (try split at h) <;> simp at h <;> subst h <;> simp
  | dread ho => simp [frameAt, ho, opcDread] at h; subst h; simp
  | dwrite ho => simp [frameAt, ho, opcDread, opcDwrite] at h; subst h; simp
  | dstatus ho => simp [frameAt, ho, opcDread, opcDwrite, opcDstatus] at h; subst h; simp
  | _ => simp [frameAt] at h; subst h; simp

end Sys2Proof.Machine
end

