-- ==== Sys2Proof/Laws/Turn.lean ====
section
/-!
SUPPORT. Everything one step can do, said once: the inversion of `turn` and of the sequencer's turn.
-/

namespace Sys2Proof.Machine

/-- The sequencer's turn: nothing to do, one issued instruction, or ILLEGAL_CMD at dispatch. -/
theorem sequencerTurn_next {ex : Instr → State → Outcome} {s t : State} (h : sequencerTurn ex s = .next t) :
    (running s = false ∧ t = s) ∨ (∃ i, issues s = some i ∧ ex i s = .next t) ∨
    (running s = true ∧ issues s = none ∧ s.dispatched = false ∧ t = terminate .illegalCmd Info.empty s) := by
  unfold sequencerTurn at h
  split at h
  · rename_i hr
    split at h
    · exact .inr (.inl ⟨_, ‹_›, h⟩)
    · split at h
      · cases h
      · rename_i hn hd
        exact .inr (.inr ⟨hr, hn, by simpa using hd, by injection h with h; exact h.symm⟩)
  · rename_i hr
    exact .inl ⟨by simpa using hr, by injection h with h; exact h.symm⟩

theorem hostAccess_next {o : BitVec 6} {width : AccessWidth} {t u : State} (h : hostAccess o width t = .next u) :
    width = .word ∧ aligned o = true ∧ u = t := by
  cases width <;> simp only [hostAccess] at h
  · cases h
  · cases h
  · split at h
    · rename_i ha
      injection h with h
      exact ⟨rfl, ha, h.symm⟩
    · cases h

/-- One step that ends in a state, by what came next in the input list. -/
theorem turn_next {ex : Instr → State → Outcome} {s t : State} (h : turn ex s = .next t) :
    (s.inputs = [] ∧ sequencerTurn ex s = .next t) ∨
    (∃ rest, s.inputs = .sequencer :: rest ∧ sequencerTurn ex { s with inputs := rest } = .next t) ∨
    (∃ o w rest, s.inputs = .write o .word w :: rest ∧ aligned o = true ∧ t = writeReg o w { s with inputs := rest }) ∨
    (∃ o rest, s.inputs = .read o .word :: rest ∧ aligned o = true ∧
      t = { s with inputs := rest, hostData := some (readReg o { s with inputs := rest }) }) ∨
    (∃ rest, s.inputs = .poll :: rest ∧ t = hostPoll { s with inputs := rest }) ∨
    (∃ mid rest, (s.inputs = .reset :: rest ∨ s.inputs = .resetMidFrame :: rest) ∧
      t = resetBlock mid { s with inputs := rest }) := by
  unfold turn at h
  split at h
  · exact .inl ⟨‹_›, h⟩
  · exact .inr (.inl ⟨_, ‹_›, h⟩)
  · obtain ⟨rfl, ha, rfl⟩ := hostAccess_next h
    exact .inr (.inr (.inl ⟨_, _, _, ‹_›, ha, rfl⟩))
  · obtain ⟨rfl, ha, rfl⟩ := hostAccess_next h
    exact .inr (.inr (.inr (.inl ⟨_, _, ‹_›, ha, rfl⟩)))
  · injection h with h
    exact .inr (.inr (.inr (.inr (.inl ⟨_, ‹_›, h.symm⟩))))
  · injection h with h
    exact .inr (.inr (.inr (.inr (.inr ⟨_, _, .inl ‹_›, h.symm⟩))))
  · injection h with h
    exact .inr (.inr (.inr (.inr (.inr ⟨_, _, .inr ‹_›, h.symm⟩))))

/-- The sequencer's turn on a device: the effect of what is issued. -/
theorem sequencerTurn_execOn {d : Device} {s t : State} (h : sequencerTurn (execOn d) s = .next t) :
    (running s = false ∧ t = s) ∨ (∃ i, issues s = some i ∧ t = effectOn d i s) ∨
    (running s = true ∧ issues s = none ∧ s.dispatched = false ∧ t = terminate .illegalCmd Info.empty s) := by
  rcases sequencerTurn_next h with h | ⟨i, hi, he⟩ | h
  · exact .inl h
  · exact .inr (.inl ⟨i, hi, (issue_eq_next_iff.mp he).2.symm⟩)
  · exact .inr (.inr h)

/-- The sequencer's turn of the machine. -/
theorem sequencerTurn_exec {s t : State} (h : sequencerTurn exec s = .next t) :
    (running s = false ∧ t = s) ∨ (∃ i, issues s = some i ∧ t = effectOn Config.device i s) ∨
    (running s = true ∧ issues s = none ∧ s.dispatched = false ∧ t = terminate .illegalCmd Info.empty s) := by
  have he : exec = execOn Config.device := funext fun i => funext fun s => exec_eq_issue i s
  rw [he] at h
  exact sequencerTurn_execOn h

end Sys2Proof.Machine
end

