-- ==== Sys2Proof/Tests/Slice0.lean ====
section
/-!
SUPPORT. Tests, each on one step or one word, with expected results from spec/30_encoding.md and spec/95_test_vectors.md; then, for
every statement with hypotheses, a state and operands that meet them.
-/

namespace Sys2Proof.Tests

open Sys2Proof Sys2Proof.Machine

/-! ## Helpers -/

/-- The block about to dispatch a command of this OPC with this latched set; the rest is as after reset. -/
def dispatching (opc : BitVec 4) (addr data size step lane elem : Word) : State :=
  { State.reset with
    mode := .busy
    latched :=
      { opc := opc, wordOk := true, addr := addr, data := data, size := size, step := step, lane := lane, elem := elem } }

/-- The same command dispatched and standing at position p. -/
def standing (p : Pos) (s : State) : State := { s with dispatched := true, pos := p }

/-- IdealMemory with x in every cell and status byte 0x02. -/
def cells (x : Byte) : Device := idealMemory (fun _ => x) 0x02 (fun _ _ _ => 0xEE)

/-- ERR(0): the first exchange fails. -/
def failing : Device := { cells 0 with draw := fun _ _ => .fails }

/-- What one outcome shows through f; none for a fault or a refusal. -/
def look {α : Type} (f : State → α) : Outcome → Option α
  | .next s => some (f s)
  | .fault _ => none
  | .refused _ => none

/-- What the host reads at these offsets after one outcome. -/
def reads (offsets : List (BitVec 6)) : Outcome → Option (List Word) := look fun s => offsets.map fun o => readReg o s

/-! ## Well-formedness: one ill-formed term for each check (R120, R121) -/

theorem test_read_address_check : (Instr.read 0x10000).wellFormed = false ∧ (Instr.read 0xFFFF).wellFormed = true := by
  decide

theorem test_write_address_check :
    (Instr.write 0x10000 0x00).wellFormed = false ∧ (Instr.write 0xFFFF 0xFF).wellFormed = true := by decide

theorem test_write_value_check : (Instr.write 0x0000 0x100).wellFormed = false := by decide

/-! ## Decoding: the words of R90 and R99, bit by bit -/

/-- R90: byte 0 = 0x03, addrHi, addrLo, 0x00. -/
theorem test_decode_read :
    decodeFrame [0b00000011, 0b00010010, 0b00110100, 0b00000000] = .ok (.read 0b0001001000110100) := by decide

/-- R90: byte 0 = 0x02, addrHi, addrLo, value, 0x00. -/
theorem test_decode_write :
    decodeFrame [0b00000010, 0b10101011, 0b11001101, 0b01011010, 0b00000000] =
      .ok (.write 0b1010101111001101 0b01011010) := by decide

/-- R90: byte 0 = 0x05, 0x00. -/
theorem test_decode_readStatus : decodeFrame [0b00000101, 0b00000000] = .ok .readStatus := by decide

theorem test_decode_dread : decodeCommand 0b00000000000000000000000000000001 = .ok .dread := by decide

theorem test_decode_dwrite : decodeCommand 0b00000000000000000000000000000010 = .ok .dwrite := by decide

theorem test_decode_dstatus : decodeCommand 0b00000000000000000000000000000011 = .ok .dstatus := by decide

theorem test_decode_checker : decodeCommand 0b00000000000000000000000000000100 = .ok .checker := by decide

theorem test_decode_marchA : decodeCommand 0b00000000000000000000000000000101 = .ok .marchA := by decide

theorem test_decode_sequence : decodeCommand 0b00000000000000000000000000000110 = .ok .sequence := by decide

theorem test_decode_melem : decodeCommand 0b00000000000000000000000000000111 = .ok .melem := by decide

/-- The numbers of spec/opcode_table.json: READ 0x03......, WRITE 0x02........, READ_STATUS 0x0500, MELEM 0x00000007. -/
theorem test_decode_table_words :
    decodeTableWord 32 0x03123400 = some (.read 0x1234) ∧ decodeTableWord 40 0x02ABCD5A00 = some (.write 0xABCD 0x5A) ∧
    decodeTableWord 16 0x0500 = some .readStatus ∧ decodeTableWord 32 0x00000007 = some .melem := by decide

/-- R97, R94, R96: the opcodes of the wider table, a dummy that is not 0, a short and a long frame. -/
theorem test_decode_refuses_frames :
    decodeFrame [0x06, 0x00] = .error (.foreignOpcode 0x06) ∧ decodeFrame [0x05, 0x01] = .error .dummyNotZero ∧
    decodeFrame [0x03, 0x00, 0x00] = .error .truncated ∧ decodeFrame [0x05, 0x00, 0x00] = .error .trailingBytes ∧
    decodeFrame [] = .error .noBytes := by decide

/-- R101: OPC 0, 8 and 15, and a reserved bit. -/
theorem test_decode_refuses_commands :
    decodeCommand 0x00000000 = .error (.reservedOpc 0x0) ∧ decodeCommand 0x00000008 = .error (.reservedOpc 0x8) ∧
    decodeCommand 0x0000000F = .error (.reservedOpc 0xF) ∧ decodeCommand 0x80000005 = .error .reservedBits := by decide

/-! ## Frames -/

/-- V3.2: STATUS 0x14, RESULT 0x81, FAIL_WHERE 0x1, TXN_COUNT 1. -/
theorem test_read_of_dread :
    reads [0x04, 0x20, 0x24, 0x34]
      (execOn (cells 0x81) (.read 0xFFFF)
        (standing { phase := .none, a := 0xFFFF, lane := 0, fidx := 0 } (dispatching 0x1 0xFFFF 0 0 0 0 0))) =
      some [0x14, 0x81, 0x1, 1] := by decide

/-- S6's last frame: STATUS 0x24, FAIL_WHERE 0x00100B45, FAIL_ADDR 5, FAIL_EXP 0, FAIL_OBS 0x0F. -/
theorem test_read_of_march_verify :
    reads [0x04, 0x24, 0x28, 0x2C, 0x30]
      (execOn (cells 0x0F) (.read 5)
        (standing { phase := .m1, a := 5, lane := 3, fidx := 0 } (dispatching 0x5 0 0 8 0 0 0))) =
      some [0x24, 0x00100B45, 5, 0, 0x0F] := by decide

/-- V3.4: M[0xFFFF] = 0xFF, STATUS 0x14, RESULT 0. -/
theorem test_write_of_dwrite :
    look (fun t => (cellAfter (fun _ => 0) t.history 0xFFFF, statusWord t, t.result))
      (execOn (cells 0) (.write 0xFFFF 0xFF)
        (standing { phase := .none, a := 0xFFFF, lane := 0, fidx := 0 } (dispatching 0x2 0xFFFF 0xFF 0 0 0 0))) =
      some (0xFF, 0x14, 0) := by decide

/-- V5.14: the WRITE at FIDX 4 fails: STATUS 0x46, FAIL_WHERE 0x00240A47, FAIL_ADDR 5, FAIL_EXP 0x00. -/
theorem test_write_of_element_fails :
    reads [0x04, 0x24, 0x28, 0x2C]
      (execOn failing (.write 5 0x00)
        { standing { phase := .m1, a := 5, lane := 2, fidx := 4 } (dispatching 0x7 5 0 0 0 2 1) with rmw := 0x04 }) =
      some [0x46, 0x00240A47, 5, 0] := by decide

/-- V3.6: STATUS 0x14, RESULT 0x02, FAIL_WHERE 0x3, TXN_COUNT 1. -/
theorem test_readStatus :
    reads [0x04, 0x20, 0x24, 0x34]
      (execOn (cells 0) .readStatus
        (standing { phase := .none, a := 0, lane := 0, fidx := 0 } (dispatching 0x3 0 0 0 0 0 0))) =
      some [0x14, 0x02, 0x3, 1] := by decide

/-- V3.9: STATUS 0x46, FAIL_WHERE 0x00300003, FAIL_ADDR 0, TXN_COUNT 0. -/
theorem test_readStatus_fails :
    reads [0x04, 0x24, 0x28, 0x34]
      (execOn failing .readStatus
        (standing { phase := .none, a := 0, lane := 0, fidx := 0 } (dispatching 0x3 0 0 0 0 0 0))) =
      some [0x46, 0x00300003, 0, 0] := by decide

/-! ## Dispatch of the commands -/

/-- R129. -/
theorem test_dread_dispatch :
    look (·.pos) (exec .dread (dispatching 0x1 0x42 0 0 0 0 0)) =
      some { phase := .none, a := 0x42, lane := 0, fidx := 0 } := by decide

/-- V3.3: the frame of DREAD at 0xFFFFFFFF is not sent: STATUS 0x34, FAIL_WHERE 0x00100001. -/
theorem test_dread_range_error :
    reads [0x04, 0x24, 0x28, 0x34]
      (step (standing { phase := .none, a := 0xFFFFFFFF, lane := 0, fidx := 0 }
        (dispatching 0x1 0xFFFFFFFF 0 0 0 0 0))) = some [0x34, 0x00100001, 0xFFFFFFFF, 0] := by decide

/-- R130. -/
theorem test_dwrite_dispatch :
    look (·.pos) (exec .dwrite (dispatching 0x2 0x42 0x99 0 0 0 0)) =
      some { phase := .none, a := 0x42, lane := 0, fidx := 0 } := by decide

/-- V3.5: both operands out of range: the address counts, FAIL_WHERE 0x00200002, FAIL_EXP 0x100. -/
theorem test_dwrite_range_error :
    reads [0x04, 0x24, 0x28, 0x2C]
      (step (standing { phase := .none, a := 0x10000, lane := 0, fidx := 0 } (dispatching 0x2 0x10000 0x100 0 0 0 0))) =
      some [0x34, 0x00200002, 0x10000, 0x100] := by decide

/-- R131: pos.a is 0 whatever L.addr is. -/
theorem test_dstatus_dispatch :
    look (·.pos) (exec .dstatus (dispatching 0x3 0x42 0 0 0 0 0)) =
      some { phase := .none, a := 0, lane := 0, fidx := 0 } := by decide

/-- V6.7: the step check comes before the sweep: STATUS 0x64, FAIL_WHERE 0x4. -/
theorem test_checker_bad_step :
    reads [0x04, 0x24, 0x34] (exec .checker (dispatching 0x4 0 0 0 3 0 0)) = some [0x64, 0x4, 0] := by decide

/-- V6.6: size 0: STATUS 0x14, FAIL_WHERE 0x4, TXN_COUNT 0. -/
theorem test_checker_empty :
    reads [0x04, 0x24, 0x34] (exec .checker (dispatching 0x4 0 0 0 1 0 0)) = some [0x14, 0x4, 0] := by decide

/-- V7.1: STATUS 0x14, FAIL_WHERE 0x5, TXN_COUNT 0. -/
theorem test_marchA_empty :
    reads [0x04, 0x24, 0x34] (exec .marchA (dispatching 0x5 0 0 0 0 0 0)) = some [0x14, 0x5, 0] := by decide

/-- R192: M3 starts at the last address, lane 7, after M2's last WRITE. -/
theorem test_marchA_turns_downwards :
    look (·.pos)
      (execOn (cells 0) (.write 7 0xFF)
        { standing { phase := .m2, a := 7, lane := 7, fidx := 4 } (dispatching 0x5 0 0 8 0 0 0) with rmw := 0x7F }) =
      some { phase := .m3, a := 7, lane := 7, fidx := 0 } := by decide

/-- V8.5: no frame is built, so the datum is never checked. -/
theorem test_sequence_empty :
    reads [0x04, 0x24, 0x34] (exec .sequence (dispatching 0x6 0 0x100 0 0 0 0)) = some [0x14, 0x6, 0] := by decide

/-- V8.4: the first WRITE's value is out of range: STATUS 0x34, FAIL_WHERE 0x00204086, FAIL_EXP 0x100. -/
theorem test_sequence_range_error :
    reads [0x04, 0x24, 0x28, 0x2C]
      (step (standing { phase := .sqWrite, a := 0, lane := 0, fidx := 0 } (dispatching 0x6 0 0x100 4 0 0 0))) =
      some [0x34, 0x00204086, 0, 0x100] := by decide

/-- V5.10: BAD_PARAM before the range check. -/
theorem test_melem_bad_lane :
    reads [0x04, 0x24, 0x34] (exec .melem (dispatching 0x7 0x10000 0 0 0 8 1)) = some [0x64, 0x7, 0] := by decide

/-- R160: PHASE_OF[3] is M3, whose first frame is V5.13's. -/
theorem test_melem_dispatch :
    look (·.pos) (exec .melem (dispatching 0x7 0x10000 0 0 0 2 3)) =
      some { phase := .m3, a := 0x10000, lane := 2, fidx := 0 } := by decide

/-! ## Lanes and patterns (V4, S4, S10) -/

theorem test_lane_arithmetic :
    laneMask 3 = 0x08 ∧ laneBit 0x0F 3 = true ∧ laneBit 0x0F 4 = false ∧ setLane 0x08 0 = 0x09 ∧
    clearLane 0x0F 3 = 0x07 ∧ clearLane 0xFF 7 = 0x7F := by decide

theorem test_pattern : pat 1 0 = 0xAA ∧ pat 1 1 = 0x55 ∧ pat 2 0 = 0x55 ∧ pat 2 3 = 0xAA := by decide

/-! ## Host port, exceptions and reset -/

/-- V9.4: STATUS 0x54, FAIL_WHERE 0x1. -/
theorem test_illegal_command :
    reads [0x04, 0x24, 0x34] (step (accept 0x00000011 State.reset)) = some [0x54, 0x1, 0] := by decide

/-- V9.11: a CMD write while HALTED: STATUS 0x4E. -/
theorem test_overrun_while_halted :
    reads [0x04]
      (step { State.reset with
        mode := .halted, code := .transportError, done := true, inputs := [.write 0x00 .word 0x1] }) =
      some [0x4E] := by decide

/-- V9.9, V9.12: only bit 3 of a STATUS write matters. -/
theorem test_status_write :
    look (·.overrun) (step { State.reset with overrun := true, inputs := [.write 0x04 .word 0xF7] }) = some true ∧
    look (·.overrun) (step { State.reset with overrun := true, inputs := [.write 0x04 .word 0x08] }) = some false := by
  decide

/-- V10.1. -/
theorem test_reset_registers :
    [0x00, 0x04, 0x08, 0x0C, 0x10, 0x14, 0x18, 0x1C, 0x20, 0x24, 0x28, 0x2C, 0x30, 0x34].map
      (fun o => readReg o State.reset) = [0, 0, 0, 0, 0x10000, 1, 0, 1, 0, 0, 0, 0, 0, 0] := by decide

/-- V9.14. -/
theorem test_refused_accesses :
    step { State.reset with inputs := [.read 0x04 .half] } = .refused .narrowAccess ∧
    step { State.reset with inputs := [.write 0x02 .word 1] } = .refused .misalignedAccess := ⟨rfl, rfl⟩

/-- R102: POLL of a BUSY block gives the sequencer a step and polls again. -/
theorem test_poll :
    look (fun t => (t.inputs, t.hostData)) (step { dispatching 0x1 0 0 0 0 0 0 with inputs := [.poll] }) =
      some ([.sequencer, .poll], some 0x01) := by decide

/-! ## Witnesses: a state and operands that meet the hypotheses of each statement -/

/-- The verify frame of an element, and its read-modify-write frames, at the last address and lane. -/
def inElement (opc : BitVec 4) (p : Phase) (f : BitVec 3) : State :=
  standing { phase := p, a := 0xFFFF, lane := 7, fidx := f } (dispatching opc 0xFFFF 0 0x10000 0 7 1)

theorem atDispatch (opc : BitVec 4) (addr data size step lane elem : Word) :
    AtDispatch opc (dispatching opc addr data size step lane elem) := ⟨rfl, rfl, rfl, rfl, rfl⟩

theorem atFrame (opc : BitVec 4) (p : Pos) (addr data size step lane elem : Word) :
    AtFrame opc p (standing p (dispatching opc addr data size step lane elem)) := ⟨rfl, rfl, rfl, rfl, rfl⟩

theorem atElement (opc : BitVec 4) (p : Phase) (f : BitVec 3) :
    AtFrame opc { phase := p, a := 0xFFFF, lane := 7, fidx := f } (inElement opc p f) := ⟨rfl, rfl, rfl, rfl, rfl⟩

theorem witness_DecodeOfEncodeIsTheInstruction :
    (Instr.read 0xFFFF).wellFormed = true ∧ (Instr.write 0xFFFF 0xFF).wellFormed = true := by decide

theorem witness_OnlyEncodedWordsDecode :
    decode (.frame [0x03, 0xFF, 0xFF, 0x00]) = .ok (.read 0xFFFF) ∧ decode (.command 0x7) = .ok .melem := by decide

theorem witness_FrameStreamDividesByByteZero :
    List.Forall₂ (fun i tx => frameBytes i = some tx) [.read 0xFFFF, .write 0xFFFF 0xFF, .readStatus]
      [[0x03, 0xFF, 0xFF, 0x00], [0x02, 0xFF, 0xFF, 0xFF, 0x00], [0x05, 0x00]] :=
  .cons (by decide) (.cons (by decide) (.cons (by decide) .nil))

theorem witness_EncodersNeverMaskIntoRange :
    0xFFFF < (0x10000 : Word).toNat ∧ (0xFFFF : Word).toNat ≤ 0xFFFF ∧ 0xFF < (0x100 : Word).toNat ∧
    (0xFF : Word).toNat ≤ 0xFF := by decide

theorem witness_FramesEndInTheDummyByte :
    frameBytes (.read 0xFFFF) = some [0x03, 0xFF, 0xFF, 0x00] ∧
    frameBytes (.write 0 0xFF) = some [0x02, 0x00, 0x00, 0xFF, 0x00] ∧ frameBytes .readStatus = some [0x05, 0x00] := by
  decide

/-- Each of the six clauses. -/
theorem witness_StepRunsTheIssuedInstruction :
    (dispatching 0x1 0 0 0 0 0 0).inputs = [] ∧ issues (dispatching 0x1 0 0 0 0 0 0) = some .dread ∧
    { dispatching 0x1 0 0 0 0 0 0 with inputs := [.sequencer] }.inputs = .sequencer :: [] ∧
    issues { dispatching 0x1 0 0 0 0 0 0 with inputs := [.sequencer] } = some .dread ∧
    (dispatching 0x1 0 0 0 0 0 0).dispatched = false ∧ decodeLatched 0x1 true = .ok .dread ∧
    (inElement 0x5 .m1 6).mode = .busy ∧ (inElement 0x5 .m1 6).inFlight = none ∧
    frameAt (inElement 0x5 .m1 6).latched (inElement 0x5 .m1 6).pos 0x00 = some (.write 0xFFFF 0x80) ∧
    { State.reset with inputs := [.write 0x3F .word 1] }.inputs = .write 0x3F .word 1 :: [] ∧
    { State.reset with inputs := [.read 0x00 .half] }.inputs = .read 0x00 .half :: [] := by decide

theorem witness_PlacedInstructionRuns :
    decodeTableWord 32 0x03FFFF00 = some (.read 0xFFFF) ∧ decodeTableWord 40 0x02FFFFFF00 = some (.write 0xFFFF 0xFF) ∧
    decodeTableWord 16 0x0500 = some .readStatus ∧ decodeTableWord 32 0x00000004 = some .checker := by decide

/-- A state for each clause. -/
theorem witness_CommandWriteIsAcceptedOrDropped :
    State.reset.mode = .idle ∧ (dispatching 0x1 0 0 0 0 0 0).mode ≠ .idle := by decide

/-- Clause 2 by a BUSY state, clause 4 by a step that sets OVERRUN, clause 5 by steps that clear it. -/
theorem witness_OverrunIsStickyAndDropsTheWrite :
    (dispatching 0x1 0 0 0 0 0 0).mode ≠ .idle ∧
    (∃ t, step { dispatching 0x1 0 0 0 0 0 0 with inputs := [.write 0x00 .word 0x2] } = .next t ∧ t.overrun = true) ∧
    (∃ t, step { State.reset with overrun := true, inputs := [.write 0x04 .word 0x8] } = .next t ∧ t.overrun = false) ∧
    (∃ t, step { State.reset with overrun := true, inputs := [.reset] } = .next t ∧ t.overrun = false) :=
  ⟨by decide, ⟨_, rfl, rfl⟩, ⟨_, rfl, rfl⟩, ⟨_, rfl, rfl⟩⟩

theorem witness_ArgumentRegistersHoldWhatIsWritten :
    (0x08 : BitVec 6).toNat ∈ [0x08, 0x0C, 0x10, 0x14, 0x18, 0x1C] ∧
    (0x1C : BitVec 6).toNat ∈ [0x08, 0x0C, 0x10, 0x14, 0x18, 0x1C] ∧ (0x1C : BitVec 6) ≠ 0x08 := by decide

theorem witness_HostReadHasNoSideEffect : (0x00 : BitVec 6).toNat % 4 = 0 ∧ (0x3C : BitVec 6).toNat % 4 = 0 := by
  decide

/-- Each of the five clauses. -/
theorem witness_OnlyWholeAlignedAccessesHaveAMeaning :
    AccessWidth.byte ≠ AccessWidth.word ∧ AccessWidth.half ≠ AccessWidth.word ∧ (0x01 : BitVec 6).toNat % 4 ≠ 0 ∧
    (0x3F : BitVec 6).toNat % 4 ≠ 0 ∧ (0x3C : BitVec 6).toNat % 4 = 0 ∧ (0x38 : BitVec 6).toNat ∈ [0x38, 0x3C] ∧
    (0x34 : BitVec 6).toNat ∈ [0x20, 0x24, 0x28, 0x2C, 0x30, 0x34] := by decide

theorem witness_FailWhereWordFields :
    { State.reset with failWhere := plainWhere 0x4 .cbVerify 1 .read }.failWhere = plainWhere 0x4 .cbVerify 1 .read := rfl

theorem witness_DirectCommandsDispatch :
    AtDispatch 0x1 (dispatching 0x1 0xFFFFFFFF 0 0 0 0 0) ∧ AtDispatch 0x2 (dispatching 0x2 0 0x100 0 0 0 0) ∧
    AtDispatch 0x3 (dispatching 0x3 1 0 0 0 0 0) := ⟨atDispatch .., atDispatch .., atDispatch ..⟩

/-- Steps 0 and 3 beside 1 and 2, with an empty and a full size. -/
theorem witness_CheckerDispatches :
    AtDispatch 0x4 (dispatching 0x4 0 0 0 0 0 0) ∧ AtDispatch 0x4 (dispatching 0x4 0 0 1 3 0 0) ∧
    AtDispatch 0x4 (dispatching 0x4 0 0 0 1 0 0) ∧ AtDispatch 0x4 (dispatching 0x4 0 0 0xFFFFFFFF 2 0 0) ∧
    (0 : Word).toNat ≠ 1 ∧ (3 : Word).toNat ≠ 2 ∧ (1 : Word).toNat = 1 ∧ (2 : Word).toNat = 2 :=
  ⟨atDispatch .., atDispatch .., atDispatch .., atDispatch .., by decide⟩

theorem witness_MarchAAndSequenceDispatch :
    AtDispatch 0x5 (dispatching 0x5 0 0 0 0 0 0) ∧ AtDispatch 0x6 (dispatching 0x6 0 0x100 1 0 0 0) :=
  ⟨atDispatch .., atDispatch ..⟩

/-- Lane 8, elements 0 and 5; lane 7 with each of the four elements. -/
theorem witness_MelemDispatches :
    AtDispatch 0x7 (dispatching 0x7 0x10000 0 0 0 8 1) ∧ AtDispatch 0x7 (dispatching 0x7 0 0 0 0 0 0) ∧
    AtDispatch 0x7 (dispatching 0x7 0 0 0 0 7 5) ∧ AtDispatch 0x7 (dispatching 0x7 0 0 0 0 7 4) ∧
    7 < (8 : Word).toNat ∧ (0 : Word).toNat = 0 ∧ 4 < (5 : Word).toNat ∧ (7 : Word).toNat ≤ 7 ∧ (4 : Word).toNat = 4 ∧
    (Phase.m4, 4) ∈ [(Phase.m1, 1), (Phase.m2, 2), (Phase.m3, 3), (Phase.m4, 4)] :=
  ⟨atDispatch .., atDispatch .., atDispatch .., atDispatch .., by decide⟩

/-- A reserved bit, OPC 0 and OPC 8, latched; and the words 0 and 8 written in IDLE. -/
theorem witness_IllegalCommandWordEndsAtDispatch :
    ((accept 0x11 State.reset).inputs = [] ∧ (accept 0x11 State.reset).mode = .busy ∧
      (accept 0x11 State.reset).inFlight = none ∧ (accept 0x11 State.reset).dispatched = false ∧
      (accept 0x11 State.reset).latched.wordOk = false ∧ (accept 0x00 State.reset).latched.opc.toNat = 0 ∧
      7 < (accept 0x08 State.reset).latched.opc.toNat) ∧
    State.reset.inputs = [] ∧ State.reset.mode = .idle ∧ State.reset.inFlight = none ∧ (0 : Word).toNat = 0 ∧
    7 < (8 : Word).toNat ∧ (∃ t, hostWrite 0x00 .word 0 State.reset = .next t) ∧
    ∃ t, hostWrite 0x00 .word 8 State.reset = .next t :=
  ⟨by decide, rfl, rfl, rfl, rfl, by decide, ⟨_, rfl⟩, ⟨_, rfl⟩⟩

theorem witness_DreadReadEndsWithTheByte :
    AtFrame 0x1 { phase := .none, a := 0xFFFF, lane := 0, fidx := 0 }
      (standing { phase := .none, a := 0xFFFF, lane := 0, fidx := 0 } (dispatching 0x1 0xFFFF 0 0 0 0 0)) ∧
    (0xFFFF : Word).toNat ≤ 0xFFFF := ⟨atFrame .., by decide⟩

theorem witness_DwriteWriteEndsPass :
    AtFrame 0x2 { phase := .none, a := 0xFFFF, lane := 0, fidx := 0 }
      (standing { phase := .none, a := 0xFFFF, lane := 0, fidx := 0 } (dispatching 0x2 0xFFFF 0xFF 0 0 0 0)) ∧
    (0xFFFF : Word).toNat ≤ 0xFFFF ∧ (0xFF : Word).toNat ≤ 0xFF := ⟨atFrame .., by decide⟩

theorem witness_DstatusFrameEndsWithTheStatusByte :
    AtFrame 0x3 { phase := .none, a := 0, lane := 0, fidx := 0 }
      (standing { phase := .none, a := 0, lane := 0, fidx := 0 } (dispatching 0x3 0 0 0 0 0 0)) := atFrame ..

/-- The last cell of the device, odd, with step 1. -/
theorem witness_CheckerWritePassWritesThePattern :
    AtFrame 0x4 { phase := .cbWrite, a := 0xFFFF, lane := 0, fidx := 0 }
      (standing { phase := .cbWrite, a := 0xFFFF, lane := 0, fidx := 0 } (dispatching 0x4 0 0 0x10000 1 0 0)) ∧
    (0xFFFF : Word).toNat ≤ 0xFFFF ∧ (0xFFFF : Word).toNat < (0x10000 : Word).toNat ∧
    (0x55 : Word) = (if ((0xFFFF : Word).toNat % 2 = 0 ↔ (1 : Word).toNat = 1) then 0xAA else 0x55) :=
  ⟨atFrame .., by decide⟩

theorem witness_CheckerVerifyPassComparesTheByte :
    AtFrame 0x4 { phase := .cbVerify, a := 0xFFFF, lane := 0, fidx := 0 }
      (standing { phase := .cbVerify, a := 0xFFFF, lane := 0, fidx := 0 } (dispatching 0x4 0 0 0x10000 2 0 0)) ∧
    (0xFFFF : Word).toNat ≤ 0xFFFF ∧ (0xFFFF : Word).toNat < (0x10000 : Word).toNat ∧
    (0xAA : Byte) = (if ((0xFFFF : Word).toNat % 2 = 0 ↔ (2 : Word).toNat = 1) then 0xAA else 0x55) :=
  ⟨atFrame .., by decide⟩

theorem witness_MarchM0WritesZero :
    AtFrame 0x5 { phase := .m0, a := 0xFFFF, lane := 0, fidx := 0 }
      (standing { phase := .m0, a := 0xFFFF, lane := 0, fidx := 0 } (dispatching 0x5 0 0 0x10000 0 0 0)) ∧
    (0xFFFF : Word).toNat ≤ 0xFFFF ∧ (0xFFFF : Word).toNat < (0x10000 : Word).toNat := ⟨atFrame .., by decide⟩

theorem witness_ElementVerifyComparesOneLane :
    (Phase.m4, false, [true, false]) ∈ marchTable ∧
    AtFrame 0x5 { phase := .m4, a := 0xFFFF, lane := 7, fidx := 0 } (inElement 0x5 .m4 0) ∧
    AtFrame 0x7 { phase := .m4, a := 0xFFFF, lane := 7, fidx := 0 } (inElement 0x7 .m4 0) ∧
    (0xFFFF : Word).toNat ≤ 0xFFFF := ⟨by decide, atElement .., atElement .., by decide⟩

/-- The last read-modify-write of M3, at FIDX 5. -/
theorem witness_RmwReadLatchesTheByte :
    (Phase.m3, true, [false, true, false]) ∈ marchTable ∧ 2 < [false, true, false].length ∧
    AtFrame 0x7 { phase := .m3, a := 0xFFFF, lane := 7, fidx := BitVec.ofNat 3 (2 * 2 + 1) } (inElement 0x7 .m3 5) ∧
    (0xFFFF : Word).toNat ≤ 0xFFFF := ⟨by decide, by decide, atElement .., by decide⟩

/-- The second WRITE of M1, at FIDX 4, which clears the lane. -/
theorem witness_RmwWriteSendsRmwWithOneLaneChanged :
    (Phase.m1, false, [true, false, true]) ∈ marchTable ∧ 1 + 1 < [true, false, true].length ∧
    [true, false, true][1]? = some false ∧
    AtFrame 0x5 { phase := .m1, a := 0xFFFF, lane := 7, fidx := BitVec.ofNat 3 (2 * 1 + 2) } (inElement 0x5 .m1 4) ∧
    (0xFFFF : Word).toNat ≤ 0xFFFF ∧
    (0x00 : Word) =
      (if false then (inElement 0x5 .m1 4).rmw ||| 1#8 <<< (7 : BitVec 3).toNat
        else (inElement 0x5 .m1 4).rmw &&& ~~~(1#8 <<< (7 : BitVec 3).toNat)).setWidth 32 :=
  ⟨by decide, by decide, by decide, atElement .., by decide, by decide⟩

theorem witness_MelemLastWriteEndsPass :
    (Phase.m1, false, [true, false, true]) ∈ marchTable ∧ [true, false, true].getLast? = some true ∧
    AtFrame 0x7 { phase := .m1, a := 0xFFFF, lane := 7, fidx := BitVec.ofNat 3 (2 * [true, false, true].length) }
      (inElement 0x7 .m1 6) ∧
    (0xFFFF : Word).toNat ≤ 0xFFFF ∧
    (0x80 : Word) =
      (if true then (inElement 0x7 .m1 6).rmw ||| 1#8 <<< (7 : BitVec 3).toNat
        else (inElement 0x7 .m1 6).rmw &&& ~~~(1#8 <<< (7 : BitVec 3).toNat)).setWidth 32 :=
  ⟨by decide, by decide, atElement .., by decide, by decide⟩

/-- The last WRITE of M2's last lane at the last address. -/
theorem witness_MarchLastWriteGoesToTheNextLane :
    (Phase.m2, true, [false, true]) ∈ marchTable ∧ [false, true].getLast? = some true ∧
    AtFrame 0x5 { phase := .m2, a := 0xFFFF, lane := 7, fidx := BitVec.ofNat 3 (2 * [false, true].length) }
      (inElement 0x5 .m2 4) ∧
    (0xFFFF : Word).toNat ≤ 0xFFFF ∧ (0xFFFF : Word).toNat < (inElement 0x5 .m2 4).latched.size.toNat ∧
    (0x80 : Word) =
      (if true then (inElement 0x5 .m2 4).rmw ||| 1#8 <<< (7 : BitVec 3).toNat
        else (inElement 0x5 .m2 4).rmw &&& ~~~(1#8 <<< (7 : BitVec 3).toNat)).setWidth 32 :=
  ⟨by decide, by decide, atElement .., by decide, by decide, by decide⟩

theorem witness_SequenceWritePassWritesTheDatum :
    AtFrame 0x6 { phase := .sqWrite, a := 0xFFFF, lane := 0, fidx := 0 }
      (standing { phase := .sqWrite, a := 0xFFFF, lane := 0, fidx := 0 } (dispatching 0x6 0 0xFF 0x10000 0 0 0)) ∧
    (0xFFFF : Word).toNat < (0x10000 : Word).toNat ∧ (0xFF : Word).toNat ≤ 0xFF := ⟨atFrame .., by decide⟩

theorem witness_SequenceVerifyPassComparesTheByte :
    AtFrame 0x6 { phase := .sqVerify, a := 0xFFFF, lane := 0, fidx := 0 }
      (standing { phase := .sqVerify, a := 0xFFFF, lane := 0, fidx := 0 } (dispatching 0x6 0 0xFF 0x10000 0 0 0)) ∧
    (0xFFFF : Word).toNat < (0x10000 : Word).toNat ∧ (0xFF : Word).toNat ≤ 0xFF := ⟨atFrame .., by decide⟩

/-- An address out of range for each kind of frame, and a value out of range. -/
theorem witness_OutOfRangeFrameEndsRangeError :
    issues (standing { phase := .none, a := 0x10000, lane := 0, fidx := 0 } (dispatching 0x1 0x10000 0 0 0 0 0)) =
      some (.read 0x10000) ∧
    issues (standing { phase := .none, a := 0x10000, lane := 0, fidx := 0 } (dispatching 0x2 0x10000 0x100 0 0 0 0)) =
      some (.write 0x10000 0x100) ∧
    issues (standing { phase := .none, a := 0xFFFF, lane := 0, fidx := 0 } (dispatching 0x2 0xFFFF 0x100 0 0 0 0)) =
      some (.write 0xFFFF 0x100) ∧
    0xFFFF < (0x10000 : Word).toNat ∧ 0xFF < (0x100 : Word).toNat := by decide

theorem witness_DispatchExchangesNothing :
    Instr.marchA.isFrame = false ∧ ∃ t, exec .marchA (dispatching 0x5 0 0 1 0 0 0) = .next t := ⟨rfl, _, rfl⟩

/-- A READ and a WRITE: a next state, whatever the device does. -/
theorem witness_FrameInstructionsFrame :
    (∃ t, exec (.read 0xFFFF) (inElement 0x5 .m1 1) = .next t) ∧
    (∃ t, exec (.write 0xFFFF 0x80) (inElement 0x5 .m1 2) = .next t) := ⟨⟨_, rfl⟩, ⟨_, rfl⟩⟩

/-- A WRITE that is exchanged, a READ, a WRITE that the range check refuses, and a WRITE whose exchange fails. -/
theorem witness_OnlyTheWrittenCellChanges :
    (∃ t, execOn (cells 0) (.write 0xFFFF 0x80) (inElement 0x5 .m1 2) = .next t ∧
      t.txnCount = (inElement 0x5 .m1 2).txnCount + 1) ∧
    (∃ t, execOn (cells 0) (.read 0xFFFF) (inElement 0x5 .m1 1) = .next t) ∧
    (frameBytes (.write 0x10000 0x00) = none ∧
      ∃ t, execOn (cells 0) (.write 0x10000 0x00)
        (standing { phase := .none, a := 0x10000, lane := 0, fidx := 0 } (dispatching 0x2 0x10000 0 0 0 0 0)) =
        .next t) ∧
    (∃ t, execOn failing (.write 0xFFFF 0x80) (inElement 0x5 .m1 2) = .next t ∧
      t.txnCount = (inElement 0x5 .m1 2).txnCount) :=
  ⟨⟨_, rfl, rfl⟩, ⟨_, rfl⟩, ⟨rfl, _, rfl⟩, ⟨_, rfl, rfl⟩⟩

/-- A block that hangs in the verify READ of M1. -/
def hung : State := { inElement 0x5 .m1 0 with inFlight := some [0x03, 0xFF, 0xFF, 0x00] }

/-- A block halted by a READ of cell 5. -/
def halted : State := { State.reset with mode := .halted, code := .transportError, done := true, failAddr := 5 }

/-- Reset of a hung block, and reset while the next frame is partly sent. -/
theorem witness_ResetFromAnyState :
    ResetNext { hung with inputs := [.reset, .poll] } ∧ ResetNext { inElement 0x5 .m1 0 with inputs := [.resetMidFrame] } :=
  ⟨⟨_, .inl rfl⟩, ⟨_, .inr rfl⟩⟩

theorem witness_HangLastsUntilReset :
    hung.mode = .busy ∧ hung.inFlight = some [0x03, 0xFF, 0xFF, 0x00] ∧ ¬ ResetNext hung ∧ step hung = .next hung :=
  ⟨rfl, rfl, (by rintro ⟨_, h | h⟩ <;> cases h), rfl⟩

theorem witness_HaltLastsUntilReset :
    halted.mode = .halted ∧ ¬ ResetNext { halted with inputs := [.write 0x00 .word 0x1] } ∧
    ∃ t, step { halted with inputs := [.write 0x00 .word 0x1] } = .next t :=
  ⟨rfl, (by rintro ⟨_, h | h⟩ <;> cases h), _, rfl⟩

/-- A transition of each kind: acceptance, an end, a reset. -/
theorem witness_ModeTransitions :
    (∃ t, step { State.reset with inputs := [.write 0x00 .word 0x1] } = .next t ∧ t.mode = .busy) ∧
    (∃ t, step (dispatching 0x5 0 0 0 0 0 0) = .next t ∧ t.mode = .idle) ∧
    ResetNext { halted with inputs := [.reset] } ∧
    (∃ t, step { halted with inputs := [.reset] } = .next t ∧ t.mode = .idle) :=
  ⟨⟨_, rfl, rfl⟩, ⟨_, rfl, rfl⟩, ⟨_, .inl rfl⟩, ⟨_, rfl, rfl⟩⟩

/-- An exchange that completes. -/
theorem witness_AtMostOneExchangePerStep :
    ¬ ResetNext (inElement 0x5 .m1 1) ∧
    ∃ t, stepOn (cells 0) (inElement 0x5 .m1 1) = .next t ∧
      t.history = .exchanged [0x03, 0xFF, 0xFF, 0x00] :: (inElement 0x5 .m1 1).history :=
  ⟨(by rintro ⟨_, h | h⟩ <;> cases h), _, rfl, rfl⟩

/-- The invariant holds in a run that is under way: in the middle of an element of MARCH_A, after one frame. -/
theorem invariant_inElement :
    BlockInvariant { inElement 0x5 .m1 1 with history := [.exchanged [0x03, 0xFF, 0xFF, 0x00]], txnCount := 1 } where
  busyClear _ := ⟨rfl, rfl, rfl, rfl, rfl, rfl, rfl⟩
  beforeDispatch _ h := by cases h
  onTrack _ _ := ⟨rfl, .march .m1 element1 0xFFFF 7 1 rfl rfl (by decide) (by decide) (by decide)⟩
  portFrame _ h := by cases h
  halted := by decide
  doneCode := by decide
  record := by decide

theorem witness_EveryStepKeepsTheInvariant :
    BlockInvariant { inElement 0x5 .m1 1 with history := [.exchanged [0x03, 0xFF, 0xFF, 0x00]], txnCount := 1 } ∧
    ∃ t, step { inElement 0x5 .m1 1 with history := [.exchanged [0x03, 0xFF, 0xFF, 0x00]], txnCount := 1 } = .next t :=
  ⟨invariant_inElement, _, rfl⟩

theorem witness_StepStopsOnlyAtABadHostAccess :
    BlockInvariant { inElement 0x5 .m1 1 with history := [.exchanged [0x03, 0xFF, 0xFF, 0x00]], txnCount := 1 } :=
  invariant_inElement

theorem witness_OnlyTheThreeFramesAreSent :
    BlockInvariant { inElement 0x5 .m1 1 with history := [.exchanged [0x03, 0xFF, 0xFF, 0x00]], txnCount := 1 } ∧
    OnlyBlockFrames { inElement 0x5 .m1 1 with history := [.exchanged [0x03, 0xFF, 0xFF, 0x00]], txnCount := 1 } ∧
    ∃ t, step { inElement 0x5 .m1 1 with history := [.exchanged [0x03, 0xFF, 0xFF, 0x00]], txnCount := 1 } = .next t :=
  ⟨invariant_inElement,
    fun _ h => ⟨.read 0xFFFF, [0x03, 0xFF, 0xFF, 0x00], rfl, rfl, .inl (List.mem_singleton.mp h)⟩, _, rfl⟩

/-- The last position of CHECKER over two cells, and an empty MARCH_A. -/
theorem witness_AdvanceFollowsTheLoops :
    (dispatching 0x4 0 0 2 1 0 0).latched.opc ≠ 0x7 ∧
    (algorithmPositions checkerPhases 2)[3]? = some { phase := .cbVerify, a := 1, lane := 0, fidx := 0 } ∧
    algorithmPositions marchPhases 0 = [] := by decide

theorem witness_IdealMemoryReturnsTheLastWrite :
    (0xFFFF : Word).toNat ≤ 0xFFFF ∧ (0 : Word).toNat ≤ 0xFFFF ∧ (0xFF : Word).toNat ≤ 0xFF := by decide

theorem witness_WriteThenReadRoundTrip :
    ∃ s : State, s.mode = .idle ∧ s.inFlight = none ∧ s.argAddr.toNat ≤ 0xFFFF ∧ s.argData.toNat ≤ 0xFF ∧
      s.argAddr = 0xFFFF ∧ s.argData = 0xFF ∧
      s.inputs = [.write 0x00 .word 0x00000002, .sequencer, .sequencer,
        .write 0x00 .word 0x00000001, .sequencer, .sequencer] :=
  ⟨{ State.reset with
      argAddr := 0xFFFF, argData := 0xFF
      inputs := [.write 0x00 .word 0x00000002, .sequencer, .sequencer,
        .write 0x00 .word 0x00000001, .sequencer, .sequencer] }, by decide⟩

/-- Element 4 at the last address and lane, on a cell whose lane reads as expected and on one whose lane does not. -/
theorem witness_MelemOnIdealMemory :
    (Phase.m4, false, [true, false]) ∈ marchTable ∧
    (Phase.m4, 4) ∈ [(Phase.m1, 1), (Phase.m2, 2), (Phase.m3, 3), (Phase.m4, 4)] ∧
    AtDispatch 0x7 (dispatching 0x7 0xFFFF 0 0 0 7 4) ∧ (dispatching 0x7 0xFFFF 0 0 0 7 4).inputs = [] ∧
    (dispatching 0x7 0xFFFF 0 0 0 7 4).txnCount = 0 ∧ (4 : Word).toNat = 4 ∧ (7 : Word).toNat = (7 : BitVec 3).toNat ∧
    (0xFFFF : Word).toNat ≤ 0xFFFF ∧ laneBit (cellAfter (fun _ => 0x7F) [] 0xFFFF) 7 = false ∧
    laneBit (cellAfter (fun _ => 0x80) [] 0xFFFF) 7 ≠ false :=
  ⟨by decide, by decide, atDispatch .., rfl, rfl, by decide⟩

theorem witness_CheckerPassesOnIdealMemory :
    AtDispatch 0x4 (dispatching 0x4 0 0 0x10000 2 0 0) ∧ (dispatching 0x4 0 0 0x10000 2 0 0).inputs = [] ∧
    (dispatching 0x4 0 0 0x10000 2 0 0).txnCount = 0 ∧ (0x10000 : Word).toNat ≤ 0x10000 ∧
    ((2 : Word).toNat = 1 ∨ (2 : Word).toNat = 2) := ⟨atDispatch .., rfl, rfl, by decide⟩

theorem witness_SequencePassesOnIdealMemory :
    AtDispatch 0x6 (dispatching 0x6 0 0xFF 0x10000 0 0 0) ∧ (dispatching 0x6 0 0xFF 0x10000 0 0 0).inputs = [] ∧
    (dispatching 0x6 0 0xFF 0x10000 0 0 0).txnCount = 0 ∧ (0x10000 : Word).toNat ≤ 0x10000 ∧
    (0xFF : Word).toNat ≤ 0xFF := ⟨atDispatch .., rfl, rfl, by decide⟩

theorem witness_MarchPassesOnIdealMemory :
    AtDispatch 0x5 (dispatching 0x5 0 0 0x10000 0 0 0) ∧ (dispatching 0x5 0 0 0x10000 0 0 0).inputs = [] ∧
    (dispatching 0x5 0 0 0x10000 0 0 0).txnCount = 0 ∧ (0x10000 : Word).toNat ≤ 0x10000 :=
  ⟨atDispatch .., rfl, rfl, by decide⟩

/-- RA(0xFFFE, 0x00) with every cell above read wrongly as well: the last but one cell, even, with step 1. -/
theorem witness_CheckerFailsFastAtTheFaultyCell :
    (∃ pattern : Word → Byte,
      (∀ a : Word, pattern a = if (a.toNat % 2 = 0 ↔ (1 : Word).toNat = 1) then 0xAA else 0x55) ∧
      (∀ a : Word, a.toNat < (0xFFFE : Word).toNat →
        (fun a x => if a.toNat < 0xFFFE then x else 0x00) a (pattern a) = pattern a) ∧
      (fun (a : Word) (x : Byte) => if a.toNat < 0xFFFE then x else 0x00) 0xFFFE (pattern 0xFFFE) ≠ pattern 0xFFFE) ∧
    AtDispatch 0x4 (dispatching 0x4 0 0 0x10000 1 0 0) ∧ (dispatching 0x4 0 0 0x10000 1 0 0).inputs = [] ∧
    (dispatching 0x4 0 0 0x10000 1 0 0).txnCount = 0 ∧ (0x10000 : Word).toNat ≤ 0x10000 ∧
    ((1 : Word).toNat = 1 ∨ (1 : Word).toNat = 2) ∧ (0xFFFE : Word).toNat < (0x10000 : Word).toNat :=
  ⟨⟨_, fun _ => rfl, fun _ h => if_pos h, by decide⟩, atDispatch .., rfl, rfl, by decide⟩

theorem witness_MarchFindsALaneStuckAtOne :
    AtDispatch 0x5 (dispatching 0x5 0 0 0x10000 0 0 0) ∧ (dispatching 0x5 0 0 0x10000 0 0 0).inputs = [] ∧
    (dispatching 0x5 0 0 0x10000 0 0 0).txnCount = 0 ∧ (0x10000 : Word).toNat ≤ 0x10000 ∧
    (0xFFFF : Word).toNat < (0x10000 : Word).toNat := ⟨atDispatch .., rfl, rfl, by decide⟩

/-- The invariant says nothing of the input list, so it holds with any other. -/
theorem invariant_withInputs {s : State} (inputs : List Input) (h : BlockInvariant s) :
    BlockInvariant { s with inputs := inputs } :=
  ⟨h.busyClear, h.beforeDispatch, h.onTrack, h.portFrame, h.halted, h.doneCode, h.record⟩

/-- A device whose first exchange fails, and a host that polls, writes CMD and reads in the middle of an element. -/
theorem witness_CommandsEndIfEveryExchangeAnswers :
    (∀ h tx, failing.draw h tx ≠ .neverAnswers) ∧
    BlockInvariant
      { inElement 0x5 .m1 1 with
        history := [.exchanged [0x03, 0xFF, 0xFF, 0x00]], txnCount := 1
        inputs := [.poll, .write 0x00 .word 0x1, .read 0x3C .word] } ∧
    (inElement 0x5 .m1 1).mode = .busy ∧ (inElement 0x5 .m1 1).inFlight = none ∧
    ∀ x ∈ [Input.poll, .write 0x00 .word 0x1, .read 0x3C .word], x.keepsRunning = true :=
  ⟨fun _ _ => by simp [failing], invariant_withInputs _ invariant_inElement, rfl, rfl, by decide⟩

end Sys2Proof.Tests
end

section
/-!
SUPPORT, then PROOFS of the statements on spec/00_scope.md: what one step runs (R11, R100), what an instruction placed for
the next step does (log 9), and the frame of a dispatch (R13, R100).
-/

namespace Sys2Proof.Machine

/-! ## What the next step runs -/

/-- The sequencer's turn runs the instruction it issues, however instructions are executed. -/
theorem sequencerTurn_issued (ex : Instr → State → Outcome) {s : State} {i : Instr} (h : issues s = some i) :
    sequencerTurn ex s = ex i s := by
  have hr : running s = true := (running_iff s).mpr (running_of_issues h)
  simp only [sequencerTurn, hr, h, if_true]

/-- What the sequencer issues does not depend on the inputs still to come. -/
theorem issues_withInputs (s : State) (inputs : List Input) : issues { s with inputs := inputs } = issues s := rfl

/-- With no input waiting, the step is the sequencer's (log 6). -/
theorem step_noInput {s : State} {i : Instr} (hn : s.inputs = []) (h : issues s = some i) : step s = exec i s := by
  have turn_eq : step s = sequencerTurn exec s := by simp only [step, turn, hn]
  rw [turn_eq, sequencerTurn_issued exec h]

/-- A turn granted by the input list is the sequencer's step on the rest of the list (log 6). -/
theorem step_sequencerInput {s : State} {i : Instr} {rest : List Input} (hn : s.inputs = .sequencer :: rest)
    (h : issues s = some i) : step s = exec i { s with inputs := rest } := by
  have turn_eq : step s = sequencerTurn exec { s with inputs := rest } := by simp only [step, turn, hn]
  rw [turn_eq, sequencerTurn_issued exec (by rwa [issues_withInputs])]

/-- A host write at the head of the input list is the step (R79). -/
theorem step_writeInput {s : State} {o : BitVec 6} {width : AccessWidth} {w : Word} {rest : List Input}
    (hn : s.inputs = .write o width w :: rest) : step s = hostWrite o width w { s with inputs := rest } := by
  simp only [step, turn, hn]

/-- A host read at the head of the input list is the step (R79). -/
theorem step_readInput {s : State} {o : BitVec 6} {width : AccessWidth} {rest : List Input}
    (hn : s.inputs = .read o width :: rest) : step s = hostRead o width { s with inputs := rest } := by
  simp only [step, turn, hn]

/-- Before dispatch, a latched word that decodes is what the sequencer issues (R100). -/
theorem issues_of_decodeLatched {s : State} {i : Instr} (busy : s.mode = .busy) (free : s.inFlight = none)
    (accepted : s.dispatched = false) (h : decodeLatched s.latched.opc s.latched.wordOk = .ok i) :
    issues s = some i := by
  obtain ⟨wordOk, opcode⟩ := decodeLatched_ok h
  exact issues_atDispatch ⟨busy, free, accepted, rfl, wordOk⟩ opcode

/-- After dispatch, the frame that the position names is what the sequencer issues (R34). -/
theorem issues_of_frameAt {s : State} {i : Instr} (busy : s.mode = .busy) (free : s.inFlight = none)
    (dispatched : s.dispatched = true) (h : frameAt s.latched s.pos s.rmw = some i) : issues s = some i :=
  (issues_atFrame ⟨busy, free, dispatched, rfl, rfl⟩).trans h

/-! ## The instruction placed for the next step -/

/-- A row of the opcode table that is no bus frame is a command word (log 10). -/
theorem decodeCommand_of_decodeTableWord {nbits w : Nat} {i : Instr} (h : decodeTableWord nbits w = some i)
    (hf : i.isFrame = false) : decodeCommand (BitVec.ofNat 32 w) = .ok i := by
  unfold decodeTableWord at h
  split at h
  case h_1 j hj =>
    obtain rfl : j = i := by injection h
    rcases decodeFrame_cases hj with ⟨_, _, _, rfl⟩ | ⟨_, _, _, _, rfl⟩ | ⟨_, rfl⟩ <;> cases hf
  case h_2 =>
    split at h
    · split at h
      · rename_i j hj
        obtain rfl : j = i := by injection h
        exact hj
      · cases h
    · cases h

/-- A command is placed as acceptance places it (R43, log 9). -/
theorem withFetchWord_command {s : State} {nbits w : Nat} {i : Instr} (h : decodeTableWord nbits w = some i)
    (hf : i.isFrame = false) : s.withFetchWord nbits w = accept (BitVec.ofNat 32 w) s.sequencerNext := by
  cases i with
  | read _ | write _ _ | readStatus => cases hf
  | dread | dwrite | dstatus | checker | marchA | sequence | melem => simp only [State.withFetchWord, h]

/-- An accepted command word that decodes is what the sequencer issues, when the bus port is free (R43, R100). -/
theorem issues_accept {s : State} {w : Word} {i : Instr} (free : s.inFlight = none) (h : decodeCommand w = .ok i) :
    issues (accept w s) = some i :=
  issues_of_decodeLatched rfl free rfl h

/-- In the middle of a direct command the sequencer issues that command's one frame (R129 to R131). -/
theorem issues_atDirectFrame (s : State) (opc : BitVec 4) (a v : Word) :
    issues (s.atDirectFrame opc a v) =
      frameAt (s.atDirectFrame opc a v).latched { phase := .none, a := a, lane := 0, fidx := 0 } s.rmw :=
  issues_atFrame (opc := opc) ⟨rfl, rfl, rfl, rfl, rfl⟩

/-- The placed instruction is what the sequencer issues (log 9). -/
theorem issues_withFetchWord {s : State} {nbits w : Nat} {i : Instr} (h : decodeTableWord nbits w = some i) :
    issues (s.withFetchWord nbits w) = some i := by
  cases hf : i.isFrame
  case false =>
    rw [withFetchWord_command h hf]
    exact issues_accept rfl (decodeCommand_of_decodeTableWord h hf)
  case true =>
    cases i with
    | read _ | write _ _ | readStatus =>
      simp only [State.withFetchWord, h, issues_atDirectFrame]
      rfl
    | dread | dwrite | dstatus | checker | marchA | sequence | melem => cases hf

/-- Placing an instruction of the table leaves no input waiting, whichever way it is placed. -/
theorem withFetchWord_inputs (s : State) {nbits w : Nat} {i : Instr} (h : decodeTableWord nbits w = some i) :
    (s.withFetchWord nbits w).inputs = [] := by
  cases hf : i.isFrame
  case false => rw [withFetchWord_command h hf, accept_inputs]; rfl
  case true =>
    cases i with
    | read _ | write _ _ | readStatus => simp only [State.withFetchWord, h]; rfl
    | dread | dwrite | dstatus | checker | marchA | sequence | melem => cases hf

/-! ## The statements -/

/-- Settles O7: the turn's branch for each input, and what `issues` reads at dispatch and at a position. -/
theorem stepRunsTheIssuedInstruction : Obligations.StepRunsTheIssuedInstruction := fun _ _ =>
  ⟨step_noInput, fun _ => step_sequencerInput, issues_of_decodeLatched, issues_of_frameAt,
    fun _ _ _ _ => step_writeInput, fun _ _ _ => step_readInput⟩

/-- Settles O8: the placed instruction is issued, and no input comes before it. -/
theorem placedInstructionRuns : Obligations.PlacedInstructionRuns := by
  intro s nbits w i h
  have issued : issues (s.withFetchWord nbits w) = some i := issues_withFetchWord h
  exact ⟨issued, step_noInput (withFetchWord_inputs s h) issued⟩

/-- Settles O36: a dispatch moves the position, and the command goes on, or it terminates; neither touches the bus. -/
theorem dispatchExchangesNothing : Obligations.DispatchExchangesNothing := by
  intro i s t hf h
  obtain ⟨issued, rfl⟩ := exec_next h
  have busy : s.mode = .busy := (running_of_issues issued).1
  refine ⟨effect_operands Config.device i s, ?_⟩
  rcases start_form i Config.device s hf with ⟨p, moved⟩ | ⟨c, info, _, _, terminated⟩
  · rw [moved]
    have goesOn : (moveTo p (markDispatched s)).mode = .busy := busy
    have results : SameResults s (moveTo p (markDispatched s)) := ⟨rfl, rfl, rfl, rfl, rfl, rfl, rfl⟩
    exact ⟨rfl, rfl, rfl, rfl, rfl, fun _ => results, fun stopped => absurd goesOn stopped⟩
  · rw [terminated]
    have stops : (terminate c info (markDispatched s)).mode ≠ .busy := by
      rw [terminate_mode]
      split <;> decide
    exact ⟨rfl, rfl, rfl, rfl, rfl, fun goesOn => absurd goesOn stops, fun _ => rfl⟩

end Sys2Proof.Machine
end

section
/-!
SUPPORT. The register words the host reads (spec/10_state.md R23, R28) as the sums of their fields, and one host access
(R20, R21, R43).
-/

namespace Sys2Proof.Machine

/-! ## The register words -/

theorem toNat_append_eq_add {v w : Nat} (x : BitVec v) (y : BitVec w) :
    (x ++ y).toNat = 2 ^ w * x.toNat + y.toNat := by
  rw [BitVec.toNat_append, Nat.shiftLeft_eq, Nat.mul_comm, Nat.two_pow_add_eq_or_of_lt y.isLt]

theorem getLsbD_eq_of_toNat {w i : Nat} {x : BitVec w} {b : Bool} (h : x.toNat / 2 ^ i % 2 = b.toNat) :
    x.getLsbD i = b := by
  rw [BitVec.getLsbD, Nat.testBit_eq_decide_div_mod_eq, h]
  cases b <;> rfl

theorem extractLsb'_eq_of_toNat {w start len : Nat} {x : BitVec w} {y : BitVec len}
    (h : x.toNat / 2 ^ start % 2 ^ len = y.toNat) : x.extractLsb' start len = y := by
  apply BitVec.eq_of_toNat_eq
  rw [BitVec.extractLsb'_toNat, Nat.shiftRight_eq_div_pow, h]

/-- STATUS as the sum of its fields (R23). -/
theorem statusWord_toNat (s : State) :
    (statusWord s).toNat =
      2 ^ 4 * (codeValue s.code).toNat + 2 ^ 3 * s.overrun.toNat + 2 ^ 2 * s.done.toNat +
        2 * (decide (s.mode = .halted)).toNat + (decide (s.mode = .busy)).toNat := by
  unfold statusWord
  rw [toNat_append_eq_add (v := 24 + 4 + 1 + 1 + 1)]
  simp only [toNat_append_eq_add, BitVec.toNat_ofBool, BitVec.toNat_ofNat]
  omega

/-- FAIL_WHERE as the sum of its fields (R28). -/
theorem failWhereWord_toNat (f : FailWhere) :
    (failWhereWord f).toNat =
      2 ^ 20 * (kindValue f.fkind).toNat + 2 ^ 16 * f.fidx.toNat + 2 ^ 14 * f.rangeSel.toNat + 2 ^ 12 * f.step.toNat +
        2 ^ 11 * f.laneValid.toNat + 2 ^ 8 * f.lane.toNat + 2 ^ 4 * (phaseValue f.phase).toNat + f.alg.toNat := by
  unfold failWhereWord
  rw [toNat_append_eq_add (v := 10 + 2 + 1 + 3 + 1 + 1 + 2 + 1 + 3 + 4)]
  simp only [toNat_append_eq_add, BitVec.toNat_ofBool, BitVec.toNat_ofNat]
  omega

/-! ## One host access -/

theorem aligned_iff (o : BitVec 6) : aligned o = true ↔ o.toNat % 4 = 0 := by
  revert o
  decide

theorem hostAccess_narrow (o : BitVec 6) {width : AccessWidth} (h : width ≠ .word) (t : State) :
    hostAccess o width t = .refused .narrowAccess := by
  cases width with
  | byte | half => rfl
  | word => exact absurd rfl h

theorem hostAccess_misaligned {o : BitVec 6} (h : o.toNat % 4 ≠ 0) (t : State) :
    hostAccess o .word t = .refused .misalignedAccess := by
  rw [hostAccess, if_neg (mt (aligned_iff o).mp h)]

theorem hostAccess_aligned {o : BitVec 6} (h : o.toNat % 4 = 0) (t : State) : hostAccess o .word t = .next t := by
  rw [hostAccess, if_pos ((aligned_iff o).mpr h)]

theorem hostAccess_next_or_refused (o : BitVec 6) (width : AccessWidth) (t : State) :
    hostAccess o width t = .next t ∨
      ((width ≠ .word ∨ o.toNat % 4 ≠ 0) ∧ ∃ r, hostAccess o width t = .refused r) := by
  by_cases whole : width = .word
  · subst whole
    by_cases multiple : o.toNat % 4 = 0
    · exact .inl (hostAccess_aligned multiple t)
    · exact .inr ⟨.inr multiple, _, hostAccess_misaligned multiple t⟩
  · exact .inr ⟨.inl whole, _, hostAccess_narrow o whole t⟩

theorem argOffset_cases {o : BitVec 6} (h : o.toNat ∈ [0x08, 0x0C, 0x10, 0x14, 0x18, 0x1C]) :
    o = 0x08 ∨ o = 0x0C ∨ o = 0x10 ∨ o = 0x14 ∨ o = 0x18 ∨ o = 0x1C := by
  revert o
  decide

/-- From RESULT upwards every offset is read-only or unmapped (R20, R21). -/
theorem writeReg_readOnly {o : BitVec 6} (w : Word) (s : State) (h : 0x20 ≤ o.toNat) : writeReg o w s = s := by
  have ne : ∀ k : BitVec 6, k.toNat < 0x20 → o ≠ k := fun k hk e => by subst e; omega
  simp only [writeReg, ne 0x00 (by decide), ne 0x04 (by decide), ne 0x08 (by decide), ne 0x0C (by decide),
    ne 0x10 (by decide), ne 0x14 (by decide), ne 0x18 (by decide), ne 0x1C (by decide), if_false]

theorem readReg_unmapped {o : BitVec 6} (s : State) (h : o.toNat ∈ [0x38, 0x3C]) : readReg o s = 0 := by
  obtain rfl | rfl : o = 0x38 ∨ o = 0x3C := by revert o; decide
  · rfl
  · rfl

/-! ## A command request -/

/-- word_ok as a bound on the word (R33). -/
theorem wordOkOf_eq (w : Word) : wordOkOf w = decide (w.toNat < 16) := by
  have reserved : w.extractLsb' 4 28 = 0#28 ↔ w.toNat < 16 := by
    rw [← BitVec.toNat_inj, BitVec.extractLsb'_toNat, Nat.shiftRight_eq_div_pow]
    simp only [BitVec.toNat_ofNat]
    omega
  rw [wordOkOf, Bool.beq_eq_decide_eq, decide_eq_decide]
  exact reserved

theorem hostWrite_cmd (w : Word) (s : State) : hostWrite 0x00 .word w s = .next (requestCommand w s) := rfl

theorem requestCommand_idle (w : Word) {s : State} (h : s.mode = .idle) : requestCommand w s = accept w s := if_pos h

theorem requestCommand_notIdle (w : Word) {s : State} (h : s.mode ≠ .idle) :
    requestCommand w s = { s with overrun := true } := if_neg h

end Sys2Proof.Machine
end

section
/-!
SUPPORT. Everything a step of the block can do on any device, as one relation with a case for each cause.
-/

namespace Sys2Proof.Machine

/-! ## The step at one device -/

theorem exec_eq_execOn (i : Instr) (s : State) : exec i s = execOn Config.device i s := exec_eq_issue i s

theorem step_eq_stepOn (s : State) : step s = stepOn Config.device s := by
  have h : exec = execOn Config.device := funext fun i => funext (exec_eq_execOn i)
  rw [step, stepOn, h]

/-- With no input, or a turn granted by the input list, the step is the sequencer's (log 6). -/
theorem stepOn_sequencer (d : Device) {s : State} (h : s.inputs = [] ∨ ∃ rest, s.inputs = .sequencer :: rest) :
    stepOn d s = sequencerTurn (execOn d) { s with inputs := s.inputs.tail } := by
  rcases h with h | ⟨rest, h⟩
  · have same : { s with inputs := s.inputs.tail } = s := by rw [h, List.tail_nil, ← h]
    rw [same]
    simp only [stepOn, turn, h]
  · simp only [stepOn, turn, h, List.tail_cons]

theorem stepOn_write (d : Device) {s : State} {o : BitVec 6} {width : AccessWidth} {w : Word} {rest : List Input}
    (h : s.inputs = .write o width w :: rest) : stepOn d s = hostWrite o width w { s with inputs := rest } := by
  simp only [stepOn, turn, h]

theorem stepOn_read (d : Device) {s : State} {o : BitVec 6} {width : AccessWidth} {rest : List Input}
    (h : s.inputs = .read o width :: rest) : stepOn d s = hostRead o width { s with inputs := rest } := by
  simp only [stepOn, turn, h]

theorem stepOn_poll (d : Device) {s : State} {rest : List Input} (h : s.inputs = .poll :: rest) :
    stepOn d s = .next (hostPoll { s with inputs := rest }) := by
  simp only [stepOn, turn, h]

theorem stepOn_reset (d : Device) {s : State} (h : ResetNext s) :
    ∃ mid rest, s.inputs.tail = rest ∧ stepOn d s = .next (resetBlock mid { s with inputs := rest }) := by
  obtain ⟨rest, h | h⟩ := h
  · exact ⟨false, rest, by rw [h]; rfl, by simp only [stepOn, turn, h]⟩
  · exact ⟨true, rest, by rw [h]; rfl, by simp only [stepOn, turn, h]⟩

/-! ## What a host access leaves of the command -/

/-- t differs from s at most in the host's own registers (ARG, OVERRUN) and in the fields that are no part of the block's
command: the input list and the word read. -/
def SameCommand (s t : State) : Prop :=
  t = { s with
    argAddr := t.argAddr, argData := t.argData, argSize := t.argSize, argStep := t.argStep, argLane := t.argLane
    argElem := t.argElem, overrun := t.overrun, inputs := t.inputs, hostData := t.hostData }

theorem SameCommand.mode {s t : State} (h : SameCommand s t) : t.mode = s.mode := by rw [h]
theorem SameCommand.history {s t : State} (h : SameCommand s t) : t.history = s.history := by rw [h]
theorem SameCommand.txnCount {s t : State} (h : SameCommand s t) : t.txnCount = s.txnCount := by rw [h]
theorem SameCommand.inFlight {s t : State} (h : SameCommand s t) : t.inFlight = s.inFlight := by rw [h]
theorem SameCommand.pos {s t : State} (h : SameCommand s t) : t.pos = s.pos := by rw [h]
theorem SameCommand.dispatched {s t : State} (h : SameCommand s t) : t.dispatched = s.dispatched := by rw [h]

/-- A register write is an accepted command or leaves the command as it is (R24, R25, R43). -/
theorem writeReg_cases (o : BitVec 6) (w : Word) (s : State) :
    (o = 0x00 ∧ s.mode = .idle ∧ writeReg o w s = accept w s) ∨
      (SameCommand s (writeReg o w s) ∧ (writeReg o w s).inputs = s.inputs) := by
  by_cases cmd : o = 0x00
  · subst cmd
    have written : writeReg 0x00 w s = requestCommand w s := rfl
    by_cases idle : s.mode = .idle
    · exact .inl ⟨rfl, idle, written.trans (requestCommand_idle w idle)⟩
    · rw [written, requestCommand_notIdle w idle]
      exact .inr ⟨rfl, rfl⟩
  · refine .inr ?_
    simp only [writeReg, cmd, if_false, writeStatus]
    split_ifs <;> exact ⟨rfl, rfl⟩

/-! ## The step, case by case -/

/-- What one step from s on device d ends in, by its cause. `rest` is what is left of the input list. -/
inductive StepEffect (d : Device) (s : State) : State → Prop where
  | reset (mid : Bool) (rest : List Input) (next : ResetNext s) :
      StepEffect d s (resetBlock mid { s with inputs := rest })
  | same {t : State} (h : SameCommand s t) : StepEffect d s t
  | accepted (w : Word) (rest : List Input) (next : s.inputs = .write 0x00 .word w :: rest) (idle : s.mode = .idle) :
      StepEffect d s (accept w { s with inputs := rest })
  | issued (i : Instr) (rest : List Input) (h : issues s = some i) :
      StepEffect d s (effectOn d i { s with inputs := rest })
  | illegal (rest : List Input) (busy : s.mode = .busy) (free : s.inFlight = none)
      (undispatched : s.dispatched = false) :
      StepEffect d s (terminate .illegalCmd Info.empty { s with inputs := rest })

theorem sequencerTurn_effect {d : Device} {s t : State} {rest : List Input}
    (h : sequencerTurn (execOn d) { s with inputs := rest } = .next t) : StepEffect d s t := by
  rcases sequencerTurn_execOn h with ⟨_, rfl⟩ | ⟨i, issued, rfl⟩ | ⟨run, _, undispatched, rfl⟩
  · exact .same rfl
  · exact .issued i rest issued
  · obtain ⟨busy, free⟩ := (running_iff _).mp run
    exact .illegal rest busy free undispatched

theorem stepOn_effect {d : Device} {s t : State} (h : stepOn d s = .next t) : StepEffect d s t := by
  rcases turn_next h with ⟨_, turn⟩ | ⟨rest, _, turn⟩ | ⟨o, w, rest, next, _, rfl⟩ | ⟨o, rest, _, _, rfl⟩ |
    ⟨rest, _, rfl⟩ | ⟨mid, rest, next, rfl⟩
  · exact sequencerTurn_effect (rest := s.inputs) turn
  · exact sequencerTurn_effect turn
  · rcases writeReg_cases o w { s with inputs := rest } with ⟨rfl, idle, accepted⟩ | ⟨same, _⟩
    · exact accepted ▸ .accepted w rest next idle
    · exact .same same
  · exact .same rfl
  · exact .same rfl
  · exact .reset mid rest ⟨rest, next⟩

end Sys2Proof.Machine
end

section
/-!
SUPPORT. What is issued and what follows it: a command or a frame by the bit `dispatched`, a frame's effect by the outcome of its
exchange, the frames of a lane element, and the bus events and cells an effect leaves.
-/

namespace Sys2Proof.Machine

/-! ## The frames of a lane element -/

theorem elementFrames_le {p : Phase} {e : Element} (h : elementOf p = some e) : elementFrames e ≤ 7 := by
  cases p <;> cases h <;> decide

theorem elementFrames_pos (e : Element) : (0 : BitVec 3).toNat < elementFrames e := by
  unfold elementFrames
  simp

theorem lanePhase_of_elementOf {p : Phase} {e : Element} (h : elementOf p = some e) : lanePhase p = true := by
  cases p <;> cases h <;> rfl

/-- The statements' table of the March elements is the model's (R154 to R157). -/
theorem elementOf_marchTable {p : Phase} {x : Bool} {ws : List Bool} (h : (p, x, ws) ∈ marchTable) :
    elementOf p = some { expect := x, writes := ws } := by
  simp only [marchTable, List.mem_cons, List.not_mem_nil, Prod.mk.injEq, or_false] at h
  rcases h with ⟨rfl, rfl, rfl⟩ | ⟨rfl, rfl, rfl⟩ | ⟨rfl, rfl, rfl⟩ | ⟨rfl, rfl, rfl⟩ <;> rfl

theorem readAt_odd {e : Element} {j : Nat} (h : 2 * j + 1 < elementFrames e) : readAt e (2 * j + 1) = true := by
  simp only [readAt, h]
  simp

/-- Every FIDX inside an element is a READ's or a WRITE's (R161). -/
theorem readAt_or_writeAt {e : Element} {k : Nat} (h : k < elementFrames e) :
    readAt e k = true ∨ ∃ v, writeAt e k = some v := by
  rcases Nat.even_or_odd' k with ⟨j, rfl | rfl⟩
  · rcases Nat.eq_zero_or_pos j with rfl | later
    · exact .inl rfl
    · have inside : 2 * j / 2 - 1 < e.writes.length := by
        unfold elementFrames at h
        omega
      exact .inr ⟨e.writes[2 * j / 2 - 1], by rw [writeAt, if_pos (by omega), List.getElem?_eq_getElem inside]⟩
  · exact .inl (readAt_odd h)

theorem frameAt_element {l : Latched} {p : Pos} {rmw : Byte} {e : Element} (h : elementOf p.phase = some e) :
    frameAt l p rmw =
      if readAt e p.fidx.toNat then some (.read p.a)
      else (writeAt e p.fidx.toNat).map fun v => .write p.a (zext (writeLane v rmw p.lane)) := by
  obtain ⟨phase, a, lane, fidx⟩ := p
  simp only at h
  cases phase <;> cases h <;> simp only [frameAt, elementOf]
  all_goals
    split
    · rfl
    · cases writeAt _ fidx.toNat <;> rfl

theorem frameAt_element_some {l : Latched} {p : Pos} (rmw : Byte) {e : Element} (h : elementOf p.phase = some e)
    (inside : p.fidx.toNat < elementFrames e) : ∃ i, frameAt l p rmw = some i := by
  rw [frameAt_element h]
  rcases readAt_or_writeAt inside with read | ⟨v, write⟩
  · exact ⟨_, if_pos read⟩
  · rw [write]
    split
    · exact ⟨_, rfl⟩
    · exact ⟨_, rfl⟩

/-- A reached position names a frame: no reserved position is met (R197). -/
theorem frameAt_of_reaches {l : Latched} {p : Pos} (rmw : Byte) (h : Reaches l p) : ∃ i, frameAt l p rmw = some i := by
  cases h with
  | dread opc | dwrite opc | dstatus opc => simp [frameAt, opc, opcDread, opcDwrite, opcDstatus]
  | cbWrite | cbVerify | m0 | sqWrite | sqVerify => exact ⟨_, rfl⟩
  | march p e a b f _ element inside => exact frameAt_element_some rmw element inside
  | melem p e f _ _ _ element inside => exact frameAt_element_some rmw element inside

theorem frameDone_element {e : Element} {s : State} (h : elementOf s.pos.phase = some e) :
    frameDone s = elementFrameDone e s := by
  generalize hp : s.pos.phase = p at h
  cases p <;> cases h <;> simp only [frameDone, hp, elementOf]

theorem afterRead_element {e : Element} {s : State} (r : Byte) (h : elementOf s.pos.phase = some e) :
    afterRead r s = afterElementRead e r s := by
  generalize hp : s.pos.phase = p at h
  cases p <;> cases h <;> simp only [afterRead, hp, elementOf]

/-- FIDX does not wrap at the READ of an element's j-th read-modify-write (R161). -/
theorem rmwRead_fidx {e : Element} {p : Phase} (element : elementOf p = some e) {j : Nat} (h : j < e.writes.length) :
    (BitVec.ofNat 3 (2 * j + 1)).toNat = 2 * j + 1 := by
  have frames := elementFrames_le element
  unfold elementFrames at frames
  rw [BitVec.toNat_ofNat]
  omega

/-- The READ of an element's j-th read-modify-write latches the byte and goes on to its WRITE (R152, R153, R161). -/
theorem afterRead_rmw {e : Element} {s : State} {j : Nat} (r : Byte) (element : elementOf s.pos.phase = some e)
    (fidx : s.pos.fidx = BitVec.ofNat 3 (2 * j + 1)) (h : j < e.writes.length) :
    afterRead r s = moveTo { s.pos with fidx := BitVec.ofNat 3 (2 * j + 2) } { s with rmw := r } := by
  have number : s.pos.fidx.toNat = 2 * j + 1 := fidx ▸ rmwRead_fidx element h
  have past : s.pos.fidx ≠ 0 := fun zero => by simp [zero] at number
  have inside : s.pos.fidx.toNat + 1 < elementFrames e := by
    unfold elementFrames
    omega
  have next : s.pos.fidx + 1 = BitVec.ofNat 3 (2 * j + 2) := by
    rw [fidx]
    exact (BitVec.ofNat_add _ _).symm
  rw [afterRead_element r element, afterElementRead, if_neg past, frameDone_element (s := { s with rmw := r }) element,
    elementFrameDone, if_pos inside, ← next]

/-! ## What is issued -/

/-- A position names only frames (R34). -/
theorem frameAt_isFrame {l : Latched} {p : Pos} {rmw : Byte} {i : Instr} (h : frameAt l p rmw = some i) :
    i.isFrame = true := by
  unfold frameAt at h
  repeat' split at h
  all_goals cases h <;> rfl

/-- What is issued is the latched command before dispatch, and after it the frame at the position (R100). -/
theorem issues_eq_some {s : State} {i : Instr} (h : issues s = some i) :
    s.mode = .busy ∧ s.inFlight = none ∧
      ((s.dispatched = false ∧ i.isFrame = false ∧ s.latched.wordOk = true ∧ decodeOpc s.latched.opc = .ok i) ∨
        (s.dispatched = true ∧ i.isFrame = true ∧ frameAt s.latched s.pos s.rmw = some i)) := by
  obtain ⟨busy, free⟩ := running_of_issues h
  refine ⟨busy, free, ?_⟩
  rw [issues, if_pos ((running_iff s).mpr ⟨busy, free⟩)] at h
  split at h
  · rename_i dispatched
    exact .inr ⟨dispatched, frameAt_isFrame h, h⟩
  · rename_i undispatched
    split at h
    · rename_i j decoded
      obtain rfl := Option.some.inj h
      obtain ⟨wordOk, opcode⟩ := decodeLatched_ok decoded
      refine .inl ⟨by simpa using undispatched, ?_, wordOk, opcode⟩
      rcases decodeOpc_cases opcode with ⟨_, rfl⟩ | ⟨_, rfl⟩ | ⟨_, rfl⟩ | ⟨_, rfl⟩ | ⟨_, rfl⟩ | ⟨_, rfl⟩ | ⟨_, rfl⟩ <;> rfl
    · cases h

/-! ## The effect of a frame -/

/-- The computation that follows frame i, with the last byte of its response; a command has none. -/
def afterFrame : Instr → Byte → State → State
  | .read _, r => afterRead r
  | .write _ _, _ => afterWrite
  | .readStatus, r => finishWith r
  | .dread, _ | .dwrite, _ | .dstatus, _ | .checker, _ | .marchA, _ | .sequence, _ | .melem, _ => id

/-- A frame in range is one exchange, by its outcome (R125 to R127). -/
theorem effectOn_frame (d : Device) {i : Instr} {tx : Frame} (s : State) (h : frameBytes i = some tx) :
    effectOn d i s =
      byOutcome (exchange d s.history tx) tx s (fun r => afterFrame i r (counted tx s)) (transportError i tx s) := by
  rcases frameBytes_cases h with ⟨a, rfl, ha, rfl⟩ | ⟨a, v, rfl, ha, hv, rfl⟩ | ⟨rfl, rfl⟩
  · exact busRead_inRange d s ha
  · exact busWrite_inRange d s ha hv
  · exact exchangeThen_eq d .readStatus encStatus finishWith s

/-- A frame without bytes is refused by the range check (R120, R121). -/
theorem effectOn_outOfRange (d : Device) {i : Instr} (s : State) (isFrame : i.isFrame = true)
    (h : frameBytes i = none) : ∃ sel, effectOn d i s = rangeError i sel s := by
  cases i with
  | read a =>
    rcases busRead_cases d a s with ⟨_, refused⟩ | ⟨ha, _⟩
    · exact ⟨_, refused⟩
    · rw [frameBytes_read ha] at h
      cases h
  | write a v =>
    rcases busWrite_cases d a v s with ⟨_, refused⟩ | ⟨_, _, refused⟩ | ⟨ha, hv, _⟩
    · exact ⟨_, refused⟩
    · exact ⟨_, refused⟩
    · rw [frameBytes_write ha hv] at h
      cases h
  | readStatus => cases h
  | dread | dwrite | dstatus | checker | marchA | sequence | melem => cases isFrame

/-- A transport error in the statements' words (R222). -/
theorem transportError_eq (i : Instr) (tx : Frame) (s : State) :
    transportError i tx s =
      ended .transportError (whereIn (frameInfo i).kind false s) (frameInfo i).addr (frameInfo i).exp 0 0
        (lost tx s) := by
  have record : failWhereOf .transportError (frameInfo i) s = whereIn (frameInfo i).kind false s := by
    by_cases checker : s.latched.opc = 0x4 <;>
      simp only [failWhereOf, whereIn, recordsFailure, opcChecker, checker, decide_true, decide_false] <;> rfl
  rw [← record]
  rfl

/-- Inside a lane element FAIL_WHERE has the lane and FIDX (R28). -/
theorem whereIn_lane {opc : BitVec 4} {p : Pos} {s : State} (kind : FrameKind) (opcode : s.latched.opc = opc)
    (position : s.pos = p) (lane : lanePhase p.phase = true) (notChecker : opc ≠ 0x4) :
    whereIn kind false s = laneWhere opc p kind := by
  subst opcode position
  simp only [whereIn, laneWhere, FailWhere.zero, lane, if_true, if_neg notChecker]

/-! ## Bus events and cells -/

/-- A dispatch leaves the bus alone (R13, R100). -/
theorem start_bus (d : Device) {i : Instr} (s : State) (h : i.isFrame = false) :
    (effectOn d i s).history = s.history ∧ (effectOn d i s).txnCount = s.txnCount := by
  rcases start_form i d s h with ⟨p, h⟩ | ⟨c, info, _, _, h⟩ <;> rw [h] <;> exact ⟨rfl, rfl⟩

/-- A frame adds no bus event, a failed one that is not counted, or an exchanged one that is (R32). -/
theorem frame_bus (d : Device) {i : Instr} (s : State) (h : i.isFrame = true) :
    ((effectOn d i s).history = s.history ∧ (effectOn d i s).txnCount = s.txnCount) ∨
    ∃ tx, frameBytes i = some tx ∧
      (((effectOn d i s).history = .failed tx :: s.history ∧ (effectOn d i s).txnCount = s.txnCount) ∨
        ((effectOn d i s).history = .exchanged tx :: s.history ∧ (effectOn d i s).txnCount = s.txnCount + 1)) := by
  rcases frame_form i d s h with ⟨_, info, h⟩ | ⟨tx, sent, h | ⟨info, h⟩ | ⟨s1, from_s, h⟩⟩
  · rw [h]
    exact .inl ⟨rfl, rfl⟩
  · rw [h]
    exact .inl ⟨rfl, rfl⟩
  · rw [h]
    exact .inr ⟨tx, sent, .inl ⟨rfl, rfl⟩⟩
  · have bus : s1.history = .exchanged tx :: s.history ∧ s1.txnCount = s.txnCount + 1 := by
      rcases from_s with rfl | ⟨r, _, _, _, rfl⟩ <;> exact ⟨rfl, rfl⟩
    refine .inr ⟨tx, sent, .inr ?_⟩
    rcases h with ⟨p, h⟩ | ⟨c, info, _, _, _, h⟩ <;> rw [h] <;> exact bus

/-- An exchanged frame changes the cell a WRITE addresses, and no other (R38, R60, R68). -/
theorem cellAfter_exchanged (start : Word → Byte) {i : Instr} {tx : Frame} (sent : frameBytes i = some tx)
    (h : History) (c : Word) :
    ((∀ a v, i = .write a v → c ≠ a) → cellAfter start (.exchanged tx :: h) c = cellAfter start h c) ∧
      ∀ v, i = .write c v → cellAfter start (.exchanged tx :: h) c = v.extractLsb' 0 8 := by
  rcases frameBytes_cases sent with ⟨a, rfl, ha, rfl⟩ | ⟨a, v, rfl, ha, hv, rfl⟩ | ⟨rfl, rfl⟩
  · exact ⟨fun _ => cellAfter_read start ha h c, fun _ e => by cases e⟩
  · have written : cellAfter start (.exchanged (writeFrame a v) :: h) c =
        if a = c then v.extractLsb' 0 8 else cellAfter start h c := cellAfter_write start ha hv h c
    refine ⟨fun other => written.trans (if_neg fun e => other a v rfl e.symm), fun u e => ?_⟩
    obtain ⟨rfl, rfl⟩ := Instr.write.inj e
    exact written.trans (if_pos rfl)
  · exact ⟨fun _ => rfl, fun _ e => by cases e⟩

/-- An effect that is not one counted exchange leaves every cell (log 16). -/
theorem effect_cells (d : Device) (i : Instr) (s : State) (start : Word → Byte) :
    ((∀ c, cellAfter start (effectOn d i s).history c = cellAfter start s.history c) ∧
      (effectOn d i s).txnCount = s.txnCount) ∨
    ∃ tx, frameBytes i = some tx ∧ (effectOn d i s).history = .exchanged tx :: s.history ∧
      (effectOn d i s).txnCount = s.txnCount + 1 := by
  cases isFrame : i.isFrame with
  | false =>
    obtain ⟨history, count⟩ := start_bus d s isFrame
    exact .inl ⟨fun c => by rw [history], count⟩
  | true =>
    rcases frame_bus d s isFrame with ⟨history, count⟩ | ⟨tx, sent, ⟨history, count⟩ | exchanged⟩
    · exact .inl ⟨fun c => by rw [history], count⟩
    · exact .inl ⟨fun c => by rw [history, cellAfter_failed], count⟩
    · exact .inr ⟨tx, sent, exchanged⟩

/-- IdealMemory answers every frame with as many bytes, the last one by what the frame asks (R38). -/
theorem exchange_idealMemory (start : Word → Byte) (status : Byte) (filler : History → Frame → Nat → Byte)
    (h : History) (tx : Frame) (sent : tx ≠ []) :
    ∃ rx, exchange (idealMemory start status filler) h tx = .ok rx ∧ rx.length = tx.length ∧
      rx.getLastD 0 = answerByte (cellAfter start h) status (filler h tx (tx.length - 1)) (decodeFrame tx) := by
  refine ⟨_, rfl, ?_, ?_⟩
  · have : 0 < tx.length := List.length_pos_iff.mpr sent
    simp only [idealMemory, List.length_append, List.length_map, List.length_range, List.length_singleton]
    omega
  · simp only [idealMemory, List.getLastD_concat]

/-- Without a reset, a step adds no bus event, or one, by a dispatched command that was BUSY (R71, R128). -/
theorem stepOn_bus {d : Device} {s t : State} (h : stepOn d s = .next t) (noReset : ¬ ResetNext s) :
    (t.history = s.history ∧
      (t.txnCount = s.txnCount ∨
        ∃ w rest, s.inputs = .write 0x00 .word w :: rest ∧ s.mode = .idle ∧ t.txnCount = 0)) ∨
    ((s.mode = .busy ∧ s.dispatched = true ∧ s.inFlight = none) ∧
      ∃ tx, (t.history = .failed tx :: s.history ∧ t.txnCount = s.txnCount) ∨
        (t.history = .exchanged tx :: s.history ∧ t.txnCount = s.txnCount + 1)) := by
  cases stepOn_effect h with
  | reset mid rest next => exact absurd next noReset
  | same same => exact .inl ⟨same.history, .inl same.txnCount⟩
  | accepted w rest next idle => exact .inl ⟨rfl, .inr ⟨w, rest, next, idle, rfl⟩⟩
  | illegal rest => exact .inl ⟨rfl, .inl rfl⟩
  | issued i rest issued =>
    obtain ⟨busy, free, ⟨_, isCommand, _⟩ | ⟨dispatched, isFrame, _⟩⟩ := issues_eq_some issued
    · obtain ⟨history, count⟩ := start_bus d { s with inputs := rest } isCommand
      exact .inl ⟨history, .inl count⟩
    · rcases frame_bus d { s with inputs := rest } isFrame with ⟨history, count⟩ | ⟨tx, _, event⟩
      · exact .inl ⟨history, .inl count⟩
      · exact .inr ⟨⟨busy, dispatched, free⟩, tx, event⟩

end Sys2Proof.Machine
end

section
/-!
SUPPORT. The work left to a command: a number that every advance of the position makes smaller (spec/42_algorithms.md R180 to
R183, R197). It counts the fields of the position, phase first, and needs no bound on the operands.
-/

namespace Sys2Proof.Machine

/-- The addresses that a phase's sweep can still visit after `a`, whatever its size. -/
def addressesLeft (p : Phase) (a : Word) : Nat := if descending p then a.toNat else 2 ^ 32 - 1 - a.toNat

/-- The lanes that a phase still visits after `b` at one address. -/
def lanesLeft (p : Phase) (b : BitVec 3) : Nat := if descending p then b.toNat else 7 - b.toNat

/-- The position as one number, by phase, address, lane and FIDX, in that order. -/
def framesLeft (p : Pos) : Nat :=
  (phasesAfter p.phase).length * 2 ^ 38 + addressesLeft p.phase p.a * 2 ^ 6 + lanesLeft p.phase p.lane * 2 ^ 3 +
    (7 - p.fidx.toNat)

/-- The work left to the latched command: more before its dispatch than at any position. -/
def workLeft (s : State) : Nat := if s.dispatched then framesLeft s.pos else 2 ^ 41

theorem addressesLeft_lt (p : Phase) (a : Word) : addressesLeft p a < 2 ^ 32 := by
  unfold addressesLeft
  split <;> omega

theorem lanesLeft_lt (p : Phase) (b : BitVec 3) : lanesLeft p b < 2 ^ 3 := by
  unfold lanesLeft
  split <;> omega

theorem framesLeft_lt (p : Pos) : framesLeft p < 2 ^ 41 := by
  have addresses := addressesLeft_lt p.phase p.a
  have lanes := lanesLeft_lt p.phase p.lane
  have phases : (phasesAfter p.phase).length ≤ 4 := by cases p.phase <;> decide
  unfold framesLeft
  omega

theorem framesLeft_lt_of_phase {p q : Pos} (h : (phasesAfter p.phase).length < (phasesAfter q.phase).length) :
    framesLeft p < framesLeft q := by
  have addresses := addressesLeft_lt p.phase p.a
  have lanes := lanesLeft_lt p.phase p.lane
  unfold framesLeft
  omega

theorem framesLeft_lt_of_address {p q : Pos} (phase : p.phase = q.phase)
    (h : addressesLeft q.phase p.a < addressesLeft q.phase q.a) : framesLeft p < framesLeft q := by
  have lanes := lanesLeft_lt q.phase p.lane
  unfold framesLeft
  rw [phase]
  omega

theorem framesLeft_lt_of_lane {p q : Pos} (phase : p.phase = q.phase) (address : p.a = q.a)
    (h : lanesLeft q.phase p.lane < lanesLeft q.phase q.lane) : framesLeft p < framesLeft q := by
  unfold framesLeft
  rw [phase, address]
  omega

/-- The sweep's counter never wraps, so the next address leaves fewer (R180). -/
theorem nextAddress_left {p : Phase} {n a b : Word} (h : nextAddress p n a = some b) :
    addressesLeft p b < addressesLeft p a := by
  unfold nextAddress at h
  unfold addressesLeft
  split at h
  · rename_i down
    split at h
    · cases h
    · rename_i notLast
      obtain rfl := Option.some.inj h
      have : a.toNat ≠ 0 := fun e => notLast (BitVec.eq_of_toNat_eq e)
      rw [if_pos down, if_pos down]
      bv_omega
  · rename_i up
    split at h
    · rename_i notLast
      obtain rfl := Option.some.inj h
      rw [if_neg up, if_neg up, toNat_add_one notLast (by omega)]
      omega
    · cases h

theorem nextLane_left {p : Phase} {b c : BitVec 3} (h : nextLane p b = some c) : lanesLeft p c < lanesLeft p b := by
  unfold nextLane at h
  unfold lanesLeft
  split at h
  · rename_i down
    split at h
    · cases h
    · obtain rfl := Option.some.inj h
      rw [if_pos down, if_pos down]
      bv_omega
  · rename_i up
    split at h
    · cases h
    · obtain rfl := Option.some.inj h
      rw [if_neg up, if_neg up]
      bv_omega

theorem enterPhases_phase (ps : List Phase) (s : State) :
    enterPhases ps s = finish s ∨ (enterPhases ps s).pos.phase ∈ ps := by
  induction ps with
  | nil => exact .inl rfl
  | cons p ps ih =>
    unfold enterPhases
    split
    · exact ih.imp id (List.mem_cons_of_mem p)
    · exact .inr List.mem_cons_self

theorem phasesAfter_shorter {p q : Phase} (h : q ∈ phasesAfter p) :
    (phasesAfter q).length < (phasesAfter p).length := by
  cases p <;> revert q <;> decide

theorem addressDone_left (s : State) :
    addressDone s = finish s ∨ framesLeft (addressDone s).pos < framesLeft s.pos := by
  unfold addressDone
  split
  · rename_i a next
    exact .inr (framesLeft_lt_of_address rfl (nextAddress_left next))
  · rcases enterPhases_phase (phasesAfter s.pos.phase) s with ended | later
    · exact .inl ended
    · exact .inr (framesLeft_lt_of_phase (phasesAfter_shorter later))

theorem elementDone_left (s : State) :
    elementDone s = finish s ∨ framesLeft (elementDone s).pos < framesLeft s.pos := by
  unfold elementDone
  split
  · exact .inl rfl
  · split
    · rename_i b next
      exact .inr (framesLeft_lt_of_lane rfl rfl (nextLane_left next))
    · exact addressDone_left s

theorem elementFrameDone_left {e : Element} {s : State} (h : elementOf s.pos.phase = some e) :
    elementFrameDone e s = finish s ∨ framesLeft (elementFrameDone e s).pos < framesLeft s.pos := by
  unfold elementFrameDone
  split
  · have frames := elementFrames_le h
    have next : (s.pos.fidx + 1).toNat = s.pos.fidx.toNat + 1 := by
      rw [BitVec.toNat_add]
      simp
      omega
    refine .inr ?_
    simp only [moveTo_pos, framesLeft, next]
    omega
  · exact elementDone_left s

/-- Every advance ends the command or leaves less (R197). -/
theorem frameDone_left (s : State) : frameDone s = finish s ∨ framesLeft (frameDone s).pos < framesLeft s.pos := by
  cases h : elementOf s.pos.phase with
  | some e =>
    rw [frameDone_element h]
    exact elementFrameDone_left h
  | none =>
    cases hp : s.pos.phase with
    | none => exact .inl (by simp only [frameDone, hp])
    | cbWrite | cbVerify | m0 | sqWrite | sqVerify =>
      have done : frameDone s = addressDone s := by simp only [frameDone, hp]
      rw [done]
      exact addressDone_left s
    | m1 | m2 | m3 | m4 =>
      rw [hp] at h
      cases h

end Sys2Proof.Machine
end

section
/-!
SUPPORT. The invariant of the block (spec/10_state.md R42, spec/42_algorithms.md R197): what is issued stops the command, takes
it on, or is never answered, and each of the three keeps the invariant.
-/

namespace Sys2Proof.Machine

/-! ## A command stops -/

/-- What a termination may put into RESULT and FAIL_OBS is one byte (R26, R27). -/
def Info.Bytes (info : Info) : Prop := info.obs.toNat ≤ 0xFF ∧ info.result.toNat ≤ 0xFF

/-- t is what a termination under a named code leaves, with the bus port free (R229). -/
def Stopped (t : State) : Prop :=
  ∃ c info s, c ≠ Code.none ∧ Info.Bytes info ∧ s.inFlight = none ∧ t = terminate c info s

theorem terminate_notBusy (c : Code) (info : Info) (s : State) : (terminate c info s).mode ≠ .busy := by
  rw [terminate_mode]
  split <;> decide

theorem Stopped.ended {t : State} (h : Stopped t) : t.mode ≠ .busy ∧ t.done = true := by
  obtain ⟨c, info, s, _, _, _, rfl⟩ := h
  exact ⟨terminate_notBusy c info s, rfl⟩

theorem zext_le (b : Byte) : (zext b).toNat ≤ 0xFF := by
  rw [zext, BitVec.toNat_setWidth]
  omega

theorem empty_bytes : Info.Bytes Info.empty := ⟨Nat.zero_le _, Nat.zero_le _⟩

theorem frameInfo_bytes (i : Instr) : Info.Bytes (frameInfo i) := by
  cases i <;> exact ⟨Nat.zero_le _, Nat.zero_le _⟩

theorem stopped_terminate {c : Code} {info : Info} {s : State} (named : c ≠ .none) (bytes : Info.Bytes info)
    (free : s.inFlight = none) : Stopped (terminate c info s) := ⟨c, info, s, named, bytes, free, rfl⟩

theorem stopped_finish {s : State} (free : s.inFlight = none) : Stopped (finish s) :=
  stopped_terminate (by decide) empty_bytes free

theorem stopped_finishWith (r : Byte) {s : State} (free : s.inFlight = none) : Stopped (finishWith r s) :=
  stopped_terminate (by decide) ⟨Nat.zero_le _, zext_le r⟩ free

theorem stopped_verifyFail (x : Word) (r : Byte) {s : State} (free : s.inFlight = none) :
    Stopped (verifyFail x r s) :=
  stopped_terminate (by decide) ⟨zext_le r, Nat.zero_le _⟩ free

theorem stopped_rangeError (i : Instr) (sel : RangeSel) {s : State} (free : s.inFlight = none) :
    Stopped (rangeError i sel s) :=
  stopped_terminate (by decide) (frameInfo_bytes i) free

theorem stopped_transportError (i : Instr) (tx : Frame) {s : State} (free : s.inFlight = none) :
    Stopped (transportError i tx s) :=
  stopped_terminate (by decide) (frameInfo_bytes i) free

/-! ## A command goes on -/

/-- The command of s goes on in t: it stands at a reached position with less work left, and its results are untouched. -/
structure Onward (s t : State) : Prop where
  busy : t.mode = .busy
  free : t.inFlight = none
  dispatched : t.dispatched = true
  results : SameResults s t
  latched : t.latched = s.latched
  reached : Reaches t.latched t.pos
  lessWork : workLeft t < workLeft s

/-- The bus events, their count and the latched byte play no part in how a command goes on. -/
theorem Onward.of_exchange {s t : State} {n : Word} {h : History} {r : Byte}
    (o : Onward { s with txnCount := n, history := h, rmw := r } t) : Onward s t :=
  ⟨o.busy, o.free, o.dispatched, o.results, o.latched, o.reached, o.lessWork⟩

/-! ## Dispatch -/

theorem onward_dispatch {s : State} {p : Pos} (busy : s.mode = .busy) (free : s.inFlight = none)
    (undispatched : s.dispatched = false) (reached : Reaches s.latched p) :
    Onward s (moveTo p (markDispatched s)) where
  busy := busy
  free := free
  dispatched := rfl
  results := ⟨rfl, rfl, rfl, rfl, rfl, rfl, rfl⟩
  latched := rfl
  reached := reached
  lessWork := by
    simp only [workLeft, moveTo_dispatched, markDispatched_dispatched, moveTo_pos, undispatched, if_true]
    exact framesLeft_lt p

/-- An empty sweep has no frame in any phase (R180). -/
theorem enterPhases_empty (ps : List Phase) {s : State} (h : s.latched.size = 0) : enterPhases ps s = finish s := by
  induction ps with
  | nil => rfl
  | cons p ps ih =>
    rw [enterPhases, firstAddress, if_pos h]
    exact ih

theorem enterPhases_ascending {p : Phase} (ps : List Phase) {s : State} (up : descending p = false)
    (h : s.latched.size ≠ 0) :
    enterPhases (p :: ps) s = moveTo { phase := p, a := 0, lane := 0, fidx := 0 } s := by
  rw [enterPhases, firstAddress, if_neg h, firstLane, up]
  rfl

theorem size_pos {l : Latched} (h : l.size ≠ 0) : (0 : Word).toNat < l.size.toNat := by
  have : l.size.toNat ≠ 0 := fun e => h (BitVec.eq_of_toNat_eq e)
  simp
  omega

/-- An algorithm's dispatch ends PASS for an empty sweep, and else stands at the first position (R185, R188, R194). -/
theorem enterPhases_dispatch {p : Phase} (ps : List Phase) {s : State} (busy : s.mode = .busy)
    (free : s.inFlight = none) (undispatched : s.dispatched = false) (up : descending p = false)
    (reached : s.latched.size ≠ 0 → Reaches s.latched { phase := p, a := 0, lane := 0, fidx := 0 }) :
    Stopped (enterPhases (p :: ps) (markDispatched s)) ∨ Onward s (enterPhases (p :: ps) (markDispatched s)) := by
  by_cases empty : s.latched.size = 0
  · rw [enterPhases_empty _ (s := markDispatched s) empty]
    exact .inl (stopped_finish free)
  · rw [enterPhases_ascending ps (s := markDispatched s) up empty]
    exact .inr (onward_dispatch busy free undispatched (reached empty))

theorem stepLegal_iff (step : Word) : stepLegal step = true ↔ step = 1 ∨ step = 2 := by
  simp [stepLegal]

theorem melemPhase_some {l : Latched} {p : Phase} (h : melemPhase l = some p) :
    l.lane.toNat ≤ 7 ∧ phaseOf l.elem = some p := by
  unfold melemPhase at h
  split at h
  · rename_i legal
    exact ⟨by simpa [laneLegal, BitVec.le_def] using legal, h⟩
  · cases h

theorem elementOf_phaseOf {elem : Word} {p : Phase} (h : phaseOf elem = some p) : ∃ e, elementOf p = some e := by
  unfold phaseOf at h
  split_ifs at h <;> cases h <;> exact ⟨_, rfl⟩

/-- A dispatch stops the command or takes it to its first position (R129 to R131, R160, R185, R188, R194). -/
theorem dispatch_cases (d : Device) {s : State} {i : Instr} (busy : s.mode = .busy) (free : s.inFlight = none)
    (undispatched : s.dispatched = false) (opcode : decodeOpc s.latched.opc = .ok i) :
    Stopped (effectOn d i s) ∨ Onward s (effectOn d i s) := by
  have badParam : Stopped (terminate .badParam Info.empty (markDispatched s)) :=
    stopped_terminate (by decide) empty_bytes free
  rcases decodeOpc_cases opcode with ⟨opc, rfl⟩ | ⟨opc, rfl⟩ | ⟨opc, rfl⟩ | ⟨opc, rfl⟩ | ⟨opc, rfl⟩ | ⟨opc, rfl⟩ |
    ⟨opc, rfl⟩ <;> rw [effectOn]
  · exact .inr (onward_dispatch busy free undispatched (.dread opc))
  · exact .inr (onward_dispatch busy free undispatched (.dwrite opc))
  · exact .inr (onward_dispatch busy free undispatched (.dstatus opc))
  · rw [startChecker]
    split
    · rename_i legal
      exact enterPhases_dispatch _ busy free undispatched rfl fun nonempty =>
        .cbWrite 0 opc ((stepLegal_iff _).mp legal) (size_pos nonempty) (by decide)
    · exact .inl badParam
  · exact enterPhases_dispatch _ busy free undispatched rfl fun nonempty => .m0 0 opc (size_pos nonempty) (by decide)
  · exact enterPhases_dispatch _ busy free undispatched rfl fun nonempty =>
      .sqWrite 0 opc (size_pos nonempty) (by decide) (absurd rfl)
  · rw [startMelem]
    split
    · rename_i p legal
      obtain ⟨lane, phase⟩ := melemPhase_some legal
      obtain ⟨e, element⟩ := elementOf_phaseOf phase
      exact .inr (onward_dispatch busy free undispatched
        (.melem p e 0 opc lane phase element (elementFrames_pos e) (absurd rfl)))
    · exact .inl badParam

/-! ## A frame -/

theorem frameDone_onward {s : State} (busy : s.mode = .busy) (free : s.inFlight = none)
    (dispatched : s.dispatched = true) (reached : Reaches s.latched s.pos) (ha : s.pos.a.toNat ≤ 0xFFFF)
    (hd : s.pos.phase = .sqWrite → s.latched.data.toNat ≤ 0xFF) : Stopped (frameDone s) ∨ Onward s (frameDone s) := by
  rcases frameDone_left s with ended | less
  · rw [ended]
    exact .inl (stopped_finish free)
  · rcases frameDone_reaches s ha reached hd with ended | ⟨p, next, moved⟩
    · rw [ended]
      exact .inl (stopped_finish free)
    · rw [moved] at less ⊢
      refine .inr ⟨busy, free, dispatched, ⟨rfl, rfl, rfl, rfl, rfl, rfl, rfl⟩, rfl, next, ?_⟩
      simp only [workLeft, moveTo_dispatched, dispatched, if_true]
      exact less

/-- What follows an exchanged frame stops the command or takes it on (R197). -/
theorem afterFrame_cases (i : Instr) (r : Byte) {s : State} (busy : s.mode = .busy) (free : s.inFlight = none)
    (dispatched : s.dispatched = true) (reached : Reaches s.latched s.pos)
    (named : frameAt s.latched s.pos s.rmw = some i) {tx : Frame} (fits : frameBytes i = some tx) :
    Stopped (afterFrame i r s) ∨ Onward s (afterFrame i r s) := by
  obtain ⟨ofRead, ofWrite, _⟩ := frameAt_operands reached named
  rcases frameBytes_cases fits with ⟨a, rfl, ha, _⟩ | ⟨a, v, rfl, ha, hv, _⟩ | ⟨rfl, _⟩
  · obtain ⟨rfl, notSqWrite⟩ := ofRead a rfl
    rcases afterRead_cases r s with ⟨_, h⟩ | ⟨x, h⟩ | h | ⟨_, _, h⟩ <;> simp only [afterFrame, h]
    · exact .inl (stopped_finishWith r free)
    · exact .inl (stopped_verifyFail x r free)
    · exact frameDone_onward busy free dispatched reached ha (absurd · notSqWrite)
    · exact (frameDone_onward (s := { s with rmw := r }) busy free dispatched reached ha (absurd · notSqWrite)).imp id
        Onward.of_exchange
  · obtain ⟨rfl, datum⟩ := ofWrite a v rfl
    exact frameDone_onward busy free dispatched reached ha fun phase => datum phase ▸ hv
  · exact .inl (stopped_finishWith r free)

/-- The frame i of s is sent and never answered: it stays in flight (R123, R227). -/
def NoAnswer (d : Device) (i : Instr) (s : State) : Prop :=
  ∃ tx, s.dispatched = true ∧ frameAt s.latched s.pos s.rmw = some i ∧ frameBytes i = some tx ∧
    exchange d s.history tx = .noAnswer ∧ effectOn d i s = { s with inFlight := some tx }

/-- Everything an issued instruction can do in a state of the invariant. -/
theorem effectOn_cases (d : Device) {s : State} {i : Instr} (inv : BlockInvariant s) (h : issues s = some i) :
    Stopped (effectOn d i s) ∨ Onward s (effectOn d i s) ∨ NoAnswer d i s := by
  obtain ⟨busy, free, ⟨undispatched, _, _, opcode⟩ | ⟨dispatched, isFrame, named⟩⟩ := issues_eq_some h
  · exact (dispatch_cases d busy free undispatched opcode).imp id .inl
  · obtain ⟨_, reached⟩ := inv.onTrack busy dispatched
    cases sent : frameBytes i with
    | none =>
      obtain ⟨sel, refused⟩ := effectOn_outOfRange d s isFrame sent
      rw [refused]
      exact .inl (stopped_rangeError i sel free)
    | some tx =>
      have effect := effectOn_frame d s sent
      have failure : Stopped (transportError i tx s) := stopped_transportError i tx free
      have after : ∀ r, Stopped (afterFrame i r (counted tx s)) ∨ Onward s (afterFrame i r (counted tx s)) := fun r =>
        (afterFrame_cases i r (s := counted tx s) busy free dispatched reached named sent).imp id Onward.of_exchange
      cases outcome : exchange d s.history tx with
      | noAnswer =>
        rw [outcome] at effect
        exact .inr (.inr ⟨tx, dispatched, named, sent, outcome, effect⟩)
      | err =>
        rw [effect, outcome]
        exact .inl failure
      | ok rx =>
        rw [effect, outcome, byOutcome]
        split
        · exact (after _).imp id .inl
        · exact .inl failure

/-! ## What keeps the invariant -/

/-- The result registers as acceptance leaves them (R42, R43). -/
def ResultsClear (s : State) : Prop :=
  s.done = false ∧ s.code = .none ∧ s.result = 0 ∧ s.failWhere = FailWhere.zero ∧ s.failAddr = 0 ∧ s.failExp = 0 ∧
    s.failObs = 0

theorem ResultsClear.of_same {s t : State} (clear : ResultsClear s) (same : SameResults s t) : ResultsClear t := by
  obtain ⟨done, code, result, failWhere, failAddr, failExp, failObs⟩ := same
  rw [ResultsClear, done, code, result, failWhere, failAddr, failExp, failObs]
  exact clear

theorem portFree_of_notBusy {s : State} (inv : BlockInvariant s) (h : s.mode ≠ .busy) : s.inFlight = none := by
  cases inFlight : s.inFlight with
  | none => rfl
  | some tx => exact absurd (inv.portFrame tx inFlight).1 h

theorem SameCommand.invariant {s t : State} (h : SameCommand s t) (inv : BlockInvariant s) : BlockInvariant t := by
  rw [h]
  exact ⟨inv.busyClear, inv.beforeDispatch, inv.onTrack, inv.portFrame, inv.halted, inv.doneCode, inv.record⟩

/-- A termination restores the invariant whatever came before it. -/
theorem invariant_stopped {t : State} (h : Stopped t) : BlockInvariant t := by
  have notBusy := h.ended.1
  obtain ⟨c, info, s, named, ⟨obs, result⟩, free, rfl⟩ := h
  refine ⟨fun busy => absurd busy notBusy, fun busy => absurd busy notBusy, fun busy => absurd busy notBusy,
    fun tx inFlight => ?_, ?_, ?_, fun plain => ?_, fun notFail => if_neg notFail, fun notPass => ?_, ?_, ?_⟩
  · rw [terminate_inFlight, free] at inFlight
    cases inFlight
  · rw [terminate_mode, terminate_code]
    by_cases failed : c = .transportError
    · exact ⟨fun _ => failed, fun _ => if_pos failed⟩
    · rw [if_neg failed]
      exact ⟨fun idle => (by cases idle), fun e => absurd e failed⟩
  · simp [named]
  · rw [terminate_code] at plain
    simp [plain]
  · rw [terminate_code] at notPass
    simp [notPass]
  · rw [terminate_failObs]
    split
    · exact obs
    · exact Nat.zero_le _
  · rw [terminate_result]
    split
    · exact result
    · exact Nat.zero_le _

/-- The invariant of a BUSY block whose bus port is free. -/
theorem invariant_running {t : State} (busy : t.mode = .busy) (clear : ResultsClear t)
    (before : t.dispatched = false → t.pos = Pos.start ∧ t.txnCount = 0)
    (track : t.dispatched = true → t.latched.wordOk = true ∧ Reaches t.latched t.pos) (free : t.inFlight = none) :
    BlockInvariant t := by
  obtain ⟨done, code, result, _, failAddr, failExp, failObs⟩ := id clear
  refine ⟨fun _ => clear, fun _ undispatched => ?_, fun _ => track, fun tx inFlight => ?_, ?_, ?_, ?_⟩
  · obtain ⟨pos, txnCount⟩ := before undispatched
    exact ⟨pos, txnCount, free⟩
  · rw [free] at inFlight
    cases inFlight
  · rw [busy, code]
    decide
  · rw [done, code]
    decide
  · rw [result, failAddr, failExp, failObs]
    exact ⟨fun _ => ⟨rfl, rfl⟩, fun _ => rfl, fun _ => rfl, Nat.zero_le _, Nat.zero_le _⟩

theorem invariant_accept (w : Word) {s : State} (inv : BlockInvariant s) (idle : s.mode = .idle) :
    BlockInvariant (accept w s) :=
  invariant_running rfl ⟨rfl, rfl, rfl, rfl, rfl, rfl, rfl⟩ (fun _ => ⟨rfl, rfl⟩)
    (fun dispatched => by cases dispatched) (portFree_of_notBusy (s := s) inv (by rw [idle]; decide))

theorem invariant_onward {s t : State} (inv : BlockInvariant s) (busy : s.mode = .busy)
    (wordOk : s.latched.wordOk = true) (h : Onward s t) : BlockInvariant t :=
  invariant_running h.busy (ResultsClear.of_same (inv.busyClear busy) h.results)
    (fun undispatched => by rw [h.dispatched] at undispatched; cases undispatched)
    (fun _ => ⟨h.latched ▸ wordOk, h.reached⟩) h.free

theorem invariant_noAnswer {d : Device} {i : Instr} {s : State} (inv : BlockInvariant s) (busy : s.mode = .busy)
    (h : NoAnswer d i s) : BlockInvariant (effectOn d i s) := by
  obtain ⟨tx, dispatched, named, sent, _, effect⟩ := h
  rw [effect]
  refine ⟨inv.busyClear, fun _ undispatched => ?_, inv.onTrack, ?_, inv.halted, inv.doneCode, inv.record⟩
  · rw [dispatched] at undispatched
    cases undispatched
  · intro sentFrame inFlight
    obtain rfl := Option.some.inj inFlight
    exact ⟨busy, i, named, sent⟩

theorem invariant_atReset : BlockInvariant State.reset where
  busyClear h := by cases h
  beforeDispatch h := by cases h
  onTrack h := by cases h
  portFrame _ h := by cases h
  halted := by decide
  doneCode := by decide
  record := by decide

theorem invariant_reset (mid : Bool) (s : State) : BlockInvariant (resetBlock mid s) :=
  have inv := invariant_atReset
  ⟨inv.busyClear, inv.beforeDispatch, inv.onTrack, inv.portFrame, inv.halted, inv.doneCode, inv.record⟩

theorem wordOk_of_issues {s : State} {i : Instr} (inv : BlockInvariant s) (h : issues s = some i) :
    s.latched.wordOk = true := by
  obtain ⟨busy, _, ⟨_, _, wordOk, _⟩ | ⟨dispatched, _⟩⟩ := issues_eq_some h
  · exact wordOk
  · exact (inv.onTrack busy dispatched).1

theorem invariant_effectOn (d : Device) {s : State} {i : Instr} (inv : BlockInvariant s) (h : issues s = some i) :
    BlockInvariant (effectOn d i s) := by
  have busy := (running_of_issues h).1
  rcases effectOn_cases d inv h with stopped | onward | silent
  · exact invariant_stopped stopped
  · exact invariant_onward inv busy (wordOk_of_issues inv h) onward
  · exact invariant_noAnswer inv busy silent

/-- Every step keeps the invariant, on any device. -/
theorem stepOn_keeps_invariant {d : Device} {s t : State} (inv : BlockInvariant s) (h : stepOn d s = .next t) :
    BlockInvariant t := by
  have popped : ∀ rest, BlockInvariant { s with inputs := rest } := fun _ => SameCommand.invariant rfl inv
  cases stepOn_effect h with
  | reset mid rest => exact invariant_reset mid _
  | same same => exact same.invariant inv
  | accepted w rest _ idle => exact invariant_accept w (popped rest) idle
  | issued i rest issued => exact invariant_effectOn d (popped rest) issued
  | illegal rest _ free => exact invariant_stopped (stopped_terminate (by decide) empty_bytes free)

/-- In a state of the invariant the sequencer's turn always has a next state: no reserved position is met (R197). -/
theorem sequencerTurn_total (d : Device) {s : State} (inv : BlockInvariant s) :
    ∃ t, sequencerTurn (execOn d) s = .next t := by
  cases run : running s with
  | false => exact ⟨s, by simp [sequencerTurn, run]⟩
  | true =>
    obtain ⟨busy, free⟩ := (running_iff s).mp run
    cases issued : issues s with
    | some i =>
      rw [sequencerTurn_issued (execOn d) issued]
      exact ⟨_, execOn_issued d issued⟩
    | none =>
      cases dispatched : s.dispatched with
      | false =>
        have refusedWord : sequencerTurn (execOn d) s = .next (terminate .illegalCmd Info.empty s) := by
          simp [sequencerTurn, run, issued, dispatched]
        exact ⟨_, refusedWord⟩
      | true =>
        obtain ⟨i, named⟩ := frameAt_of_reaches s.rmw (inv.onTrack busy dispatched).2
        rw [issues_of_frameAt busy free dispatched named] at issued
        cases issued

end Sys2Proof.Machine
end

section
/-!
SUPPORT. How a command comes to an end where every exchange is answered (spec/70_reset_and_hazards.md R269): each turn of the
sequencer leaves less work, and before the turn comes each host access shortens the wait.
-/

namespace Sys2Proof.Machine

/-- How many steps come before the sequencer's next turn, while the block is BUSY: a poll is followed by one (R102). -/
def stepsBeforeTurn : List Input → Nat
  | [] => 0
  | .sequencer :: _ => 0
  | .poll :: _ => 1
  | .write _ _ _ :: rest => stepsBeforeTurn rest + 1
  | .read _ _ :: rest => stepsBeforeTurn rest + 1
  | .reset :: rest => stepsBeforeTurn rest + 1
  | .resetMidFrame :: rest => stepsBeforeTurn rest + 1

/-- Some number of steps from s on device d reaches the end of the command. -/
def Ends (d : Device) (s : State) : Prop := ∃ k t, runOn d k s = .next t ∧ t.mode ≠ .busy ∧ t.done = true

theorem ends_of_step {d : Device} {s t : State} (h : stepOn d s = .next t) (ends : Ends d t) : Ends d s := by
  obtain ⟨k, u, run, stopped⟩ := ends
  refine ⟨k + 1, u, ?_, stopped⟩
  rw [runOn, h]
  exact run

/-- Every exchange on d completes or fails (R269). -/
def Answers (d : Device) : Prop := ∀ h tx, d.draw h tx ≠ .neverAnswers

theorem exchange_answers {d : Device} (answers : Answers d) (h : History) (tx : Frame) :
    exchange d h tx ≠ .noAnswer := by
  unfold exchange
  split
  · simp
  · simp
  · exact absurd ‹_› (answers h tx)

/-- A turn of the sequencer in the middle of a command stops it or leaves less work. -/
theorem turn_progress {d : Device} (answers : Answers d) {s t : State} (inv : BlockInvariant s) (busy : s.mode = .busy)
    (free : s.inFlight = none) (h : sequencerTurn (execOn d) s = .next t) :
    Stopped t ∨ (Onward s t ∧ t.inputs = s.inputs) := by
  rcases sequencerTurn_execOn h with ⟨idle, _⟩ | ⟨i, issued, rfl⟩ | ⟨_, _, _, rfl⟩
  · rw [(running_iff s).mpr ⟨busy, free⟩] at idle
    cases idle
  · obtain ⟨_, _, _, _, _, _, _, _, inputs, _⟩ := effect_operands d i s
    rcases effectOn_cases d inv issued with stopped | onward | ⟨tx, _, _, _, silent, _⟩
    · exact .inl stopped
    · exact .inr ⟨onward, inputs⟩
    · exact absurd silent (exchange_answers answers s.history tx)
  · exact .inl (stopped_terminate (by decide) empty_bytes free)

/-- A host access or a poll in the middle of a command leaves the command and shortens the wait for the sequencer's turn. -/
theorem hostStep_progress (d : Device) {s : State} {x : Input} {rest : List Input} (busy : s.mode = .busy)
    (next : s.inputs = x :: rest) (host : x ≠ .sequencer) (keeps : ∀ y ∈ s.inputs, y.keepsRunning = true) :
    ∃ t, stepOn d s = .next t ∧ SameCommand s t ∧ stepsBeforeTurn t.inputs < stepsBeforeTurn s.inputs ∧
      ∀ y ∈ t.inputs, y.keepsRunning = true := by
  rw [next, List.forall_mem_cons] at keeps
  obtain ⟨first, later⟩ := keeps
  rw [next]
  cases x with
  | sequencer => exact absurd rfl host
  | reset | resetMidFrame => cases first
  | poll =>
    have polled : (hostPoll { s with inputs := rest }).inputs = .sequencer :: .poll :: rest := if_pos busy
    refine ⟨_, stepOn_poll d next, rfl, ?_, ?_⟩
    · rw [polled]
      exact Nat.zero_lt_one
    · rw [polled]
      simpa [Input.keepsRunning] using later
  | read o width =>
    simp only [Input.keepsRunning, Bool.and_eq_true, decide_eq_true_eq] at first
    obtain ⟨rfl, whole⟩ := first
    exact ⟨_, (stepOn_read d next).trans (hostAccess_aligned whole _), rfl, Nat.lt_succ_self _, later⟩
  | write o width w =>
    simp only [Input.keepsRunning, Bool.and_eq_true, decide_eq_true_eq] at first
    obtain ⟨rfl, whole⟩ := first
    refine ⟨_, (stepOn_write d next).trans (hostAccess_aligned whole _), ?_⟩
    rcases writeReg_cases o w { s with inputs := rest } with ⟨_, idle, _⟩ | ⟨same, inputs⟩
    · cases busy.symm.trans idle
    · rw [inputs]
      exact ⟨same, Nat.lt_succ_self _, later⟩

/-- Every command under way ends, by recursion on the work left and, between two turns, on the wait for the next one. -/
theorem ends_of_busy {d : Device} (answers : Answers d) (s : State) (inv : BlockInvariant s) (busy : s.mode = .busy)
    (free : s.inFlight = none) (keeps : ∀ x ∈ s.inputs, x.keepsRunning = true) : Ends d s := by
  by_cases turn : s.inputs = [] ∨ ∃ rest, s.inputs = .sequencer :: rest
  · have popped : BlockInvariant { s with inputs := s.inputs.tail } := SameCommand.invariant rfl inv
    obtain ⟨t, turned⟩ := sequencerTurn_total d popped
    have step := (stepOn_sequencer d turn).trans turned
    refine ends_of_step step ?_
    rcases turn_progress answers popped busy free turned with stopped | ⟨onward, inputs⟩
    · exact ⟨0, t, rfl, stopped.ended⟩
    · have less : workLeft t < workLeft s := onward.lessWork
      exact ends_of_busy answers t (stepOn_keeps_invariant inv step) onward.busy onward.free
        (inputs ▸ fun x mem => keeps x (List.mem_of_mem_tail mem))
  · match next : s.inputs with
    | [] => exact absurd (.inl next) turn
    | x :: rest =>
      have host : x ≠ .sequencer := fun e => turn (.inr ⟨rest, e ▸ next⟩)
      obtain ⟨t, step, same, fewer, keepsLater⟩ := hostStep_progress d busy next host keeps
      have equal : workLeft t = workLeft s := by rw [workLeft, workLeft, same.dispatched, same.pos]
      exact ends_of_step step
        (ends_of_busy answers t (same.invariant inv) (same.mode.trans busy) (same.inFlight.trans free) keepsLater)
termination_by (workLeft s, stepsBeforeTurn s.inputs)
decreasing_by
  · exact Prod.Lex.left _ _ less
  · rw [equal]
    exact Prod.Lex.right _ fewer

end Sys2Proof.Machine
end

section
/-!
SUPPORT. The modes of spec/10_state.md R35 after an instruction, and the frame that a reset cuts short
(spec/70_reset_and_hazards.md R261).
-/

namespace Sys2Proof.Machine

/-- The command of t is under way, or t is what its end leaves of mode, DONE and CODE (R35, R222, R229). -/
def GoesOnOrEnds (t : State) : Prop :=
  t.mode = .busy ∨ (t.mode = .idle ∧ t.done = true ∧ t.code ≠ .none ∧ t.code ≠ .transportError) ∨
    (t.mode = .halted ∧ t.done = true ∧ t.code = .transportError)

theorem goesOnOrEnds_terminate {c : Code} (info : Info) (s : State) (named : c ≠ .none) :
    GoesOnOrEnds (terminate c info s) := by
  by_cases failed : c = .transportError
  · subst failed
    exact .inr (.inr ⟨rfl, rfl, rfl⟩)
  · exact .inr (.inl ⟨if_neg failed, rfl, named, failed⟩)

theorem effectOn_goesOnOrEnds (d : Device) (i : Instr) {s : State} (busy : s.mode = .busy) :
    GoesOnOrEnds (effectOn d i s) := by
  cases isFrame : i.isFrame with
  | false =>
    rcases start_form i d s isFrame with ⟨p, h⟩ | ⟨c, info, named, _, h⟩ <;> rw [h]
    · exact .inl busy
    · exact goesOnOrEnds_terminate info _ named
  | true =>
    rcases frame_form i d s isFrame with
      ⟨_, info, h⟩ | ⟨tx, _, h | ⟨info, h⟩ | ⟨s1, from_s, ⟨p, h⟩ | ⟨c, info, named, _, _, h⟩⟩⟩ <;> rw [h]
    · exact goesOnOrEnds_terminate info _ (by decide)
    · exact .inl busy
    · exact goesOnOrEnds_terminate info _ (by decide)
    · rcases from_s with rfl | ⟨r, _, _, _, rfl⟩ <;> exact .inl busy
    · exact goesOnOrEnds_terminate info _ named

theorem frameCutByReset_some {mid : Bool} {s : State} {tx : Frame} (h : frameCutByReset mid s = some tx) :
    s.inFlight = some tx ∨ ∃ i, issues s = some i ∧ frameBytes i = some tx := by
  unfold frameCutByReset at h
  split at h
  · rename_i inFlight
    exact .inl (inFlight.trans h)
  · split at h
    · split at h
      · exact .inr ⟨_, ‹_›, h⟩
      · cases h
    · cases h

theorem historyAfterReset_cases (mid : Bool) (s : State) :
    historyAfterReset mid s = s.history ∨
      ∃ tx, historyAfterReset mid s = .cut tx :: s.history ∧
        (s.inFlight = some tx ∨ ∃ i, issues s = some i ∧ frameBytes i = some tx) := by
  unfold historyAfterReset
  split
  · rename_i tx h
    exact .inr ⟨tx, rfl, frameCutByReset_some h⟩
  · exact .inl rfl

end Sys2Proof.Machine
end

section
/-!
PROOFS of the statements on spec/10_state.md.
-/

namespace Sys2Proof.Machine

/-! ## The device and the host port -/

/-- Settles O9: `exec` and `step` are `execOn` and `stepOn` at the device the block is wired to. -/
theorem execAndStepAreAtOneDevice : Obligations.ExecAndStepAreAtOneDevice := ⟨exec_eq_execOn, step_eq_stepOn⟩

/-- Settles O10: in IDLE the request is the acceptance of R43, else only OVERRUN is set. -/
theorem commandWriteIsAcceptedOrDropped : Obligations.CommandWriteIsAcceptedOrDropped := by
  intro s w
  refine ⟨fun idle => ⟨accept w s, ?_, ?_⟩, fun notIdle => ?_⟩
  · rw [hostWrite_cmd, requestCommand_idle w idle]
  · rw [accept_latched, wordOkOf_eq]
    have zero : failWhereWord FailWhere.zero = 0 := by decide
    exact ⟨rfl, rfl, zero, rfl, rfl, rfl, rfl, rfl, rfl, rfl, rfl, rfl, rfl, rfl, rfl, rfl, rfl, rfl, rfl, rfl, rfl⟩
  · rw [hostWrite_cmd, requestCommand_notIdle w notIdle]

/-- Settles O12: the branches of `readReg` and `writeReg`, one offset at a time. -/
theorem argumentRegistersHoldWhatIsWritten : Obligations.ArgumentRegistersHoldWhatIsWritten := by
  intro s w o q
  refine ⟨⟨rfl, rfl, rfl, rfl, rfl, rfl⟩, ⟨rfl, rfl, rfl, rfl, rfl, rfl, rfl, rfl, rfl, rfl, rfl, rfl, rfl, rfl⟩, ?_⟩
  intro h
  rcases argOffset_cases h with rfl | rfl | rfl | rfl | rfl | rfl
  all_goals exact ⟨rfl, fun other => by simp only [readReg, other, if_false]; rfl, rfl, rfl⟩

/-- Settles O13: a whole aligned read only fills `hostData`. -/
theorem hostReadHasNoSideEffect : Obligations.HostReadHasNoSideEffect := fun _ _ h => hostAccess_aligned h _

/-- Settles O14: the three answers of `hostAccess`, and the offsets that ignore a write. -/
theorem onlyWholeAlignedAccessesHaveAMeaning : Obligations.OnlyWholeAlignedAccessesHaveAMeaning := by
  intro s o width w
  have unmappedAbove : ∀ n ∈ [0x38, 0x3C], 0x20 ≤ n := by decide
  have readOnlyAbove : ∀ n ∈ [0x20, 0x24, 0x28, 0x2C, 0x30, 0x34], 0x20 ≤ n := by decide
  exact ⟨fun narrow => ⟨hostAccess_narrow o narrow _, hostAccess_narrow o narrow _⟩,
    fun misaligned => ⟨hostAccess_misaligned misaligned _, hostAccess_misaligned misaligned _⟩,
    fun whole => ⟨⟨_, hostAccess_aligned whole _, rfl⟩, hostAccess_aligned whole _⟩,
    fun unmapped => ⟨readReg_unmapped s unmapped, writeReg_readOnly w s (unmappedAbove _ unmapped)⟩,
    fun readOnly => writeReg_readOnly w s (readOnlyAbove _ readOnly)⟩

/-- Settles O15: STATUS is the sum of its fields, and each field is below the next one's weight. -/
theorem statusWordFields : Obligations.StatusWordFields := by
  intro s
  have word := statusWord_toNat s
  have busy := Bool.toNat_lt (decide (s.mode = .busy))
  have halted := Bool.toNat_lt (decide (s.mode = .halted))
  have done := Bool.toNat_lt s.done
  have overrun := Bool.toNat_lt s.overrun
  have code := (codeValue s.code).isLt
  have codeField : (statusWord s).extractLsb' 4 4 = codeValue s.code := extractLsb'_eq_of_toNat (by omega)
  rw [codeField]
  exact ⟨rfl, getLsbD_eq_of_toNat (by omega), getLsbD_eq_of_toNat (by omega), getLsbD_eq_of_toNat (by omega),
    getLsbD_eq_of_toNat (by omega), extractLsb'_eq_of_toNat (by simp; omega), by cases s.code <;> rfl⟩

/-- Settles O16: FAIL_WHERE is the sum of its fields, and each field is below the next one's weight. -/
theorem failWhereWordFields : Obligations.FailWhereWordFields := by
  intro f
  have word := failWhereWord_toNat f
  have alg := f.alg.isLt
  have phase := (phaseValue f.phase).isLt
  have lane := f.lane.isLt
  have laneValid := Bool.toNat_lt f.laneValid
  have step := f.step.isLt
  have rangeSel := Bool.toNat_lt f.rangeSel
  have fidx := f.fidx.isLt
  have kind := (kindValue f.fkind).isLt
  have phaseField : (failWhereWord f).extractLsb' 4 4 = phaseValue f.phase := extractLsb'_eq_of_toNat (by omega)
  have kindField : (failWhereWord f).extractLsb' 20 2 = kindValue f.fkind := extractLsb'_eq_of_toNat (by omega)
  rw [phaseField, kindField]
  exact ⟨fun _ h => h ▸ rfl, extractLsb'_eq_of_toNat (by omega), by cases f.phase <;> rfl,
    extractLsb'_eq_of_toNat (by omega), getLsbD_eq_of_toNat (by omega), extractLsb'_eq_of_toNat (by omega),
    getLsbD_eq_of_toNat (by omega), getLsbD_eq_of_toNat (by simp; omega), extractLsb'_eq_of_toNat (by omega),
    getLsbD_eq_of_toNat (by simp; omega), by cases f.fkind <;> rfl, extractLsb'_eq_of_toNat (by simp; omega)⟩

/-! ## Frames and cells -/

/-- Settles O29: the exchange by its outcome, and the element's advance from an odd FIDX. -/
theorem rmwReadLatchesTheByte : Obligations.RmwReadLatchesTheByte := by
  intro s opc p x ws a b j command listed hj standing ha
  have element := elementOf_marchTable listed
  have notChecker : opc ≠ 0x4 := by rcases command with rfl | rfl <;> decide
  have issued : issues s = some (.read a) := by
    have odd : readAt { expect := x, writes := ws } (2 * j + 1) = true :=
      readAt_odd (by simp only [elementFrames]; omega)
    rw [issues_atFrame standing, frameAt_element element, rmwRead_fidx element hj, if_pos odd]
  have latched : ∀ r, afterRead r (counted (readFrame a) s) =
      { atPos p a b (BitVec.ofNat 3 (2 * j + 2)) (counted (readFrame a) s) with rmw := r } := fun r => by
    have position : (counted (readFrame a) s).pos =
      { phase := p, a := a, lane := b, fidx := BitVec.ofNat 3 (2 * j + 1) } := standing.position
    rw [afterRead_rmw r (by rw [position]; exact element) (by rw [position]) hj, position]
    rfl
  rw [exec_issued issued, effectOn, busRead_inRange Config.device s ha, transportError_eq,
    whereIn_lane _ standing.opcode standing.position (lanePhase_of_elementOf element) notChecker]
  simp only [latched]
  rfl

/-- Settles O37: the forms of a frame's effect, and what each leaves. -/
theorem frameInstructionsFrame : Obligations.FrameInstructionsFrame := by
  intro i s t isFrame h
  obtain ⟨issued, rfl⟩ := exec_next h
  obtain ⟨busy, free⟩ := running_of_issues issued
  refine ⟨effect_operands Config.device i s, ?_⟩
  have same : SameResults s s := ⟨rfl, rfl, rfl, rfl, rfl, rfl, rfl⟩
  rcases frame_form i Config.device s isFrame with ⟨unsent, info, h⟩ | ⟨tx, sent, h | ⟨info, h⟩ | ⟨s1, from_s, h⟩⟩
  · rw [h]
    exact ⟨rfl, .inl rfl, fun goesOn => absurd goesOn (terminate_notBusy _ _ _), fun _ => rfl,
      .inl ⟨rfl, rfl, .inl ⟨unsent, rfl, free⟩⟩⟩
  · rw [h]
    exact ⟨rfl, .inl rfl, fun _ => same, fun stopped => absurd busy stopped,
      .inl ⟨rfl, rfl, .inr ⟨sent.symm, busy, rfl, rfl⟩⟩⟩
  · rw [h]
    exact ⟨rfl, .inl rfl, fun goesOn => absurd goesOn (terminate_notBusy _ _ _), fun _ => rfl,
      .inr ⟨tx, sent, free, .inr ⟨rfl, rfl, rfl⟩⟩⟩
  · have rmw : s1.rmw = s.rmw ∨ ((∃ a, i = .read a) ∧ lanePhase s.pos.phase = true ∧ s.pos.fidx ≠ 0) := by
      rcases from_s with rfl | ⟨r, read, lane, past, rfl⟩
      · exact .inl rfl
      · exact .inr ⟨read, lane, past⟩
    have kept : s1.dispatched = s.dispatched ∧ SameResults s s1 ∧ s1.pos = s.pos ∧ s1.mode = .busy ∧
        s1.inFlight = none ∧ s1.history = .exchanged tx :: s.history ∧ s1.txnCount = s.txnCount + 1 := by
      rcases from_s with rfl | ⟨r, _, _, _, rfl⟩ <;> exact ⟨rfl, same, rfl, busy, free, rfl, rfl⟩
    obtain ⟨dispatched, results, pos, goesOn, portFree, history, count⟩ := kept
    rcases h with ⟨p, h⟩ | ⟨c, info, _, _, _, h⟩ <;> rw [h]
    · exact ⟨dispatched, rmw, fun _ => results, fun stopped => absurd goesOn stopped,
        .inr ⟨tx, sent, portFree, .inl ⟨history, count⟩⟩⟩
    · exact ⟨dispatched, rmw, fun goesOn => absurd goesOn (terminate_notBusy _ _ _), fun _ => pos,
        .inr ⟨tx, sent, portFree, .inl ⟨history, count⟩⟩⟩

/-- Settles O38: an effect leaves every cell or is one counted exchange, which writes a WRITE's own cell. -/
theorem onlyTheWrittenCellChanges : Obligations.OnlyTheWrittenCellChanges := by
  intro d i s t start h
  obtain ⟨_, rfl⟩ := issue_eq_next_iff.mp h
  have more : s.txnCount + 1 ≠ s.txnCount := by bv_omega
  rcases effect_cells d i s start with ⟨same, count⟩ | ⟨tx, sent, history, count⟩
  · exact ⟨fun c _ => same c, fun _ _ _ exchanged => absurd (exchanged.symm.trans count) more, fun _ => same,
      fun _ => same⟩
  · rw [history, count]
    refine ⟨fun c => (cellAfter_exchanged start sent s.history c).1,
      fun a v write _ => (cellAfter_exchanged start sent s.history a).2 v write, fun unsent => ?_,
      fun still => absurd still more⟩
    rw [sent] at unsent
    cases unsent

/-- Settles O52: the answer of IdealMemory to each of the three frames, and its contents event by event. -/
theorem idealMemoryReturnsTheLastWrite : Obligations.IdealMemoryReturnsTheLastWrite := by
  intro start status filler h a c v ha hc hv
  have answer := exchange_idealMemory start status filler h
  refine ⟨?_, ?_, ?_, rfl, cellAfter_write start hc hv h a, cellAfter_read start hc h a, rfl⟩
  · obtain ⟨rx, answered, length, last⟩ := answer (readFrame a) (by simp [readFrame])
    have decoded : decodeFrame (readFrame a) = .ok (.read a) := decodeFrame_read ha
    exact ⟨rx, answered, length, by rw [last, decoded]; rfl⟩
  · exact answer statusFrame (by simp [statusFrame])
  · obtain ⟨rx, answered, length, _⟩ := answer (writeFrame a v) (by simp [writeFrame])
    exact ⟨rx, answered, length⟩

/-! ## Reset and modes -/

/-- Settles O39: every offset read in the reset state. -/
theorem resetValues : Obligations.ResetValues := ⟨by decide, rfl, rfl, rfl, rfl, rfl⟩

/-- Settles O40: a reset is `resetBlock`, whose history gains at most the frame that was cut. -/
theorem resetFromAnyState : Obligations.ResetFromAnyState := by
  intro s h
  obtain ⟨mid, rest, tail, stepped⟩ := stepOn_reset Config.device h
  exact ⟨_, rest, (step_eq_stepOn s).trans stepped, tail, historyAfterReset_cases mid { s with inputs := rest }⟩

/-- Settles O43: STATUS bits 0 and 1, and the mode after each cause of a step. -/
theorem modeTransitions : Obligations.ModeTransitions := by
  intro s t h
  obtain ⟨_, busyBit, haltedBit, _⟩ := statusWordFields t
  rw [step_eq_stepOn] at h
  refine ⟨by rw [busyBit, decide_eq_true_iff], by rw [haltedBit, decide_eq_true_iff], fun reset => ?_,
    fun cmd idle => ?_, ?_⟩
  · obtain ⟨mid, rest, _, stepped⟩ := stepOn_reset Config.device reset
    obtain rfl := Host.Outcome.next.inj (stepped.symm.trans h)
    rfl
  · obtain ⟨w, rest, next⟩ := cmd
    have accepted : stepOn Config.device s = .next (accept w { s with inputs := rest }) := by
      rw [stepOn_write Config.device next, hostWrite_cmd, requestCommand_idle w (s := { s with inputs := rest }) idle]
    obtain rfl := Host.Outcome.next.inj (accepted.symm.trans h)
    rfl
  · cases stepOn_effect h with
    | reset mid rest next => exact .inr (.inr (.inr (.inr ⟨next, rfl⟩)))
    | same same => exact .inl same.mode
    | accepted w rest next idle => exact .inr (.inl ⟨idle, rfl, w, rest, next⟩)
    | illegal rest busy => exact .inr (.inr (.inl ⟨busy, rfl, rfl, by simp, by simp⟩))
    | issued i rest issued =>
      have busy := (running_of_issues issued).1
      rcases effectOn_goesOnOrEnds Config.device i (s := { s with inputs := rest }) busy with goesOn | idle | halted
      · exact .inl (goesOn.trans busy.symm)
      · exact .inr (.inr (.inl ⟨busy, idle⟩))
      · exact .inr (.inr (.inr (.inl ⟨busy, halted⟩)))

/-- Settles O44: a step adds no bus event, a failed one, or one that is counted. -/
theorem atMostOneExchangePerStep : Obligations.AtMostOneExchangePerStep := by
  intro d s t h noReset
  rcases stepOn_bus h noReset with ⟨history, count⟩ | ⟨running, tx, ⟨history, count⟩ | ⟨history, count⟩⟩
  · exact ⟨.inl history, absurd history, count.imp id .inl,
      fun _ exchanged => absurd (exchanged.symm.trans history) (List.cons_ne_self _ _)⟩
  · exact ⟨.inr ⟨_, history⟩, fun _ => running, .inl count, fun _ exchanged => by cases history.symm.trans exchanged⟩
  · exact ⟨.inr ⟨_, history⟩, fun _ => running, .inr (.inr ⟨count, tx, history⟩), fun _ _ => count⟩

/-! ## The invariant and what follows from it -/

/-- Settles O45: the reset state is IDLE with nothing recorded. -/
theorem invariantHoldsAtReset : Obligations.InvariantHoldsAtReset := invariant_atReset

/-- Settles O46: by the causes of a step; what is issued stops the command, takes it to a reached position, or hangs. -/
theorem everyStepKeepsTheInvariant : Obligations.EveryStepKeepsTheInvariant := by
  intro s t inv h
  rw [step_eq_stepOn] at h
  exact stepOn_keeps_invariant inv h

/-- Settles O47: the sequencer's turn always has a next state, and of the inputs only a bad access is refused. -/
theorem stepStopsOnlyAtABadHostAccess : Obligations.StepStopsOnlyAtABadHostAccess := by
  intro s inv
  rw [step_eq_stepOn]
  have sequencer : (s.inputs = [] ∨ ∃ rest, s.inputs = .sequencer :: rest) →
      ∃ t, stepOn Config.device s = .next t := fun next => by
    rw [stepOn_sequencer Config.device next]
    exact sequencerTurn_total Config.device (SameCommand.invariant rfl inv)
  have reset : ResetNext s → ∃ t, stepOn Config.device s = .next t := fun next => by
    obtain ⟨_, _, _, stepped⟩ := stepOn_reset Config.device next
    exact ⟨_, stepped⟩
  cases next : s.inputs with
  | nil => exact .inl (sequencer (.inl next))
  | cons x rest =>
    cases x with
    | sequencer => exact .inl (sequencer (.inr ⟨rest, next⟩))
    | poll => exact .inl ⟨_, stepOn_poll Config.device next⟩
    | reset => exact .inl (reset ⟨rest, .inl next⟩)
    | resetMidFrame => exact .inl (reset ⟨rest, .inr next⟩)
    | write o width w =>
      rw [stepOn_write Config.device next]
      rcases hostAccess_next_or_refused o width (writeReg o w { s with inputs := rest }) with h | ⟨bad, refused⟩
      · exact .inl ⟨_, h⟩
      · exact .inr ⟨o, width, rest, .inr ⟨w, rfl⟩, bad, refused⟩
    | read o width =>
      rw [stepOn_read Config.device next]
      rcases hostAccess_next_or_refused o width
        { s with inputs := rest, hostData := some (readReg o { s with inputs := rest }) } with h | ⟨bad, refused⟩
      · exact .inl ⟨_, h⟩
      · exact .inr ⟨o, width, rest, .inl rfl, bad, refused⟩

/-- Settles O60: by recursion on the work left and on the steps before the sequencer's next turn. -/
theorem commandsEndIfEveryExchangeAnswers : Obligations.CommandsEndIfEveryExchangeAnswers :=
  fun _ s answers inv busy free keeps => ends_of_busy answers s inv busy free keeps

end Sys2Proof.Machine
end

section
/-!
SUPPORT. The encoder and the decoder against each other (spec/30_encoding.md R90 to R101): the command words of R99, the bytes of
an address in the spec's arithmetic (R92), and the first frame of a stream (R96).
-/

namespace Sys2Proof

/-! ## Command words -/

/-- The reserved bits of an encoded command word are 0 and its OPC field is the OPC (R98). -/
theorem decodeCommand_commandWord (opc : BitVec 4) : decodeCommand (commandWord opc) = decodeOpc opc := by
  have wordOk : wordOkOf (commandWord opc) = true := by
    revert opc
    decide
  have opcode : opcOf (commandWord opc) = opc := by
    revert opc
    decide
  rw [decodeCommand, decodeLatched, if_pos wordOk, opcode]

/-- A word whose reserved bits are 0 is the command word of its OPC field (R98). -/
theorem commandWord_opcOf {w : Word} (h : wordOkOf w = true) : commandWord (opcOf w) = w := by
  have small : w.toNat < 16 := by simpa only [Machine.wordOkOf_eq, decide_eq_true_eq] using h
  apply BitVec.eq_of_toNat_eq
  rw [commandWord, opcOf, BitVec.toNat_setWidth, BitVec.extractLsb'_toNat, Nat.shiftRight_zero]
  omega

/-- A command of the opcode map is encoded as the command word of its OPC (R99). -/
theorem encode_of_decodeOpc {opc : BitVec 4} {i : Instr} (h : decodeOpc opc = .ok i) :
    i.wellFormed = true ∧ encode i = .ok (.command (commandWord opc)) := by
  rcases decodeOpc_cases h with ⟨rfl, rfl⟩ | ⟨rfl, rfl⟩ | ⟨rfl, rfl⟩ | ⟨rfl, rfl⟩ | ⟨rfl, rfl⟩ | ⟨rfl, rfl⟩ | ⟨rfl, rfl⟩ <;>
    exact ⟨rfl, rfl⟩

/-- The OPC of a command is 1 to 7 (R99, R101). -/
theorem opc_range_of_decodeOpc {opc : BitVec 4} {i : Instr} (h : decodeOpc opc = .ok i) :
    1 ≤ opc.toNat ∧ opc.toNat ≤ 7 := by
  rcases decodeOpc_cases h with ⟨rfl, _⟩ | ⟨rfl, _⟩ | ⟨rfl, _⟩ | ⟨rfl, _⟩ | ⟨rfl, _⟩ | ⟨rfl, _⟩ | ⟨rfl, _⟩ <;> decide

/-! ## Frames -/

theorem addrHi_eq_div (a : Word) : addrHi a = BitVec.ofNat 8 (a.toNat / 256) := by
  rw [addrHi, BitVec.extractLsb', Nat.shiftRight_eq_div_pow]

theorem addrLo_eq_mod (a : Word) : addrLo a = BitVec.ofNat 8 (a.toNat % 256) := by
  apply BitVec.eq_of_toNat_eq
  rw [addrLo, BitVec.extractLsb'_toNat, BitVec.toNat_ofNat, Nat.shiftRight_zero, Nat.mod_mod]

theorem encode_read {a : Word} (h : a.toNat ≤ 0xFFFF) :
    encode (.read a) = .ok (.frame [0x03, addrHi a, addrLo a, 0x00]) := by
  rw [encode, encRead_ok h]
  rfl

theorem encode_write {a v : Word} (h : a.toNat ≤ 0xFFFF) (hv : v.toNat ≤ 0xFF) :
    encode (.write a v) = .ok (.frame [0x02, addrHi a, addrLo a, v.extractLsb' 0 8, 0x00]) := by
  rw [encode, encWrite_ok h hv]
  rfl

/-- What decodes as one frame is a well-formed instruction, encoded as those bytes (R90, R97). -/
theorem encode_of_decodeFrame {bytes : Frame} {i : Instr} (h : decodeFrame bytes = .ok i) :
    i.wellFormed = true ∧ encode i = .ok (.frame bytes) := by
  rcases decodeFrame_cases h with ⟨hi, lo, rfl, rfl⟩ | ⟨hi, lo, v, rfl, rfl⟩ | ⟨rfl, rfl⟩
  · obtain ⟨fits, high, low⟩ := addressOf_bytes hi lo
    exact ⟨(addrFits_iff _).mpr fits, by rw [encode_read fits, high, low]⟩
  · obtain ⟨fits, high, low⟩ := addressOf_bytes hi lo
    obtain ⟨valueFits, value⟩ := valueOf_byte v
    exact ⟨Bool.and_eq_true_iff.mpr ⟨(addrFits_iff _).mpr fits, (valueFits_iff _).mpr valueFits⟩,
      by rw [encode_write fits valueFits, high, low, value]⟩
  · exact ⟨rfl, rfl⟩

/-- The decoder takes a frame's bytes off the front of a stream and leaves what follows them (R96). -/
theorem decodeStream_frameBytes_append {i : Instr} {tx : Frame} (h : frameBytes i = some tx) (rest : List Byte) :
    decodeStream (tx ++ rest) = .ok (i, rest) := by
  rcases frameBytes_cases h with ⟨a, rfl, ha, rfl⟩ | ⟨a, v, rfl, ha, hv, rfl⟩ | ⟨rfl, rfl⟩
  · exact (decodeStream_read _ _ rest).trans (by rw [addressOf_addrHi_addrLo ha])
  · exact (decodeStream_write _ _ _ rest).trans (by rw [addressOf_addrHi_addrLo ha, valueOf_extract hv])
  · exact decodeStream_status rest

/-- No frame is empty, so each one uses up a byte of a stream. -/
theorem length_pos_of_frameBytes {i : Instr} {tx : Frame} (h : frameBytes i = some tx) : 0 < tx.length := by
  rcases frameBytes_cases h with ⟨_, _, _, rfl⟩ | ⟨_, _, _, _, _, rfl⟩ | ⟨_, rfl⟩ <;> exact Nat.succ_pos _

theorem decodeFrames_frameBytes_append {i : Instr} {tx : Frame} (h : frameBytes i = some tx) {fuel : Nat}
    {rest : List Byte} {is : List Instr} (decoded : decodeFrames fuel rest = .ok is) :
    decodeFrames (fuel + 1) (tx ++ rest) = .ok (i :: is) := by
  have first := decodeStream_frameBytes_append h rest
  obtain ⟨b, bs, rfl⟩ := List.exists_cons_of_length_pos (length_pos_of_frameBytes h)
  rw [List.cons_append] at first ⊢
  simp only [decodeFrames, first, decoded]

/-- Frames one after another are cut apart with any fuel that is at least their number of bytes (R96). -/
theorem decodeFrames_flatten {is : List Instr} {frames : List Frame}
    (h : List.Forall₂ (fun i tx => frameBytes i = some tx) is frames) :
    ∀ fuel, frames.flatten.length ≤ fuel → decodeFrames fuel frames.flatten = .ok is := by
  induction h with
  | nil => exact fun fuel _ => by cases fuel <;> rfl
  | @cons i tx is frames sent _ ih =>
    intro fuel enough
    have used := length_pos_of_frameBytes sent
    rw [List.flatten_cons, List.length_append] at enough
    obtain ⟨left, rfl⟩ := Nat.exists_eq_add_one_of_ne_zero (show fuel ≠ 0 by omega)
    rw [List.flatten_cons]
    exact decodeFrames_frameBytes_append sent (ih left (by omega))

end Sys2Proof
end

section
/-!
SUPPORT, then PROOFS of the statements on spec/30_encoding.md: the encoder and the decoder, the words that are no command
(R101, R224), and the frames that reach the bus (R97, R132).
-/

namespace Sys2Proof.Machine

/-! ## Words that are no command -/

/-- Before dispatch, a latched word with a reserved bit set or an OPC outside 1 to 7 names no instruction (R100, R101). -/
theorem issues_illegalWord {s : State} (undispatched : s.dispatched = false)
    (bad : s.latched.wordOk = false ∨ s.latched.opc.toNat = 0 ∨ 7 < s.latched.opc.toNat) : issues s = none := by
  rw [Option.eq_none_iff_forall_ne_some]
  intro i issued
  obtain ⟨_, _, ⟨_, _, wordOk, opcode⟩ | ⟨dispatched, _⟩⟩ := issues_eq_some issued
  · obtain ⟨low, high⟩ := opc_range_of_decodeOpc opcode
    rcases bad with reserved | outside
    · cases reserved.symm.trans wordOk
    · omega
  · cases undispatched.symm.trans dispatched

/-- ILLEGAL_CMD records ALG alone (R224, R229). -/
theorem terminate_illegalCmd_eq (s : State) :
    terminate .illegalCmd Info.empty s = ended .illegalCmd (algOnly s.latched.opc) 0 0 0 0 s := rfl

/-- Dispatch of a word that is no command is one step, and ends ILLEGAL_CMD (R100, R224). -/
theorem step_illegalWord {s : State} (noInput : s.inputs = []) (busy : s.mode = .busy) (free : s.inFlight = none)
    (undispatched : s.dispatched = false)
    (bad : s.latched.wordOk = false ∨ s.latched.opc.toNat = 0 ∨ 7 < s.latched.opc.toNat) :
    step s = .next (ended .illegalCmd (algOnly s.latched.opc) 0 0 0 0 s) := by
  have run : running s = true := (running_iff s).mpr ⟨busy, free⟩
  have turn_eq : step s = sequencerTurn exec s := by simp only [step, turn, noInput]
  rw [turn_eq, sequencerTurn, if_pos run, issues_illegalWord undispatched bad, ← terminate_illegalCmd_eq]
  simp only [undispatched, Bool.false_eq_true, if_false]

/-- A command word that is 0 or above 7 has a reserved bit set or an OPC outside 1 to 7 (R98, R101). -/
theorem illegalWord_of_toNat {w : Word} (h : w.toNat = 0 ∨ 7 < w.toNat) :
    wordOkOf w = false ∨ (opcOf w).toNat = 0 ∨ 7 < (opcOf w).toNat := by
  have opcode : (opcOf w).toNat = w.toNat % 16 := BitVec.extractLsb'_toNat ..
  rw [wordOkOf_eq, decide_eq_false_iff_not, opcode]
  omega

/-! ## Frames on the bus -/

theorem OnlyBlockFrames.of_history_eq {s t : State} (h : OnlyBlockFrames s) (same : t.history = s.history) :
    OnlyBlockFrames t := by
  rw [OnlyBlockFrames, same]
  exact h

/-- One more bus event of a frame of the table keeps all of them frames of the table. -/
theorem OnlyBlockFrames.of_history_cons {s t : State} {ev : BusEvent} {i : Instr} {tx : Frame} (h : OnlyBlockFrames s)
    (sent : frameBytes i = some tx) (event : ev = .exchanged tx ∨ ev = .failed tx ∨ ev = .cut tx)
    (history : t.history = ev :: s.history) : OnlyBlockFrames t := by
  rw [OnlyBlockFrames, history, List.forall_mem_cons]
  exact ⟨⟨i, tx, isFrame_of_frameBytes sent, sent, event⟩, h⟩

/-- What an issued instruction puts on the bus is its own frame, if anything (R132). -/
theorem onlyBlockFrames_effectOn (d : Device) (i : Instr) {s : State} (h : OnlyBlockFrames s) :
    OnlyBlockFrames (effectOn d i s) := by
  cases isFrame : i.isFrame with
  | false => exact h.of_history_eq (start_bus d s isFrame).1
  | true =>
    rcases frame_bus d s isFrame with ⟨history, _⟩ | ⟨tx, sent, ⟨history, _⟩ | ⟨history, _⟩⟩
    · exact h.of_history_eq history
    · exact h.of_history_cons sent (.inr (.inl rfl)) history
    · exact h.of_history_cons sent (.inl rfl) history

/-- The frame that reset cuts short is the one in flight, which the invariant says is a frame of the table, or the one the
sequencer issues (R261). -/
theorem onlyBlockFrames_resetBlock (mid : Bool) {s : State} (inv : BlockInvariant s) (h : OnlyBlockFrames s) :
    OnlyBlockFrames (resetBlock mid s) := by
  rcases historyAfterReset_cases mid s with history | ⟨tx, history, inFlight | ⟨i, _, sent⟩⟩
  · exact h.of_history_eq history
  · obtain ⟨_, i, _, sent⟩ := inv.portFrame tx inFlight
    exact h.of_history_cons sent (.inr (.inr rfl)) history
  · exact h.of_history_cons sent (.inr (.inr rfl)) history

/-! ## The statements -/

/-- Settles O2: an operand in range is given back by the bytes of its frame, and an OPC by its command word. -/
theorem decodeOfEncodeIsTheInstruction : Obligations.DecodeOfEncodeIsTheInstruction := by
  intro i wellFormed
  cases i with
  | read a =>
    have fits := (addrFits_iff a).mp wellFormed
    exact ⟨_, encode_read fits, decodeFrame_read fits⟩
  | write a v =>
    obtain ⟨addr, value⟩ := Bool.and_eq_true_iff.mp wellFormed
    have fits := (addrFits_iff a).mp addr
    have valueFits := (valueFits_iff v).mp value
    exact ⟨_, encode_write fits valueFits, decodeFrame_write fits valueFits⟩
  | readStatus => exact ⟨_, rfl, rfl⟩
  | dread | dwrite | dstatus | checker | marchA | sequence | melem => exact ⟨_, rfl, decodeCommand_commandWord _⟩

/-- Settles O48: an event a step adds is of the frame the sequencer issues, or of the frame that reset cuts short. -/
theorem onlyTheThreeFramesAreSent : Obligations.OnlyTheThreeFramesAreSent := by
  intro s t inv h stepped
  rw [step_eq_stepOn] at stepped
  cases stepOn_effect stepped with
  | reset mid rest =>
    exact onlyBlockFrames_resetBlock mid (s := { s with inputs := rest }) (SameCommand.invariant rfl inv) h
  | same same => exact h.of_history_eq same.history
  | accepted w rest => exact h.of_history_eq rfl
  | issued i rest => exact onlyBlockFrames_effectOn Config.device i (s := { s with inputs := rest }) h
  | illegal rest => exact h.of_history_eq rfl

/-- Settles O3: the three formats of R90, and the opcode map of R99 on words without reserved bits. -/
theorem onlyEncodedWordsDecode : Obligations.OnlyEncodedWordsDecode := by
  intro c i decoded
  cases c with
  | frame bytes => exact encode_of_decodeFrame decoded
  | command w =>
    obtain ⟨wordOk, opcode⟩ := decodeLatched_ok decoded
    have encoded := encode_of_decodeOpc opcode
    rwa [commandWord_opcOf wordOk] at encoded

/-- Settles O4: by induction on the frames, each of which takes one unit of fuel and at least one byte. -/
theorem frameStreamDividesByByteZero : Obligations.FrameStreamDividesByByteZero :=
  fun _ _ sent => decodeFrames_flatten sent _ le_rfl

/-- Settles O5: the branches of the encoders, with the bytes in the spec's arithmetic. -/
theorem encodersNeverMaskIntoRange : Obligations.EncodersNeverMaskIntoRange := by
  intro a v
  rw [← addrHi_eq_div, ← addrLo_eq_mod]
  exact ⟨fun out => ⟨encRead_error out, encWrite_addr_error v out⟩, encRead_ok, encWrite_value_error, encWrite_ok⟩

/-- Settles O6: the three formats. -/
theorem framesEndInTheDummyByte : Obligations.FramesEndInTheDummyByte := by
  intro i tx sent
  rcases frameBytes_cases sent with ⟨_, _, _, rfl⟩ | ⟨_, _, _, _, _, rfl⟩ | ⟨_, rfl⟩
  · exact ⟨rfl, .inl ⟨rfl, rfl⟩⟩
  · exact ⟨rfl, .inr (.inl ⟨rfl, rfl⟩)⟩
  · exact ⟨rfl, .inr (.inr ⟨rfl, rfl⟩)⟩

/-- Settles O21: the latched word is no command; an accepted word is latched as its OPC field and its reserved bits. -/
theorem illegalCommandWordEndsAtDispatch : Obligations.IllegalCommandWordEndsAtDispatch := by
  refine ⟨fun s => step_illegalWord, fun s t w noInput idle free bad written => ?_⟩
  rw [hostWrite_cmd, requestCommand_idle w idle] at written
  obtain rfl := Host.Outcome.next.inj written
  exact ⟨step_illegalWord (s := accept w s) noInput rfl free rfl (illegalWord_of_toNat bad), rfl⟩

/-- Settles O1: the words of R90, R97, R99 and R101, decoded. -/
theorem specWordsDecode : Obligations.SpecWordsDecode := by
  unfold Obligations.SpecWordsDecode
  decide

end Sys2Proof.Machine
end

section
/-!
SUPPORT. Runs of more than one step, a CMD write in IDLE, a turn granted by the input list, and a frame's exchange with
IdealMemory, which always completes (spec/10_state.md R38, R43).
-/

namespace Sys2Proof.Machine

/-! ## Steps and runs -/

theorem runOn_succ {d : Device} {s t : State} (k : Nat) (h : stepOn d s = .next t) :
    runOn d (k + 1) s = runOn d k t := by
  rw [runOn, h]

/-- A run of m steps that ends in a state goes on from it. -/
theorem runOn_add {d : Device} {m : Nat} {s t : State} (n : Nat) (h : runOn d m s = .next t) :
    runOn d (m + n) s = runOn d n t := by
  induction m generalizing s with
  | zero =>
    obtain rfl : s = t := Host.Outcome.next.inj h
    rw [Nat.zero_add]
  | succ m ih =>
    rw [Nat.succ_add]
    cases first : stepOn d s with
    | next u =>
      rw [runOn_succ m first] at h
      rw [runOn_succ (m + n) first, ih h]
    | fault r | refused r =>
      rw [runOn, first] at h
      cases h

/-- A CMD write in IDLE is accepted (R43). -/
theorem stepOn_accept (d : Device) {s : State} {w : Word} {rest : List Input}
    (next : s.inputs = .write 0x00 .word w :: rest) (idle : s.mode = .idle) :
    stepOn d s = .next (accept w { s with inputs := rest }) := by
  rw [stepOn_write d next, hostWrite_cmd, requestCommand_idle w (s := { s with inputs := rest }) idle]

/-- A turn granted by the input list is the effect of what the sequencer issues (log 6). -/
theorem stepOn_issued (d : Device) {s : State} {i : Instr} {rest : List Input} (next : s.inputs = .sequencer :: rest)
    (issued : issues s = some i) : stepOn d s = .next (effectOn d i { s with inputs := rest }) := by
  have still : issues { s with inputs := rest } = some i := issued
  rw [stepOn_sequencer d (.inr ⟨rest, next⟩), next, List.tail_cons, sequencerTurn_issued (execOn d) still,
    execOn_issued d still]

/-! ## An exchange that completes -/

/-- A response of the frame's length counts by its last byte (R124). -/
theorem byOutcome_ok {rx : List Byte} {tx : Frame} (s : State) (onByte : Byte → State) (onFailure : State)
    (length : rx.length = tx.length) : byOutcome (.ok rx) tx s onByte onFailure = onByte (rx.getLastD 0) :=
  if_pos length

/-- The bytes of a frame decode to it (R90, R96). -/
theorem decodeFrame_frameBytes {i : Instr} {tx : Frame} (sent : frameBytes i = some tx) : decodeFrame tx = .ok i := by
  rcases frameBytes_cases sent with ⟨a, rfl, addr, rfl⟩ | ⟨a, v, rfl, addr, value, rfl⟩ | ⟨rfl, rfl⟩
  · exact decodeFrame_read addr
  · exact decodeFrame_write addr value
  · rfl

/-- On IdealMemory a frame in range is one counted exchange, and then the computation on the answer's last byte (R38). -/
theorem effectOn_idealMemory (start : Word → Byte) (status : Byte) (filler : History → Frame → Nat → Byte) {i : Instr}
    {tx : Frame} (s : State) (sent : frameBytes i = some tx) :
    effectOn (idealMemory start status filler) i s =
      afterFrame i (answerByte (cellAfter start s.history) status (filler s.history tx (tx.length - 1)) (.ok i))
        (counted tx s) := by
  have bytes : tx ≠ [] := List.length_pos_iff.mp (length_pos_of_frameBytes sent)
  obtain ⟨rx, answered, length, last⟩ := exchange_idealMemory start status filler s.history tx bytes
  rw [effectOn_frame _ s sent, answered, byOutcome_ok s _ _ length, last, decodeFrame_frameBytes sent]

end Sys2Proof.Machine
end

section
/-!
SUPPORT, then PROOFS of the statements on spec/40_transport.md: the direct commands DREAD, DWRITE and DSTATUS (R129 to R131),
from their dispatch to the end of their one frame.
-/

namespace Sys2Proof.Machine

/-! ## The frame of a direct command -/

theorem frameAt_dread {l : Latched} {p : Pos} (rmw : Byte) (opcode : l.opc = 0x1) (direct : p.phase = .none) :
    frameAt l p rmw = some (.read l.addr) := by
  simp only [frameAt, direct, opcode, opcDread, if_true]

theorem frameAt_dwrite {l : Latched} {p : Pos} (rmw : Byte) (opcode : l.opc = 0x2) (direct : p.phase = .none) :
    frameAt l p rmw = some (.write l.addr l.data) := by
  simp only [frameAt, direct, opcode]
  rfl

theorem frameAt_dstatus {l : Latched} {p : Pos} (rmw : Byte) (opcode : l.opc = 0x3) (direct : p.phase = .none) :
    frameAt l p rmw = some .readStatus := by
  simp only [frameAt, direct, opcode]
  rfl

/-- Outside lane elements and outside CHECKER, FAIL_WHERE has the phase and the frame's kind (R28). -/
theorem whereIn_plain {opc : BitVec 4} {p : Pos} {s : State} (kind : FrameKind) (opcode : s.latched.opc = opc)
    (position : s.pos = p) (noLane : lanePhase p.phase = false) (notChecker : opc ≠ 0x4) :
    whereIn kind false s = plainWhere opc p.phase 0 kind := by
  subst opcode position
  simp only [whereIn, plainWhere, FailWhere.zero, noLane, Bool.false_eq_true, if_false, if_neg notChecker]

/-- PASS records ALG alone, and in RESULT what the command returns, which is 0 but for DREAD and DSTATUS (R28, R229). -/
theorem terminate_pass_eq (x : Word) (s : State) :
    terminate .pass { Info.empty with result := x } s =
      ended .pass (algOnly s.latched.opc) 0 0 0 (if s.latched.opc = 0x1 || s.latched.opc = 0x3 then x else 0) s := rfl

/-- PASS of a direct command that returns a byte (R129, R131). -/
theorem finishWith_eq {opc : BitVec 4} {s : State} (r : Byte) (opcode : s.latched.opc = opc)
    (returns : opc = 0x1 ∨ opc = 0x3) : finishWith r s = ended .pass (algOnly opc) 0 0 0 (r.setWidth 32) s := by
  rw [finishWith, terminate_pass_eq, opcode]
  rcases returns with rfl | rfl <;> rfl

/-- PASS with no byte to return (R198). -/
theorem finish_eq {opc : BitVec 4} {s : State} (opcode : s.latched.opc = opc) :
    finish s = ended .pass (algOnly opc) 0 0 0 0 s := by
  have passed : finish s = _ := terminate_pass_eq 0 s
  rw [passed, ite_self, opcode]

theorem afterRead_direct (r : Byte) {s : State} (direct : s.pos.phase = .none) : afterRead r s = finishWith r s := by
  simp only [afterRead, direct]

theorem afterWrite_direct {s : State} (direct : s.pos.phase = .none) : afterWrite s = finish s := by
  simp only [afterWrite, frameDone, direct]

/-- The one frame of a direct command, by the outcome of its exchange: PASS, with RESULT what the command makes of the last
byte, or a failure recorded without a lane (R123, R222). -/
theorem exec_directFrame {opc : BitVec 4} {p : Pos} {s : State} {i : Instr} {tx : Frame} {result : Byte → Word}
    (standing : AtFrame opc p s) (direct : p.phase = .none) (notChecker : opc ≠ 0x4)
    (named : frameAt s.latched p s.rmw = some i) (sent : frameBytes i = some tx)
    (passed : ∀ r, afterFrame i r (counted tx s) = ended .pass (algOnly opc) 0 0 0 (result r) (counted tx s)) :
    exec i s = .next
      (byOutcome (outcomeNow tx s) tx s (fun r => ended .pass (algOnly opc) 0 0 0 (result r) (counted tx s))
        (ended .transportError (plainWhere opc .none 0 (frameInfo i).kind) (frameInfo i).addr (frameInfo i).exp 0 0
          (lost tx s))) := by
  have record : whereIn (frameInfo i).kind false s = plainWhere opc p.phase 0 (frameInfo i).kind :=
    whereIn_plain _ standing.opcode standing.position (by rw [direct]; rfl) notChecker
  rw [exec_issued ((issues_atFrame standing).trans named), effectOn_frame Config.device s sent, transportError_eq,
    record, direct]
  simp only [passed]
  rfl

/-! ## A direct command from its CMD write to its frame -/

/-- DREAD or DWRITE, accepted from s and dispatched: the sequencer stands at its frame (R43, R129, R130). -/
def atAddrFrame (w : Word) (s : State) : State :=
  moveTo { phase := .none, a := s.argAddr, lane := 0, fidx := 0 } (markDispatched (accept w s))

theorem atAddrFrame_inputs (w : Word) (s : State) : (atAddrFrame w s).inputs = s.inputs := rfl

/-- DREAD or DWRITE as the host runs it: the CMD write, the dispatch and the frame, one step each (logs 1, 6). -/
theorem runOn_addrCommand (d : Device) {s : State} {w : Word} {cmd i : Instr} {rest : List Input}
    (idle : s.mode = .idle) (free : s.inFlight = none)
    (next : s.inputs = .write 0x00 .word w :: .sequencer :: .sequencer :: rest)
    (decoded : decodeCommand w = .ok cmd) (takesAddr : cmd = .dread ∨ cmd = .dwrite)
    (named : issues (atAddrFrame w s) = some i) :
    runOn d 3 s = .next (effectOn d i (atAddrFrame w { s with inputs := rest })) := by
  have dispatched : stepOn d (accept w { s with inputs := .sequencer :: .sequencer :: rest }) =
      .next (atAddrFrame w { s with inputs := .sequencer :: rest }) := by
    have issued : issues (accept w { s with inputs := .sequencer :: .sequencer :: rest }) = some cmd :=
      issues_accept free decoded
    rw [stepOn_issued d (accept_inputs ..) issued]
    rcases takesAddr with rfl | rfl <;> rfl
  have exchanged : stepOn d (atAddrFrame w { s with inputs := .sequencer :: rest }) =
      .next (effectOn d i (atAddrFrame w { s with inputs := rest })) :=
    stepOn_issued d (atAddrFrame_inputs ..) named
  rw [runOn_succ 2 (stepOn_accept d next idle), runOn_succ 1 dispatched, runOn_succ 0 exchanged, runOn]

/-- DWRITE on IdealMemory: the frame reaches the device, and the block is IDLE again with the host's operands (R130). -/
theorem dwrite_idealMemory (start : Word → Byte) (status : Byte) (filler : History → Frame → Nat → Byte) {s : State}
    {rest : List Input} (idle : s.mode = .idle) (free : s.inFlight = none) (addr : s.argAddr.toNat ≤ 0xFFFF)
    (data : s.argData.toNat ≤ 0xFF) (next : s.inputs = .write 0x00 .word 0x2 :: .sequencer :: .sequencer :: rest) :
    ∃ t, runOn (idealMemory start status filler) 3 s = .next t ∧ t.mode = .idle ∧ t.inFlight = none ∧
      t.argAddr = s.argAddr ∧ t.inputs = rest ∧
      t.history = .exchanged (writeFrame s.argAddr s.argData) :: s.history := by
  have named : issues (atAddrFrame 0x2 s) = some (.write s.argAddr s.argData) :=
    issues_of_frameAt rfl free rfl (frameAt_dwrite _ rfl rfl)
  have run := runOn_addrCommand (idealMemory start status filler) idle free next rfl (.inr rfl) named
  rw [effectOn_idealMemory start status filler _ (frameBytes_write addr data)] at run
  exact ⟨_, run.trans (congrArg _ (afterWrite_direct rfl)), rfl, free, rfl, rfl, rfl⟩

/-- DREAD on IdealMemory ends PASS with RESULT the cell (R129). -/
theorem dread_idealMemory (start : Word → Byte) (status : Byte) (filler : History → Frame → Nat → Byte) {s : State}
    {rest : List Input} (idle : s.mode = .idle) (free : s.inFlight = none) (addr : s.argAddr.toNat ≤ 0xFFFF)
    (next : s.inputs = .write 0x00 .word 0x1 :: .sequencer :: .sequencer :: rest) :
    ∃ t, runOn (idealMemory start status filler) 3 s = .next t ∧
      t.result = zext (cellAfter start s.history s.argAddr) ∧ t.code = .pass ∧ t.mode = .idle ∧ t.done = true ∧
      t.txnCount = 1 ∧ t.inputs = rest := by
  have named : issues (atAddrFrame 0x1 s) = some (.read s.argAddr) :=
    issues_of_frameAt rfl free rfl (frameAt_dread _ rfl rfl)
  have run := runOn_addrCommand (idealMemory start status filler) idle free next rfl (.inl rfl) named
  rw [effectOn_idealMemory start status filler _ (frameBytes_read addr)] at run
  have passed := afterRead_direct (s := counted (readFrame s.argAddr) (atAddrFrame 0x1 { s with inputs := rest }))
    (cellAfter start s.history s.argAddr) rfl
  exact ⟨_, run.trans (congrArg _ passed), rfl, rfl, rfl, rfl, rfl, rfl⟩

/-! ## The statements -/

/-- Settles O22: the READ's exchange by its outcome; outside the algorithms the byte is the RESULT. -/
theorem dreadReadEndsWithTheByte : Obligations.DreadReadEndsWithTheByte := by
  intro s standing addr
  have direct : (counted (readFrame s.latched.addr) s).pos.phase = .none := congrArg Pos.phase standing.position
  exact exec_directFrame standing rfl (by decide) (frameAt_dread _ standing.opcode rfl) (frameBytes_read addr)
    fun r => (afterRead_direct r direct).trans (finishWith_eq r standing.opcode (.inl rfl))

/-- Settles O23: the WRITE's exchange by its outcome; the byte is not looked at. -/
theorem dwriteWriteEndsPass : Obligations.DwriteWriteEndsPass := by
  intro s standing addr data
  have direct : (counted (writeFrame s.latched.addr s.latched.data) s).pos.phase = .none :=
    congrArg Pos.phase standing.position
  exact exec_directFrame standing rfl (by decide) (frameAt_dwrite _ standing.opcode rfl) (frameBytes_write addr data)
    fun _ => (afterWrite_direct direct).trans (finish_eq standing.opcode)

/-- Settles O24: the READ_STATUS's exchange by its outcome; the byte is the RESULT. -/
theorem dstatusFrameEndsWithTheStatusByte : Obligations.DstatusFrameEndsWithTheStatusByte := by
  intro s standing
  exact exec_directFrame standing rfl (by decide) (frameAt_dstatus _ standing.opcode rfl) rfl
    fun r => finishWith_eq r standing.opcode (.inr rfl)

/-- Settles O53: DWRITE leaves the value in the cell, and DREAD, run next, returns the cell. -/
theorem writeThenReadRoundTrip : Obligations.WriteThenReadRoundTrip := by
  intro start status filler s idle free addr data next
  obtain ⟨t, written, idle', free', sameAddr, next', history⟩ :=
    dwrite_idealMemory start status filler idle free addr data next
  obtain ⟨u, read, result, ends⟩ :=
    dread_idealMemory start status filler idle' free' (sameAddr ▸ addr) next'
  refine ⟨u, (runOn_add 3 written).trans read, ?_, ends⟩
  calc u.result = zext (cellAfter start t.history t.argAddr) := result
    _ = zext (s.argData.extractLsb' 0 8) := by
      rw [sameAddr, history, cellAfter_write start addr data, if_pos rfl]
    _ = s.argData := valueOf_extract data

/-- Settles O17: the dispatched command has the effect of its `start` definition. -/
theorem directCommandsDispatch : Obligations.DirectCommandsDispatch := fun _ =>
  ⟨fun h => exec_issued (issues_atDispatch h rfl), fun h => exec_issued (issues_atDispatch h rfl),
    fun h => exec_issued (issues_atDispatch h rfl)⟩

end Sys2Proof.Machine
end

section
/-!
SUPPORT, then PROOFS of the statements on spec/41_march_primitives.md: lane arithmetic (R150), the frames of a March
element (R151 to R161), and MELEM from its dispatch to its end, on any device and on IdealMemory (R160, R162).
-/

namespace Sys2Proof.Machine

/-! ## Lanes -/

theorem laneMask_toNat (b : BitVec 3) : (laneMask b).toNat = 2 ^ b.toNat := by
  have small : 2 ^ b.toNat < 2 ^ 8 := Nat.pow_lt_pow_right (by decide) (by omega)
  simp only [laneMask, BitVec.toNat_shiftLeft, BitVec.toNat_ofNat, Nat.shiftLeft_eq]
  omega

/-- A lane mask has the bit of its lane, and no other. -/
@[simp] theorem getLsbD_laneMask (b c : BitVec 3) : (laneMask b).getLsbD c.toNat = decide (c = b) := by
  rw [BitVec.getLsbD, laneMask_toNat, Nat.testBit_two_pow]
  simp only [BitVec.toNat_inj, eq_comm]

theorem laneBit_eq_getLsbD (r : Byte) (b : BitVec 3) : laneBit r b = r.getLsbD b.toNat := by
  rw [laneBit, BitVec.getLsbD_ushiftRight, Nat.add_zero]

theorem laneBit_iff (r : Byte) (b : BitVec 3) : laneBit r b = true ↔ r.toNat / 2 ^ b.toNat % 2 = 1 := by
  rw [laneBit_eq_getLsbD, BitVec.getLsbD, Nat.testBit_eq_decide_div_mod_eq, decide_eq_true_iff]

theorem clearLane_eq (r : Byte) (b : BitVec 3) : clearLane r b = r &&& ~~~ laneMask b := by
  have all : (0xFF : Byte) = BitVec.allOnes 8 := rfl
  rw [clearLane, all, BitVec.and_allOnes]

theorem laneBit_setLane (r : Byte) (b c : BitVec 3) : laneBit (setLane r b) c = (decide (c = b) || laneBit r c) := by
  rw [laneBit_eq_getLsbD, laneBit_eq_getLsbD, setLane, BitVec.getLsbD_or, getLsbD_laneMask, Bool.or_comm]

theorem laneBit_clearLane (r : Byte) (b c : BitVec 3) :
    laneBit (clearLane r b) c = (decide (c ≠ b) && laneBit r c) := by
  have inByte : c.toNat < 8 := c.isLt
  rw [laneBit_eq_getLsbD, laneBit_eq_getLsbD, clearLane_eq, BitVec.getLsbD_and, BitVec.getLsbD_not, getLsbD_laneMask,
    decide_eq_true inByte, Bool.true_and, Bool.and_comm, decide_not]

/-- A lane write changes its lane and no other (R152, R153, R159). -/
theorem laneBit_writeLane (v : Bool) (r : Byte) (b c : BitVec 3) :
    laneBit (writeLane v r b) c = if c = b then v else laneBit r c := by
  cases v with
  | true =>
    rw [writeLane, if_pos rfl, laneBit_setLane]
    by_cases same : c = b <;> simp [same]
  | false =>
    rw [writeLane, if_neg Bool.false_ne_true, laneBit_clearLane]
    by_cases same : c = b <;> simp [same]

/-- Lane writes in a row leave the lane at the last one's value, and every other lane as it was (R162). -/
theorem laneBit_writeLanes (vs : List Bool) (r : Byte) (b c : BitVec 3) :
    laneBit (vs.foldl (fun r v => writeLane v r b) r) c = if c = b then vs.getLastD (laneBit r b) else laneBit r c := by
  induction vs generalizing r with
  | nil =>
    by_cases same : c = b
    · rw [if_pos same, same]
      rfl
    · rw [if_neg same]
      rfl
  | cons v vs ih =>
    rw [List.foldl_cons, ih, laneBit_writeLane v r b b, if_pos rfl, List.getLastD_cons, laneBit_writeLane v r b c]
    by_cases same : c = b
    · rw [if_pos same, if_pos same]
    · rw [if_neg same, if_neg same, if_neg same]

/-- The value of a read-modify-write's WRITE, as the statements write it (R152, R153). -/
theorem zext_writeLane (v : Bool) (r : Byte) (b : BitVec 3) :
    zext (writeLane v r b) =
      (if v then r ||| 1#8 <<< b.toNat else r &&& ~~~(1#8 <<< b.toNat)).setWidth 32 := by
  rw [writeLane, clearLane_eq]
  rfl

/-! ## Terminations in the statements' words -/

/-- A mismatch's record: where the READ was, the value expected, and the byte observed (R223, R229). -/
theorem verifyFail_eq (x : Word) (r : Byte) (s : State) :
    verifyFail x r s = ended .fail (whereIn .read false s) s.pos.a x (r.setWidth 32) 0 s := by
  have record : failWhereOf .fail { Info.empty with kind := .read, addr := s.pos.a, exp := x, obs := zext r } s =
      whereIn .read false s := by
    by_cases checker : s.latched.opc = 0x4 <;>
      simp only [failWhereOf, whereIn, recordsFailure, opcChecker, checker, decide_true, decide_false] <;> rfl
  rw [← record]
  rfl

/-- BAD_PARAM records ALG alone (R225, R229). -/
theorem terminate_badParam_eq (s : State) :
    terminate .badParam Info.empty s = ended .badParam (algOnly s.latched.opc) 0 0 0 0 s := rfl

/-! ## The frames of an element and what follows them -/

/-- Every element writes its lane (R154 to R157). -/
theorem writes_pos {p : Phase} {e : Element} (h : elementOf p = some e) : 0 < e.writes.length := by
  cases p <;> cases h <;> decide

/-- FIDX does not wrap at the frame that ends an element's j-th read-modify-write, or at the verify for j = 0 (R161). -/
theorem even_fidx {e : Element} {p : Phase} (element : elementOf p = some e) {j : Nat} (h : j ≤ e.writes.length) :
    (BitVec.ofNat 3 (2 * j)).toNat = 2 * j := by
  have frames := elementFrames_le element
  unfold elementFrames at frames
  rw [BitVec.toNat_ofNat]
  omega

theorem frameAt_verify {l : Latched} {p : Pos} (rmw : Byte) {e : Element} (element : elementOf p.phase = some e)
    (verify : p.fidx = 0) : frameAt l p rmw = some (.read p.a) := by
  rw [frameAt_element element, verify]
  rfl

theorem frameAt_rmwRead {l : Latched} {p : Pos} (rmw : Byte) {e : Element} {j : Nat}
    (element : elementOf p.phase = some e) (fidx : p.fidx = BitVec.ofNat 3 (2 * j + 1)) (h : j < e.writes.length) :
    frameAt l p rmw = some (.read p.a) := by
  have odd : readAt e (2 * j + 1) = true := readAt_odd (by unfold elementFrames; omega)
  rw [frameAt_element element, fidx, rmwRead_fidx element h, if_pos odd]

/-- The WRITE of an element's j-th read-modify-write carries rmw with the lane written (R158). -/
theorem frameAt_rmwWrite {l : Latched} {p : Pos} (rmw : Byte) {e : Element} {j : Nat} {v : Bool}
    (element : elementOf p.phase = some e) (fidx : p.fidx = BitVec.ofNat 3 (2 * (j + 1)))
    (written : e.writes[j]? = some v) :
    frameAt l p rmw = some (.write p.a (zext (writeLane v rmw p.lane))) := by
  obtain ⟨h, _⟩ := List.getElem?_eq_some_iff.mp written
  have notRead : ¬ readAt e (2 * (j + 1)) = true := by simp [readAt]
  have write : writeAt e (2 * (j + 1)) = some v := by
    rw [writeAt, if_pos (by omega), ← written]
    congr 1
    omega
  rw [frameAt_element element, fidx, even_fidx element h, if_neg notRead, write]
  rfl

/-- After the verify, or a lane write that is not the last, the element goes on to its next lane write's READ (R161). -/
theorem elementFrameDone_next {e : Element} {p : Pos} {s : State} {j : Nat} (position : s.pos = p)
    (element : elementOf p.phase = some e) (fidx : p.fidx = BitVec.ofNat 3 (2 * j)) (h : j < e.writes.length) :
    elementFrameDone e s = moveTo { p with fidx := BitVec.ofNat 3 (2 * j + 1) } s := by
  subst position
  have inside : s.pos.fidx.toNat + 1 < elementFrames e := by
    rw [fidx, even_fidx element h.le]
    unfold elementFrames
    omega
  have next : s.pos.fidx + 1 = BitVec.ofNat 3 (2 * j + 1) := by
    rw [fidx]
    exact (BitVec.ofNat_add _ _).symm
  rw [elementFrameDone, if_pos inside, next]

/-- After the last lane write of its element MELEM ends PASS (R160). -/
theorem elementFrameDone_melem {e : Element} {p : Pos} {s : State} (position : s.pos = p)
    (element : elementOf p.phase = some e) (fidx : p.fidx = BitVec.ofNat 3 (2 * e.writes.length))
    (opcode : s.latched.opc = opcMelem) : elementFrameDone e s = finish s := by
  subst position
  have last : ¬ s.pos.fidx.toNat + 1 < elementFrames e := by
    rw [fidx, even_fidx element le_rfl]
    unfold elementFrames
    omega
  rw [elementFrameDone, if_neg last, elementDone, if_pos opcode]

theorem afterWrite_element {e : Element} {p : Pos} {s : State} (position : s.pos = p)
    (element : elementOf p.phase = some e) : afterWrite s = elementFrameDone e s :=
  frameDone_element (position ▸ element)

/-- The verify READ compares its lane alone (R151). -/
theorem afterRead_verify {e : Element} {p : Pos} {s : State} (r : Byte) (position : s.pos = p)
    (element : elementOf p.phase = some e) (verify : p.fidx = 0) :
    afterRead r s =
      if laneBit r p.lane = e.expect then elementFrameDone e s else verifyFail (laneValue e.expect) r s := by
  subst position
  rw [afterRead_element r element, afterElementRead, if_pos verify, frameDone_element element]

/-- A lane element's frame, by the outcome of its exchange: what follows it, or a failure recorded with lane and FIDX
(R123, R161, R222). -/
theorem exec_elementFrame {opc : BitVec 4} {p : Pos} {s : State} {e : Element} {i : Instr} {tx : Frame}
    {onByte : Byte → State} (command : opc = 0x5 ∨ opc = 0x7) (standing : AtFrame opc p s)
    (element : elementOf p.phase = some e) (named : frameAt s.latched p s.rmw = some i)
    (sent : frameBytes i = some tx) (after : ∀ r, afterFrame i r (counted tx s) = onByte r) :
    exec i s = .next
      (byOutcome (outcomeNow tx s) tx s onByte
        (ended .transportError (laneWhere opc p (frameInfo i).kind) (frameInfo i).addr (frameInfo i).exp 0 0
          (lost tx s))) := by
  have notChecker : opc ≠ 0x4 := by rcases command with rfl | rfl <;> decide
  rw [exec_issued ((issues_atFrame standing).trans named), effectOn_frame Config.device s sent, transportError_eq,
    whereIn_lane _ standing.opcode standing.position (lanePhase_of_elementOf element) notChecker]
  simp only [after]
  rfl

/-! ## Dispatch of MELEM -/

theorem laneLegal_iff (lane : Word) : laneLegal lane = true ↔ lane.toNat ≤ 7 := by
  simp [laneLegal, BitVec.le_def]

/-- Element numbers outside 1 to 4 have no phase (R160). -/
theorem phaseOf_outside {elem : Word} (h : elem.toNat = 0 ∨ 4 < elem.toNat) : phaseOf elem = none := by
  have other : ∀ n : Word, 1 ≤ n.toNat → n.toNat ≤ 4 → elem ≠ n := by
    rintro n low high rfl
    omega
  rw [phaseOf, if_neg (other 1 (by decide) (by decide)), if_neg (other 2 (by decide) (by decide)),
    if_neg (other 3 (by decide) (by decide)), if_neg (other 4 (by decide) (by decide))]

theorem phaseOf_listed {p : Phase} {n : Nat} {elem : Word}
    (listed : (p, n) ∈ [(Phase.m1, 1), (Phase.m2, 2), (Phase.m3, 3), (Phase.m4, 4)]) (number : elem.toNat = n) :
    phaseOf elem = some p := by
  have word : elem = BitVec.ofNat 32 n := by rw [← number, BitVec.ofNat_toNat, BitVec.setWidth_eq]
  simp only [List.mem_cons, List.not_mem_nil, Prod.mk.injEq, or_false] at listed
  rcases listed with ⟨rfl, rfl⟩ | ⟨rfl, rfl⟩ | ⟨rfl, rfl⟩ | ⟨rfl, rfl⟩ <;> rw [word] <;> rfl

/-- MELEM's parameter check fails for a lane above 7 or an element outside 1 to 4, whatever the address (R160). -/
theorem melemPhase_outside {l : Latched} (h : 7 < l.lane.toNat ∨ l.elem.toNat = 0 ∨ 4 < l.elem.toNat) :
    melemPhase l = none := by
  rw [melemPhase]
  split
  · rename_i legal
    rw [laneLegal_iff] at legal
    exact phaseOf_outside (by omega)
  · rfl

theorem startMelem_badParam {s : State}
    (h : 7 < s.latched.lane.toNat ∨ s.latched.elem.toNat = 0 ∨ 4 < s.latched.elem.toNat) :
    startMelem s = terminate .badParam Info.empty (markDispatched s) := by
  simp only [startMelem, melemPhase_outside h]

/-- A legal MELEM stands at its element's verify frame (R160). -/
theorem startMelem_verify {s : State} {p : Phase} {n : Nat}
    (listed : (p, n) ∈ [(Phase.m1, 1), (Phase.m2, 2), (Phase.m3, 3), (Phase.m4, 4)])
    (lane : s.latched.lane.toNat ≤ 7) (number : s.latched.elem.toNat = n) :
    startMelem s =
      moveTo { phase := p, a := s.latched.addr, lane := BitVec.ofNat 3 s.latched.lane.toNat, fidx := 0 }
        (markDispatched s) := by
  have legal : melemPhase s.latched = some p := by
    rw [melemPhase, if_pos ((laneLegal_iff _).mpr lane), phaseOf_listed listed number]
  simp only [startMelem, legal]
  rfl

/-! ## MELEM on IdealMemory -/

/-- The sequencer stands at frame k of MELEM's element in phase p, on lane b of cell a, and no input waits. -/
structure AtMelemFrame (p : Phase) (a : Word) (b : BitVec 3) (k : Nat) (s : State) : Prop
    extends AtFrame 0x7 { phase := p, a := a, lane := b, fidx := BitVec.ofNat 3 k } s where
  noInput : s.inputs = []

/-- Counting a frame leaves the sequencer at it. -/
theorem AtMelemFrame.counted {p : Phase} {a : Word} {b : BitVec 3} {k : Nat} {s : State} (h : AtMelemFrame p a b k s)
    (tx : Frame) : AtMelemFrame p a b k (counted tx s) :=
  ⟨⟨h.busy, h.portFree, h.dispatched, h.opcode, h.position⟩, h.noInput⟩

theorem AtMelemFrame.moveTo {p : Phase} {a : Word} {b : BitVec 3} {k : Nat} {s : State} (h : AtMelemFrame p a b k s)
    (n : Nat) : AtMelemFrame p a b n (moveTo { phase := p, a := a, lane := b, fidx := BitVec.ofNat 3 n } s) :=
  ⟨⟨h.busy, h.portFree, h.dispatched, h.opcode, rfl⟩, h.noInput⟩

theorem AtMelemFrame.latchRmw {p : Phase} {a : Word} {b : BitVec 3} {k : Nat} {s : State} (h : AtMelemFrame p a b k s)
    (r : Byte) : AtMelemFrame p a b k { s with rmw := r } :=
  ⟨⟨h.busy, h.portFree, h.dispatched, h.opcode, h.position⟩, h.noInput⟩

/-- From s to t, the lane writes vs were made on lane b of cell a, two counted frames each, and no other cell changed. -/
structure LaneWrites (start : Word → Byte) (a : Word) (b : BitVec 3) (vs : List Bool) (s t : State) : Prop where
  count : t.txnCount = s.txnCount + BitVec.ofNat 32 (2 * vs.length)
  cell : cellAfter start t.history a = vs.foldl (fun r v => writeLane v r b) (cellAfter start s.history a)
  others : ∀ c, c ≠ a → cellAfter start t.history c = cellAfter start s.history c

theorem LaneWrites.cons {start : Word → Byte} {a : Word} {b : BitVec 3} {v : Bool} {vs : List Bool} {s t u : State}
    (first : LaneWrites start a b [v] s t) (rest : LaneWrites start a b vs t u) :
    LaneWrites start a b (v :: vs) s u where
  count := by
    rw [rest.count, first.count, BitVec.add_assoc, ← BitVec.ofNat_add, List.length_cons, Nat.mul_succ, Nat.add_comm]
    rfl
  cell := by rw [rest.cell, first.cell, List.foldl_cons, List.foldl_cons, List.foldl_nil]
  others c other := (rest.others c other).trans (first.others c other)

/-- With no input waiting, the step is the effect of what the sequencer issues (log 6). -/
theorem stepOn_noInput (d : Device) {s : State} {i : Instr} (noInput : s.inputs = []) (issued : issues s = some i) :
    stepOn d s = .next (effectOn d i s) := by
  have turn_eq : stepOn d s = sequencerTurn (execOn d) s := by simp only [stepOn, turn, noInput]
  rw [turn_eq, sequencerTurn_issued (execOn d) issued, execOn_issued d issued]

section

variable (start : Word → Byte) (status : Byte) (filler : History → Frame → Nat → Byte)
variable {p : Phase} {e : Element} {a : Word} {b : BitVec 3} {j : Nat} {s : State}

/-- The frame at MELEM's position on IdealMemory is one step: the frame is counted, and then its computation (R38). -/
theorem stepOn_melemFrame {k : Nat} {i : Instr} {tx : Frame} (standing : AtMelemFrame p a b k s)
    (named : frameAt s.latched { phase := p, a := a, lane := b, fidx := BitVec.ofNat 3 k } s.rmw = some i)
    (sent : frameBytes i = some tx) :
    stepOn (idealMemory start status filler) s = .next
      (afterFrame i (answerByte (cellAfter start s.history) status (filler s.history tx (tx.length - 1)) (.ok i))
        (counted tx s)) := by
  rw [stepOn_noInput _ standing.noInput ((issues_atFrame standing.toAtFrame).trans named),
    effectOn_idealMemory start status filler s sent]

/-- The READ of MELEM's j-th read-modify-write on IdealMemory latches the cell into rmw (R152, R153). -/
theorem stepOn_rmwRead (element : elementOf p = some e) (addr : a.toNat ≤ 0xFFFF) (h : j < e.writes.length)
    (standing : AtMelemFrame p a b (2 * j + 1) s) :
    ∃ t, stepOn (idealMemory start status filler) s = .next t ∧ AtMelemFrame p a b (2 * (j + 1)) t ∧
      t.rmw = cellAfter start s.history a ∧ t.txnCount = s.txnCount + 1 ∧
      t.history = .exchanged (readFrame a) :: s.history := by
  have position : (counted (readFrame a) s).pos =
      { phase := p, a := a, lane := b, fidx := BitVec.ofNat 3 (2 * j + 1) } := standing.position
  have latched := afterRead_rmw (s := counted (readFrame a) s) (cellAfter start s.history a)
    (by rw [position]; exact element) (by rw [position]) h
  rw [position] at latched
  rw [stepOn_melemFrame start status filler standing (frameAt_rmwRead _ element rfl h) (frameBytes_read addr)]
  exact ⟨_, congrArg _ latched, ((standing.counted _).latchRmw _).moveTo _, rfl, rfl, rfl⟩

/-- The WRITE of MELEM's j-th read-modify-write on IdealMemory carries rmw with the lane written (R158). -/
theorem stepOn_rmwWrite {v : Bool} (element : elementOf p = some e) (addr : a.toNat ≤ 0xFFFF)
    (written : e.writes[j]? = some v) (standing : AtMelemFrame p a b (2 * (j + 1)) s) :
    stepOn (idealMemory start status filler) s =
      .next (elementFrameDone e (counted (writeFrame a (zext (writeLane v s.rmw b))) s)) := by
  rw [stepOn_melemFrame start status filler standing (frameAt_rmwWrite _ element rfl written)
    (frameBytes_write addr (zext_le _))]
  exact congrArg _ (afterWrite_element (standing.counted _).position element)

/-- MELEM's j-th read-modify-write on IdealMemory: two steps, which make one lane write (R152, R153, R158). -/
theorem runOn_rmw {v : Bool} (element : elementOf p = some e) (addr : a.toNat ≤ 0xFFFF)
    (written : e.writes[j]? = some v) (standing : AtMelemFrame p a b (2 * j) s) :
    ∃ t, runOn (idealMemory start status filler) 2 (elementFrameDone e s) = .next (elementFrameDone e t) ∧
      AtMelemFrame p a b (2 * (j + 1)) t ∧ LaneWrites start a b [v] s t := by
  obtain ⟨h, _⟩ := List.getElem?_eq_some_iff.mp written
  obtain ⟨t, read, atWrite, rmw, count, history⟩ :=
    stepOn_rmwRead start status filler element addr h (standing.moveTo (2 * j + 1))
  have write := stepOn_rmwWrite start status filler element addr written atWrite
  refine ⟨_, ?_, atWrite.counted (writeFrame a (zext (writeLane v t.rmw b))), ?_, ?_, fun c other => ?_⟩
  · rw [elementFrameDone_next standing.position element rfl h, runOn_succ 1 read, runOn_succ 0 write, runOn]
  · calc t.txnCount + 1 = s.txnCount + 1 + 1 := congrArg (· + 1) count
      _ = s.txnCount + BitVec.ofNat 32 2 := BitVec.add_assoc ..
  · calc cellAfter start (.exchanged (writeFrame a (zext (writeLane v t.rmw b))) :: t.history) a
        = (zext (writeLane v t.rmw b)).extractLsb' 0 8 := by
          rw [cellAfter_write start addr (zext_le _), if_pos rfl]
      _ = writeLane v (cellAfter start s.history a) b := by
          rw [rmw]
          exact (valueOf_byte _).2
  · calc cellAfter start (.exchanged (writeFrame a (zext (writeLane v t.rmw b))) :: t.history) c
        = cellAfter start t.history c := by rw [cellAfter_write start addr (zext_le _), if_neg other.symm]
      _ = cellAfter start s.history c := by
          rw [history]
          exact cellAfter_read start addr _ c

/-- The lane writes left to MELEM's element run on IdealMemory to PASS (R160, R162). -/
theorem runOn_laneWrites (element : elementOf p = some e) (addr : a.toNat ≤ 0xFFFF) (left : List Bool)
    (standing : AtMelemFrame p a b (2 * j) s) (h : j ≤ e.writes.length) (rest : e.writes.drop j = left) :
    ∃ t, runOn (idealMemory start status filler) (2 * left.length) (elementFrameDone e s) = .next t ∧
      t.mode = .idle ∧ t.code = .pass ∧ LaneWrites start a b left s t := by
  induction left generalizing j s with
  | nil =>
    have all : j = e.writes.length := le_antisymm h (List.drop_eq_nil_iff.mp rest)
    have done : elementFrameDone e s = finish s :=
      elementFrameDone_melem standing.position element (by rw [all]) standing.opcode
    refine ⟨finish s, ?_, rfl, rfl, (BitVec.add_zero _).symm, rfl, fun _ _ => rfl⟩
    rw [done]
    rfl
  | cons v left ih =>
    have written : e.writes[j]? = some v := by
      rw [← Nat.add_zero j, ← List.getElem?_drop, rest, List.getElem?_cons_zero]
    have more : j + 1 ≤ e.writes.length := (List.getElem?_eq_some_iff.mp written).1
    obtain ⟨t, first, standing', wrote⟩ := runOn_rmw start status filler element addr written standing
    obtain ⟨u, run, idle, passed, wrote'⟩ :=
      ih standing' more (by rw [List.drop_add_one_eq_tail_drop, rest, List.tail_cons])
    refine ⟨u, ?_, idle, passed, wrote.cons wrote'⟩
    rw [List.length_cons, Nat.mul_succ, Nat.add_comm, runOn_add _ first, run]

/-- The dispatch of a legal MELEM is one step, to its element's verify frame (R160; log 1). -/
theorem stepOn_melemDispatch (d : Device) {n : Nat}
    (listed : (p, n) ∈ [(Phase.m1, 1), (Phase.m2, 2), (Phase.m3, 3), (Phase.m4, 4)]) (atDispatch : AtDispatch 0x7 s)
    (noInput : s.inputs = []) (number : s.latched.elem.toNat = n) (lane : s.latched.lane.toNat = b.toNat) :
    ∃ t, stepOn d s = .next t ∧ AtMelemFrame p s.latched.addr b 0 t ∧ t.txnCount = s.txnCount ∧
      t.history = s.history := by
  have laneWord : BitVec.ofNat 3 s.latched.lane.toNat = b := by rw [lane, BitVec.ofNat_toNat, BitVec.setWidth_eq]
  rw [stepOn_noInput d noInput (issues_atDispatch atDispatch rfl), effectOn,
    startMelem_verify listed (by omega) number, laneWord]
  exact ⟨_, rfl, ⟨⟨atDispatch.busy, atDispatch.portFree, rfl, atDispatch.opcode, rfl⟩, noInput⟩, rfl, rfl⟩

/-- MELEM's verify READ on IdealMemory compares the cell's lane (R151). -/
theorem stepOn_verify (element : elementOf p = some e) (addr : a.toNat ≤ 0xFFFF)
    (standing : AtMelemFrame p a b 0 s) :
    stepOn (idealMemory start status filler) s = .next
      (if laneBit (cellAfter start s.history a) b = e.expect then elementFrameDone e (counted (readFrame a) s)
       else verifyFail (laneValue e.expect) (cellAfter start s.history a) (counted (readFrame a) s)) := by
  rw [stepOn_melemFrame start status filler standing (frameAt_verify _ element rfl) (frameBytes_read addr)]
  exact congrArg _ (afterRead_verify _ (standing.counted _).position element rfl)

/-- MELEM's dispatch and its verify frame on IdealMemory: two steps, and one counted frame that changes no cell (log 1). -/
theorem runOn_verify {n : Nat} (element : elementOf p = some e)
    (listed : (p, n) ∈ [(Phase.m1, 1), (Phase.m2, 2), (Phase.m3, 3), (Phase.m4, 4)]) (atDispatch : AtDispatch 0x7 s)
    (noInput : s.inputs = []) (number : s.latched.elem.toNat = n) (lane : s.latched.lane.toNat = b.toNat)
    (addr : s.latched.addr.toNat ≤ 0xFFFF) :
    ∃ t, runOn (idealMemory start status filler) 2 s = .next
        (if laneBit (cellAfter start s.history s.latched.addr) b = e.expect then elementFrameDone e t
         else verifyFail (laneValue e.expect) (cellAfter start s.history s.latched.addr) t) ∧
      AtMelemFrame p s.latched.addr b 0 t ∧ t.txnCount = s.txnCount + 1 ∧
      ∀ c, cellAfter start t.history c = cellAfter start s.history c := by
  obtain ⟨r, dispatched, atVerify, count, history⟩ := stepOn_melemDispatch (idealMemory start status filler) listed
    atDispatch noInput number lane
  have verified := stepOn_verify start status filler element addr atVerify
  rw [history] at verified
  exact ⟨_, (runOn_succ 1 dispatched).trans (runOn_succ 0 verified), atVerify.counted _, congrArg (· + 1) count,
    fun c => (cellAfter_read start addr _ c).trans (by rw [history])⟩

end

/-! ## The statements -/

/-- Settles O54: the verify READ decides; after a match the lane writes run in order to PASS, and a mismatch ends FAIL. -/
theorem melemOnIdealMemory : Obligations.MelemOnIdealMemory := by
  intro start status filler s p x ws n b listed numbered atDispatch noInput uncounted number lane addr
  have element := elementOf_marchTable listed
  obtain ⟨t, verified, standing, count, kept⟩ :=
    runOn_verify start status filler element numbered atDispatch noInput number lane addr
  refine ⟨fun reads => ?_, fun differs => ?_⟩
  · rw [if_pos reads] at verified
    obtain ⟨u, run, idle, passed, wrote⟩ :=
      runOn_laneWrites start status filler element addr ws standing (Nat.zero_le _) rfl
    refine ⟨u, (runOn_add _ verified).trans run, idle, passed, ?_, fun c => ?_, fun c other => ?_⟩
    · have short : 1 + 2 * ws.length ≤ 7 := elementFrames_le element
      have frames : u.txnCount = BitVec.ofNat 32 (1 + 2 * ws.length) := by
        rw [wrote.count, count, uncounted, BitVec.ofNat_add]
        rfl
      rw [frames, BitVec.toNat_ofNat]
      exact Nat.mod_eq_of_lt (by omega)
    · rw [wrote.cell, laneBit_writeLanes, kept, reads]
    · rw [wrote.others c other, kept]
  · rw [if_neg differs, verifyFail_eq,
      whereIn_lane _ standing.opcode standing.position (lanePhase_of_elementOf element) (by decide),
      standing.position] at verified
    exact ⟨_, verified, rfl, rfl, count.trans (by rw [uncounted]; rfl), rfl, rfl, rfl, rfl, kept⟩

/-- Settles O28: a match goes on as after every even FIDX, and a mismatch's record is VerifyFail's. -/
theorem elementVerifyComparesOneLane : Obligations.ElementVerifyComparesOneLane := by
  intro s opc p x ws a b command listed standing addr
  have element := elementOf_marchTable listed
  have notChecker : opc ≠ 0x4 := by rcases command with rfl | rfl <;> decide
  refine exec_elementFrame command standing element (frameAt_verify _ element rfl) (frameBytes_read addr) fun r => ?_
  have position : (counted (readFrame a) s).pos = { phase := p, a := a, lane := b, fidx := 0 } := standing.position
  have opcode : (counted (readFrame a) s).latched.opc = opc := standing.opcode
  rw [afterFrame, afterRead_verify r position element rfl,
    elementFrameDone_next (j := 0) position element rfl (writes_pos element), verifyFail_eq,
    whereIn_lane _ opcode position (lanePhase_of_elementOf element) notChecker, position, laneBit_eq_getLsbD]
  rfl

/-- Settles O30: the WRITE's operand is rmw with the lane written, and FIDX 2j + 2 is even and not the last. -/
theorem rmwWriteSendsRmwWithOneLaneChanged : Obligations.RmwWriteSendsRmwWithOneLaneChanged := by
  intro s opc p x ws a v b j w command listed more written standing addr value
  have element := elementOf_marchTable listed
  rw [← zext_writeLane] at value
  have named : frameAt s.latched { phase := p, a := a, lane := b, fidx := BitVec.ofNat 3 (2 * (j + 1)) } s.rmw =
      some (.write a v) := value ▸ frameAt_rmwWrite _ element rfl written
  have fits : v.toNat ≤ 0xFF := value ▸ zext_le _
  refine exec_elementFrame command standing element named (frameBytes_write addr fits) fun r => ?_
  have position : (counted (writeFrame a v) s).pos =
      { phase := p, a := a, lane := b, fidx := BitVec.ofNat 3 (2 * (j + 1)) } := standing.position
  rw [afterFrame, afterWrite_element position element, elementFrameDone_next position element rfl more]
  rfl

/-- Settles O31: the last lane write's WRITE, after which MELEM's element is done. -/
theorem melemLastWriteEndsPass : Obligations.MelemLastWriteEndsPass := by
  intro s p x ws a v b w listed last standing addr value
  have element := elementOf_marchTable listed
  rw [← zext_writeLane] at value
  obtain ⟨j, length⟩ : ∃ j, ws.length = j + 1 :=
    Nat.exists_eq_succ_of_ne_zero fun empty => by simp [List.length_eq_zero_iff.mp empty] at last
  have written : ws[j]? = some w := by rw [← last, List.getLast?_eq_getElem?, length, Nat.add_sub_cancel]
  have named : frameAt s.latched { phase := p, a := a, lane := b, fidx := BitVec.ofNat 3 (2 * ws.length) } s.rmw =
      some (.write a v) := value ▸ frameAt_rmwWrite _ element (by rw [length]) written
  have fits : v.toNat ≤ 0xFF := value ▸ zext_le _
  refine exec_elementFrame (.inr rfl) standing element named (frameBytes_write addr fits) fun r => ?_
  have position : (counted (writeFrame a v) s).pos =
      { phase := p, a := a, lane := b, fidx := BitVec.ofNat 3 (2 * ws.length) } := standing.position
  have opcode : (counted (writeFrame a v) s).latched.opc = 0x7 := standing.opcode
  rw [afterFrame, afterWrite_element position element, elementFrameDone_melem position element rfl opcode,
    finish_eq opcode]

/-- Settles O20: the dispatch is `startMelem`, whose parameter check is on the lane and the element alone. -/
theorem melemDispatches : Obligations.MelemDispatches := by
  intro s atDispatch
  rw [exec_issued (issues_atDispatch atDispatch rfl), effectOn]
  refine ⟨fun outside => ?_, fun p n listed lane number => ?_⟩
  · rw [startMelem_badParam outside, terminate_badParam_eq, markDispatched_latched, atDispatch.opcode]
    rfl
  · rw [startMelem_verify listed lane number]
    rfl

/-- Settles O49: the mask and the lane value by number, setting and clearing lane by lane. -/
theorem laneArithmetic : Obligations.LaneArithmetic := fun r b =>
  ⟨laneMask_toNat b, laneBit_iff r b, rfl, rfl, rfl, rfl, laneBit_setLane r b, laneBit_clearLane r b⟩

end Sys2Proof.Machine
end

section
/-!
SUPPORT, then PROOFS of the statements on spec/42_algorithms.md about the loops: the sequencer's advance visits the
positions of the nested loops in their order (R180 to R183, R197), and how many there are (R199).
-/

namespace Sys2Proof.Machine

theorem nextAddress_ascending {p : Phase} (n a : Word) (up : descending p = false) :
    nextAddress p n a = if a.toNat + 1 < n.toNat then some (a + 1) else none := by
  rw [nextAddress, if_neg (by rw [up]; decide)]

theorem nextAddress_descending {p : Phase} (n a : Word) (down : descending p = true) :
    nextAddress p n a = if 0 < a.toNat then some (a - 1) else none := by
  have last : a = 0 ↔ ¬ 0 < a.toNat := by bv_omega
  simp only [nextAddress, down, if_true, last, ite_not]

/-! ## Lists -/

/-- An element of nested lists stands in one of the inner lists, and what follows it is the rest of that one and the
inner lists after it. -/
theorem flatMap_split {α β : Type} {f : α → List β} {xs : List α} {before after : List β} {y : β}
    (h : xs.flatMap f = before ++ y :: after) :
    ∃ xs₁ x xs₂ ys₁ ys₂, xs = xs₁ ++ x :: xs₂ ∧ f x = ys₁ ++ y :: ys₂ ∧ after = ys₂ ++ xs₂.flatMap f := by
  induction xs generalizing before with
  | nil => simp at h
  | cons x xs ih =>
    have later {before : List β} (h : xs.flatMap f = before ++ y :: after) :
        ∃ xs₁ x' xs₂ ys₁ ys₂, x :: xs = xs₁ ++ x' :: xs₂ ∧ f x' = ys₁ ++ y :: ys₂ ∧ after = ys₂ ++ xs₂.flatMap f := by
      obtain ⟨xs₁, x', xs₂, ys₁, ys₂, rfl, inner, rest⟩ := ih h
      exact ⟨x :: xs₁, x', xs₂, ys₁, ys₂, rfl, inner, rest⟩
    rw [List.flatMap_cons, List.append_eq_append_iff] at h
    rcases h with ⟨as, _, tail⟩ | ⟨bs, inner, tail⟩
    · exact later tail
    · cases bs with
      | nil => exact later (before := []) tail.symm
      | cons b bs =>
        obtain ⟨rfl, rfl⟩ := List.cons.inj tail
        exact ⟨[], x, xs, before, bs, rfl, inner, rfl⟩

/-- What stands before and after a number in a list of the first n numbers. -/
theorem range_split {n a : Nat} {xs ys : List Nat} (h : List.range n = xs ++ a :: ys) :
    xs = List.range a ∧ ys = List.range' (a + 1) (n - (a + 1)) := by
  rw [List.range_eq_range'] at h ⊢
  obtain ⟨k, _, rfl, rest⟩ := List.range'_eq_append_iff.mp h
  obtain ⟨start, _, rfl⟩ := List.range'_eq_cons_iff.mp rest.symm
  obtain rfl : k = a := by omega
  exact ⟨rfl, by rw [Nat.sub_sub]⟩

/-- `nextAddress` walks the sweep (R180). -/
theorem nextAddress_sweep {p : Phase} {n : Word} {a : Nat} {xs ys : List Nat}
    (h : sweep p n.toNat = xs ++ a :: ys) :
    nextAddress p n (BitVec.ofNat 32 a) = ys.head?.map (BitVec.ofNat 32) := by
  have size := n.isLt
  cases order : descending p with
  | false =>
    rw [sweep, order, if_neg Bool.false_ne_true, asc] at h
    have inside : a < n.toNat := List.mem_range.mp (h ▸ List.mem_append_right xs List.mem_cons_self)
    have number : (BitVec.ofNat 32 a).toNat = a := Nat.mod_eq_of_lt (inside.trans size)
    rw [nextAddress_ascending _ _ order, number, (range_split h).2, List.head?_range']
    by_cases more : a + 1 < n.toNat
    · rw [if_pos more, if_neg (by omega), Option.map_some, BitVec.ofNat_add]
      rfl
    · rw [if_neg more, if_pos (by omega)]
      rfl
  | true =>
    rw [sweep, order, if_pos rfl, desc, List.reverse_eq_append_iff, List.reverse_cons, List.append_assoc] at h
    have inside : a < n.toNat := List.mem_range.mp (h ▸ List.mem_append_right _ List.mem_cons_self)
    have number : (BitVec.ofNat 32 a).toNat = a := Nat.mod_eq_of_lt (inside.trans size)
    have below : ys = (List.range a).reverse := List.reverse_eq_iff.mp (range_split h).1
    rw [nextAddress_descending _ _ order, number, below, List.head?_reverse, List.getLast?_range]
    cases a with
    | zero => rfl
    | succ a =>
      rw [if_pos (Nat.succ_pos a), if_neg (Nat.succ_ne_zero a), BitVec.ofNat_add]
      simp

/-- A sweep starts at its first address (R180). -/
theorem firstAddress_sweep (p : Phase) (n : Word) :
    firstAddress p n = (sweep p n.toNat).head?.map (BitVec.ofNat 32) := by
  have empty : n = 0 ↔ n.toNat = 0 := by bv_omega
  simp only [firstAddress, sweep, empty]
  cases descending p with
  | false =>
    rw [if_neg Bool.false_ne_true, if_neg Bool.false_ne_true, asc, List.head?_range]
    split_ifs <;> rfl
  | true =>
    rw [if_pos rfl, if_pos rfl, desc, List.head?_reverse, List.getLast?_range]
    split_ifs with none
    · rfl
    · have last : n - 1 = BitVec.ofNat 32 (n.toNat - 1) := by bv_omega
      rw [last]
      rfl

/-- `nextLane` walks a phase's lanes (R181). -/
theorem nextLane_laneOrder {p : Phase} {b : BitVec 3} {xs ys : List (BitVec 3)} (h : laneOrder p = xs ++ b :: ys) :
    nextLane p b = ys.head? := by
  have walks : ∀ i < 8, ((laneOrder p)[i]?).bind (nextLane p) = (laneOrder p)[i + 1]? := by cases p <;> decide
  have length : (laneOrder p).length = 8 := by cases p <;> rfl
  have inside : xs.length < 8 := by
    rw [← length, h, List.length_append, List.length_cons]
    omega
  simpa [h, List.getElem?_append_right, List.head?_eq_getElem?] using walks xs.length inside

/-- The phases after one in its algorithm (R185, R188, R194). -/
theorem phasesAfter_of_algorithm {ps xs ys : List Phase} {p : Phase}
    (algorithm : ps = checkerPhases ∨ ps = marchPhases ∨ ps = sequencePhases) (h : ps = xs ++ p :: ys) :
    phasesAfter p = ys := by
  have walks : ∀ i < ps.length, (ps[i]?).map phasesAfter = some (ps.drop (i + 1)) := by
    rcases algorithm with rfl | rfl | rfl <;> decide
  have inside : xs.length < ps.length := by
    rw [h, List.length_append, List.length_cons]
    omega
  simpa [h] using walks xs.length inside

/-! ## The advance -/

/-- The sequencer with these positions left to visit: it stands at the first of them, or the command ends PASS
(R198). -/
def proceed : List Pos → State → State
  | [], s => finish s
  | q :: _, s => moveTo q s

theorem proceed_eq (qs : List Pos) (s : State) : proceed qs s = qs.head?.elim (finish s) fun q => moveTo q s := by
  cases qs <;> rfl

/-- The odd and the even number of each read-modify-write, after 0 (R161). -/
theorem range_odd (m : Nat) :
    List.range (1 + 2 * m) = 0 :: (List.range m).flatMap fun j => [2 * j + 1, 2 * j + 2] := by
  induction m with
  | zero => rfl
  | succ m ih =>
    have frames : 1 + 2 * (m + 1) = 1 + 2 * m + 1 + 1 := by omega
    rw [frames, List.range_succ, List.range_succ, ih, List.range_succ, List.flatMap_append, Nat.add_comm 1]
    simp

/-- An element's positions: its verify, then two for each lane write (R154 to R157). -/
theorem elementPositions_eq (p : Phase) (e : Element) (a : Word) (b : BitVec 3) :
    elementPositions p e a b =
      { phase := p, a := a, lane := b, fidx := 0 } ::
        (List.range e.writes.length).flatMap fun j =>
          [{ phase := p, a := a, lane := b, fidx := BitVec.ofNat 3 (2 * j + 1) },
            { phase := p, a := a, lane := b, fidx := BitVec.ofNat 3 (2 * j + 2) }] := by
  rw [elementPositions, elementFrames, range_odd, List.map_cons, List.map_flatMap]
  rfl

/-- A phase starts an address at its first lane (R181). -/
theorem addressPositions_eq (p : Phase) (a : Word) :
    ∃ rest, addressPositions p a = { phase := p, a := a, lane := firstLane p, fidx := 0 } :: rest := by
  cases p <;> exact ⟨_, rfl⟩

/-- Entering phases stands at the first position of their loops (R180, R183). -/
theorem enterPhases_eq (ps : List Phase) (s : State) :
    enterPhases ps s = proceed (algorithmPositions ps s.latched.size.toNat) s := by
  induction ps with
  | nil => rfl
  | cons p ps ih =>
    rw [enterPhases, firstAddress_sweep, algorithmPositions, List.flatMap_cons, phasePositions]
    cases sweep p s.latched.size.toNat with
    | nil => exact ih
    | cons a as =>
      obtain ⟨rest, first⟩ := addressPositions_eq p (BitVec.ofNat 32 a)
      rw [List.flatMap_cons, first]
      rfl

/-- After an address comes the next one of the sweep, then the phases that follow (R183, R197). -/
theorem addressDone_eq {s : State} {xs ys : List Nat} {a : Nat}
    (swept : sweep s.pos.phase s.latched.size.toNat = xs ++ a :: ys) (address : s.pos.a = BitVec.ofNat 32 a) :
    addressDone s =
      proceed
        ((ys.flatMap fun a => addressPositions s.pos.phase (BitVec.ofNat 32 a)) ++
          algorithmPositions (phasesAfter s.pos.phase) s.latched.size.toNat) s := by
  rw [addressDone, address, nextAddress_sweep swept]
  cases ys with
  | nil => exact enterPhases_eq _ s
  | cons a ys =>
    obtain ⟨rest, first⟩ := addressPositions_eq s.pos.phase (BitVec.ofNat 32 a)
    rw [List.flatMap_cons, first]
    rfl

/-- After an element comes the next lane, then what follows the address (R190 to R193). -/
theorem elementDone_eq {s : State} {e : Element} {xs ys : List (BitVec 3)} {after : List Pos}
    (lanes : laneOrder s.pos.phase = xs ++ s.pos.lane :: ys) (notMelem : s.latched.opc ≠ opcMelem)
    (address : addressDone s = proceed after s) :
    elementDone s = proceed (ys.flatMap (elementPositions s.pos.phase e s.pos.a) ++ after) s := by
  rw [elementDone, if_neg notMelem, nextLane_laneOrder lanes]
  cases ys with
  | nil => exact address
  | cons b ys =>
    rw [List.flatMap_cons, elementPositions_eq]
    rfl

/-- Inside an element FIDX counts up (R161). -/
theorem elementFrameDone_eq {s : State} {e : Element} {before rest after : List Pos}
    (element : elementOf s.pos.phase = some e)
    (frames : elementPositions s.pos.phase e s.pos.a s.pos.lane = before ++ s.pos :: rest)
    (done : elementDone s = proceed after s) :
    elementFrameDone e s = proceed (rest ++ after) s := by
  obtain ⟨_, _, split, _, tail⟩ := List.map_eq_append_iff.mp frames
  obtain ⟨f, fs, rfl, position, rfl⟩ := List.map_eq_cons_iff.mp tail
  have inside : f < elementFrames e := List.mem_range.mp (split ▸ List.mem_append_right _ List.mem_cons_self)
  have few := elementFrames_le element
  have fidx : s.pos.fidx = BitVec.ofNat 3 f := by rw [← position]
  have number : s.pos.fidx.toNat = f := by
    rw [fidx, BitVec.toNat_ofNat]
    omega
  rw [elementFrameDone, number, (range_split split).2]
  by_cases more : f + 1 < elementFrames e
  · obtain ⟨k, count⟩ : ∃ k, elementFrames e - (f + 1) = k + 1 := ⟨elementFrames e - (f + 1) - 1, by omega⟩
    rw [if_pos more, count, List.range'_succ, fidx, List.map_cons, BitVec.ofNat_add]
    rfl
  · have last : elementFrames e - (f + 1) = 0 := by omega
    rw [if_neg more, last]
    exact done

/-- Outside lane elements an address has one frame (R186, R187, R189, R195, R196). -/
theorem frameDone_sweep {p : Pos} {s : State} (position : s.pos = p) (named : p.phase ≠ .none)
    (noElement : elementOf p.phase = none) : frameDone s = addressDone s := by
  subst position
  cases phase : s.pos.phase <;> rw [phase] at named noElement <;> simp only [frameDone, phase]
  case none => exact absurd rfl named
  all_goals cases noElement

/-- The advance visits an algorithm's positions in order, and after the last one the command ends PASS (R197, R198). -/
theorem frameDone_eq {s : State} {ps : List Phase} {before after : List Pos}
    (algorithm : ps = checkerPhases ∨ ps = marchPhases ∨ ps = sequencePhases) (notMelem : s.latched.opc ≠ opcMelem)
    (h : algorithmPositions ps s.latched.size.toNat = before ++ s.pos :: after) : frameDone s = proceed after s := by
  obtain ⟨_, p, later, _, _, phases, inPhase, rfl⟩ := flatMap_split h
  obtain ⟨_, a, left, _, _, swept, atAddress, rfl⟩ := flatMap_split inPhase
  obtain rfl := phasesAfter_of_algorithm algorithm phases
  have done (phase : s.pos.phase = p) (address : s.pos.a = BitVec.ofNat 32 a) := by
    subst phase
    exact addressDone_eq swept address
  unfold addressPositions at atAddress
  split at atAddress
  · rename_i e element
    obtain ⟨_, b, _, _, _, lanes, frames, rfl⟩ := flatMap_split atAddress
    obtain ⟨_, _, position⟩ := List.mem_map.mp (frames ▸ List.mem_append_right _ List.mem_cons_self)
    obtain rfl : p = s.pos.phase := by rw [← position]
    obtain rfl : b = s.pos.lane := by rw [← position]
    have address : BitVec.ofNat 32 a = s.pos.a := by rw [← position]
    rw [address] at frames ⊢
    rw [frameDone_element element, List.append_assoc, List.append_assoc]
    exact elementFrameDone_eq element frames (elementDone_eq lanes notMelem (done rfl address.symm))
  · rename_i noElement
    have named : p ≠ .none := by
      have all : ∀ q ∈ ps, q ≠ .none := by rcases algorithm with rfl | rfl | rfl <;> decide
      exact all p (phases ▸ List.mem_append_right _ List.mem_cons_self)
    rcases List.append_eq_singleton_iff.mp atAddress.symm with ⟨rfl, single⟩ | ⟨_, none⟩
    · obtain ⟨position, rfl⟩ := List.cons.inj single
      obtain rfl : p = s.pos.phase := by rw [position]
      rw [frameDone_sweep rfl named noElement]
      exact done rfl (by rw [position])
    · cases none

/-! ## How many positions there are -/

/-- R199's frames for one address of a phase: one for a sweep, and its element's for each lane of a March phase. -/
def framesPerAddress (p : Phase) : Nat :=
  match elementOf p with
  | some e => 8 * elementFrames e
  | none => 1

theorem lanes_length (p : Phase) (e : Element) (a : Word) (bs : List (BitVec 3)) :
    (bs.flatMap (elementPositions p e a)).length = bs.length * elementFrames e := by
  simp only [List.length_flatMap, elementPositions, List.length_map, List.length_range, List.map_const',
    List.sum_replicate, smul_eq_mul]

theorem addressPositions_length (p : Phase) (a : Word) : (addressPositions p a).length = framesPerAddress p := by
  have lanes : (laneOrder p).length = 8 := by cases p <;> rfl
  unfold addressPositions framesPerAddress
  cases elementOf p with
  | none => rfl
  | some e => exact (lanes_length p e a _).trans (by rw [lanes])

theorem addresses_length (p : Phase) (as : List Nat) :
    (as.flatMap fun a => addressPositions p (BitVec.ofNat 32 a)).length = as.length * framesPerAddress p := by
  simp only [List.length_flatMap, addressPositions_length, List.map_const', List.sum_replicate, smul_eq_mul]

theorem sweep_length (p : Phase) (n : Nat) : (sweep p n).length = n := by
  unfold sweep asc desc
  split <;> simp

theorem phasePositions_length (p : Phase) (n : Nat) : (phasePositions p n).length = n * framesPerAddress p := by
  rw [phasePositions, addresses_length, sweep_length]

theorem algorithmPositions_length (ps : List Phase) (n : Nat) :
    (algorithmPositions ps n).length = n * (ps.map framesPerAddress).sum := by
  simp only [algorithmPositions, List.length_flatMap, phasePositions_length, List.sum_map_mul_left]

/-! ## The statements -/

/-- Settles O51: every address of a phase has as many frames, so the lengths multiply and add. -/
theorem loopLengths : Obligations.LoopLengths := fun n =>
  ⟨(algorithmPositions_length _ n).trans (Nat.mul_comm ..), (algorithmPositions_length _ n).trans (Nat.mul_comm ..),
    (algorithmPositions_length _ n).trans (Nat.mul_comm ..)⟩

/-- Settles O50: a position splits the loops' list at its phase, address, lane and frame; the advance takes the next. -/
theorem advanceFollowsTheLoops : Obligations.AdvanceFollowsTheLoops := by
  intro s ps algorithm notMelem
  refine ⟨?_, fun k here => ?_⟩
  · rw [enterPhases_eq, proceed_eq, List.head?_eq_getElem?]
    cases (algorithmPositions ps s.latched.size.toNat)[0]? <;> rfl
  · obtain ⟨inside, position⟩ := List.getElem?_eq_some_iff.mp here
    have split := List.take_append_drop k (algorithmPositions ps s.latched.size.toNat)
    rw [List.drop_eq_getElem_cons inside, position] at split
    rw [frameDone_eq algorithm notMelem split.symm, proceed_eq, List.head?_drop]
    cases (algorithmPositions ps s.latched.size.toNat)[k + 1]? <;> rfl

end Sys2Proof.Machine
end

section
/-!
SUPPORT, then PROOFS of the statements on spec/42_algorithms.md about one step: the dispatch of the algorithms (R185,
R188, R194), the frames of their sweeps (R186, R187, R189, R195, R196), and the turns of MARCH_A (R181, R190 to R193).
-/

namespace Sys2Proof.Machine

/-! ## A sweep's frame and what follows it -/

/-- Outside lane elements FAIL_WHERE has the phase, CHECKER's step and the frame's kind (R28). -/
theorem whereIn_sweep {opc : BitVec 4} {p : Pos} {s : State} (kind : FrameKind) (opcode : s.latched.opc = opc)
    (position : s.pos = p) (noLane : lanePhase p.phase = false) :
    whereIn kind false s =
      plainWhere opc p.phase (if opc = 0x4 then s.latched.step.extractLsb' 0 2 else 0) kind := by
  subst opcode position
  simp only [whereIn, plainWhere, FailWhere.zero, noLane, Bool.false_eq_true, if_false]

/-- A sweep's frame, by the outcome of its exchange: what follows it, or a failure recorded without a lane (R123,
R222). -/
theorem exec_sweepFrame {opc : BitVec 4} {p : Pos} {s : State} {i : Instr} {tx : Frame} {onByte : Byte → State}
    (standing : AtFrame opc p s) (noLane : lanePhase p.phase = false) (named : frameAt s.latched p s.rmw = some i)
    (sent : frameBytes i = some tx) (after : ∀ r, afterFrame i r (counted tx s) = onByte r) :
    exec i s = .next
      (byOutcome (outcomeNow tx s) tx s onByte
        (ended .transportError
          (plainWhere opc p.phase (if opc = 0x4 then s.latched.step.extractLsb' 0 2 else 0) (frameInfo i).kind)
          (frameInfo i).addr (frameInfo i).exp 0 0 (lost tx s))) := by
  rw [exec_issued ((issues_atFrame standing).trans named), effectOn_frame Config.device s sent, transportError_eq,
    whereIn_sweep _ standing.opcode standing.position noLane]
  simp only [after]
  rfl

theorem toNat_eq_zero_iff (w : Word) : w.toNat = 0 ↔ w = 0 := by bv_omega

theorem size_ne_zero {a n : Word} (inside : a.toNat < n.toNat) : n ≠ 0 := by bv_omega

/-- After an address of an upward sweep: the next one, else the phases that follow (R180, R183). -/
theorem addressDone_ascending {p : Pos} {s : State} (position : s.pos = p) (up : descending p.phase = false) :
    addressDone s =
      if p.a.toNat + 1 < s.latched.size.toNat then moveTo { phase := p.phase, a := p.a + 1, lane := 0, fidx := 0 } s
      else enterPhases (phasesAfter p.phase) s := by
  subst position
  have first : firstLane s.pos.phase = 0 := if_neg (by rw [up]; decide)
  rw [addressDone, nextAddress_ascending _ _ up, first]
  split_ifs <;> rfl

/-- After an address of a downward sweep: the one below, else the phases that follow (R180, R183). -/
theorem addressDone_descending {p : Pos} {s : State} (position : s.pos = p) (down : descending p.phase = true) :
    addressDone s =
      if 0 < p.a.toNat then moveTo { phase := p.phase, a := p.a - 1, lane := 7, fidx := 0 } s
      else enterPhases (phasesAfter p.phase) s := by
  subst position
  have first : firstLane s.pos.phase = 7 := if_pos down
  rw [addressDone, nextAddress_descending _ _ down, first]
  split_ifs <;> rfl

/-- The last cell of an upward sweep turns to the next phase, at address 0 (R180, R183). -/
theorem addressDone_thenAscending {p : Pos} {q : Phase} {qs : List Phase} {s : State} (position : s.pos = p)
    (up : descending p.phase = false) (inside : p.a.toNat < s.latched.size.toNat)
    (follow : phasesAfter p.phase = q :: qs) (upNext : descending q = false) :
    addressDone s =
      if p.a.toNat + 1 < s.latched.size.toNat then atPos p.phase (p.a + 1) 0 0 s else atPos q 0 0 0 s := by
  rw [addressDone_ascending position up, follow, enterPhases_ascending qs upNext (size_ne_zero inside)]
  rfl

/-- The last cell of the last upward sweep ends the command PASS (R198). -/
theorem addressDone_thenPass {opc : BitVec 4} {p : Pos} {s : State} (position : s.pos = p)
    (up : descending p.phase = false) (follow : phasesAfter p.phase = []) (opcode : s.latched.opc = opc) :
    addressDone s =
      if p.a.toNat + 1 < s.latched.size.toNat then atPos p.phase (p.a + 1) 0 0 s
      else ended .pass (algOnly opc) 0 0 0 0 s := by
  rw [addressDone_ascending position up, follow, enterPhases, finish_eq opcode]
  rfl

theorem zext_eq_iff (r : Byte) (w : Word) : zext r = w ↔ r.toNat = w.toNat := by
  have small : r.toNat < 2 ^ 8 := r.isLt
  rw [← BitVec.toNat_inj, zext, BitVec.toNat_setWidth, Nat.mod_eq_of_lt (by omega)]

/-- CB_VERIFY compares the whole byte with the pattern (R187). -/
theorem afterRead_cbVerify {p : Pos} {s : State} (r : Byte) (position : s.pos = p) (verify : p.phase = .cbVerify) :
    afterRead r s =
      if r = pat s.latched.step p.a then frameDone s else verifyFail (zext (pat s.latched.step p.a)) r s := by
  subst position
  simp only [afterRead, verify]

/-- SQ_VERIFY compares the whole byte with a datum that fits a byte (R196). -/
theorem afterRead_sqVerify {p : Pos} {s : State} (r : Byte) (position : s.pos = p) (verify : p.phase = .sqVerify)
    (datum : s.latched.data.toNat ≤ 0xFF) :
    afterRead r s = if r.toNat = s.latched.data.toNat then frameDone s else verifyFail s.latched.data r s := by
  subst position
  have fits : zext (s.latched.data.extractLsb' 0 8) = s.latched.data := valueOf_extract datum
  simp only [afterRead, verify, fits, zext_eq_iff]

/-- The pattern as the statements write it, as a value operand (R185). -/
theorem zext_pat (step a : Word) :
    zext (pat step a) = if (a.toNat % 2 = 0 ↔ step.toNat = 1) then 0xAA else 0x55 := by
  rw [pat_eq]
  split_ifs <;> rfl

/-! ## Dispatch -/

theorem stepLegal_iff_toNat (step : Word) : stepLegal step = true ↔ step.toNat = 1 ∨ step.toNat = 2 := by
  rw [stepLegal_iff, ← BitVec.toNat_inj, ← BitVec.toNat_inj]
  rfl

/-- An algorithm's dispatch ends PASS for an empty sweep, and else stands at the first address of its first phase. -/
theorem enterPhases_first {opc : BitVec 4} {p : Phase} (ps : List Phase) {s : State} (opcode : s.latched.opc = opc)
    (up : descending p = false) :
    enterPhases (p :: ps) s =
      if s.latched.size.toNat = 0 then ended .pass (algOnly opc) 0 0 0 0 s else atPos p 0 0 0 s := by
  split_ifs with empty
  · rw [enterPhases_empty _ ((toNat_eq_zero_iff _).mp empty), finish_eq opcode]
  · exact enterPhases_ascending ps up (mt (toNat_eq_zero_iff _).mpr empty)

/-! ## The turns of MARCH_A -/

theorem nextLane_ascending {p : Phase} (b : BitVec 3) (up : descending p = false) :
    nextLane p b = if b.toNat < 7 then some (b + 1) else none := by
  have last : b = 7 ↔ ¬ b.toNat < 7 := by bv_omega
  simp only [nextLane, up, Bool.false_eq_true, if_false, last, ite_not]

theorem nextLane_descending {p : Phase} (b : BitVec 3) (down : descending p = true) :
    nextLane p b = if 0 < b.toNat then some (b - 1) else none := by
  have last : b = 0 ↔ ¬ 0 < b.toNat := by bv_omega
  simp only [nextLane, down, if_true, last, ite_not]

/-- After a lane of M1 or M2: the lane above, the next address, or the next phase (R190, R191). -/
theorem elementDone_ascending {p : Pos} {s : State} (position : s.pos = p) (up : descending p.phase = false)
    (notMelem : s.latched.opc ≠ opcMelem) :
    elementDone s =
      if p.lane.toNat < 7 then atPos p.phase p.a (p.lane + 1) 0 s
      else if p.a.toNat + 1 < s.latched.size.toNat then atPos p.phase (p.a + 1) 0 0 s
      else enterPhases (phasesAfter p.phase) s := by
  rw [elementDone, if_neg notMelem, position, nextLane_ascending _ up, addressDone_ascending position up]
  by_cases more : p.lane.toNat < 7
  · rw [if_pos more, if_pos more]
    rfl
  · rw [if_neg more, if_neg more]
    rfl

/-- After a lane of M3 or M4: the lane below, the address below, or the next phase (R192, R193). -/
theorem elementDone_descending {p : Pos} {s : State} (position : s.pos = p) (down : descending p.phase = true)
    (notMelem : s.latched.opc ≠ opcMelem) :
    elementDone s =
      if 0 < p.lane.toNat then atPos p.phase p.a (p.lane - 1) 0 s
      else if 0 < p.a.toNat then atPos p.phase (p.a - 1) 7 0 s
      else enterPhases (phasesAfter p.phase) s := by
  rw [elementDone, if_neg notMelem, position, nextLane_descending _ down, addressDone_descending position down]
  by_cases more : 0 < p.lane.toNat
  · rw [if_pos more, if_pos more]
    rfl
  · rw [if_neg more, if_neg more]
    rfl

theorem enterPhases_descending {p : Phase} (ps : List Phase) {s : State} (down : descending p = true)
    (h : s.latched.size ≠ 0) : enterPhases (p :: ps) s = atPos p (s.latched.size - 1) 7 0 s := by
  rw [enterPhases, firstAddress, if_neg h, firstLane, down]
  rfl

/-- After the last lane write its element is done (R161). -/
theorem elementFrameDone_last {e : Element} {p : Pos} {s : State} (position : s.pos = p)
    (element : elementOf p.phase = some e) (fidx : p.fidx = BitVec.ofNat 3 (2 * e.writes.length)) :
    elementFrameDone e s = elementDone s := by
  have last : ¬ s.pos.fidx.toNat + 1 < elementFrames e := by
    rw [position, fidx, even_fidx element le_rfl, elementFrames]
    omega
  rw [elementFrameDone, if_neg last]

/-- The WRITE of an element's last read-modify-write, as the statements write its value (R158). -/
theorem frameAt_lastWrite {l : Latched} {p : Phase} {x w : Bool} {ws : List Bool} {a v : Word} {b : BitVec 3}
    {rmw : Byte} (listed : (p, x, ws) ∈ marchTable) (last : ws.getLast? = some w)
    (value : v = (if w then rmw ||| 1#8 <<< b.toNat else rmw &&& ~~~(1#8 <<< b.toNat)).setWidth 32) :
    frameAt l { phase := p, a := a, lane := b, fidx := BitVec.ofNat 3 (2 * ws.length) } rmw = some (.write a v) ∧
      v.toNat ≤ 0xFF := by
  obtain ⟨j, length⟩ : ∃ j, ws.length = j + 1 :=
    Nat.exists_eq_succ_of_ne_zero fun empty => by simp [List.length_eq_zero_iff.mp empty] at last
  have written : ws[j]? = some w := by rw [← last, List.getLast?_eq_getElem?, length, Nat.add_sub_cancel]
  rw [← zext_writeLane] at value
  subst value
  exact ⟨frameAt_rmwWrite _ (elementOf_marchTable listed) (by rw [length]) written, zext_le _⟩

/-! ## The statements -/

/-- Settles O25: the WRITE's operand is the pattern, and CB_WRITE's sweep is followed by CB_VERIFY's. -/
theorem checkerWritePassWritesThePattern : Obligations.CheckerWritePassWritesThePattern := by
  intro s a v standing addr inside value
  rw [← zext_pat] at value
  subst value
  refine exec_sweepFrame standing rfl rfl (frameBytes_write addr (zext_le _)) fun r => ?_
  have position : (counted (writeFrame a (zext (pat s.latched.step a))) s).pos = _ := standing.position
  rw [afterFrame, afterWrite, frameDone_sweep position nofun rfl]
  exact addressDone_thenAscending position rfl inside rfl rfl

/-- Settles O26: a match goes on as after every address, and a mismatch's record is VerifyFail's. -/
theorem checkerVerifyPassComparesTheByte : Obligations.CheckerVerifyPassComparesTheByte := by
  intro s a x standing addr inside value
  rw [← pat_eq] at value
  subst value
  refine exec_sweepFrame standing rfl rfl (frameBytes_read addr) fun r => ?_
  have position : (counted (readFrame a) s).pos = _ := standing.position
  have opcode : (counted (readFrame a) s).latched.opc = 0x4 := standing.opcode
  rw [afterFrame, afterRead_cbVerify r position rfl, frameDone_sweep position nofun rfl,
    addressDone_thenPass position rfl rfl opcode, verifyFail_eq, whereIn_sweep _ opcode position rfl, position]
  rfl

/-- Settles O27: the WRITE's operand is 0, and M0's sweep is followed by M1's. -/
theorem marchM0WritesZero : Obligations.MarchM0WritesZero := by
  intro s a standing addr inside
  refine exec_sweepFrame standing rfl rfl (frameBytes_write addr (by decide)) fun r => ?_
  have position : (counted (writeFrame a 0) s).pos = _ := standing.position
  rw [afterFrame, afterWrite, frameDone_sweep position nofun rfl]
  exact addressDone_thenAscending position rfl inside rfl rfl

/-- Settles O33: the WRITE's operand is the datum, and SQ_WRITE's sweep is followed by SQ_VERIFY's. -/
theorem sequenceWritePassWritesTheDatum : Obligations.SequenceWritePassWritesTheDatum := by
  intro s a standing addr inside datum
  refine exec_sweepFrame standing rfl rfl (frameBytes_write addr datum) fun r => ?_
  have position : (counted (writeFrame a s.latched.data) s).pos = _ := standing.position
  rw [afterFrame, afterWrite, frameDone_sweep position nofun rfl]
  exact addressDone_thenAscending position rfl inside rfl rfl

/-- Settles O34: a match goes on as after every address, and a mismatch's record is VerifyFail's. -/
theorem sequenceVerifyPassComparesTheByte : Obligations.SequenceVerifyPassComparesTheByte := by
  intro s a standing addr inside datum
  refine exec_sweepFrame standing rfl rfl (frameBytes_read addr) fun r => ?_
  have position : (counted (readFrame a) s).pos = _ := standing.position
  have opcode : (counted (readFrame a) s).latched.opc = 0x6 := standing.opcode
  rw [afterFrame, afterRead_sqVerify r position rfl datum, frameDone_sweep position nofun rfl,
    addressDone_thenPass position rfl rfl opcode, verifyFail_eq, whereIn_sweep _ opcode position rfl, position]
  rfl

/-- Settles O18: the step decides first, and then the size, whether there is a first position. -/
theorem checkerDispatches : Obligations.CheckerDispatches := by
  intro s atDispatch
  have legal := stepLegal_iff_toNat s.latched.step
  have opcode : (markDispatched s).latched.opc = 0x4 := atDispatch.opcode
  rw [exec_issued (issues_atDispatch atDispatch rfl), effectOn, startChecker]
  refine ⟨fun not1 not2 => ?_, fun step => ?_⟩
  · rw [if_neg (by tauto), terminate_badParam_eq, opcode]
    rfl
  · rw [if_pos (legal.mpr step), checkerPhases, enterPhases_first _ opcode rfl]
    rfl

/-- Settles O19: there is no check but the size's, and both first phases sweep upwards. -/
theorem marchAAndSequenceDispatch : Obligations.MarchAAndSequenceDispatch := by
  refine ⟨fun s atDispatch => ?_, fun s atDispatch => ?_⟩
  · have opcode : (markDispatched s).latched.opc = 0x5 := atDispatch.opcode
    rw [exec_issued (issues_atDispatch atDispatch rfl), effectOn, startMarchA, marchPhases,
      enterPhases_first _ opcode rfl]
    rfl
  · have opcode : (markDispatched s).latched.opc = 0x6 := atDispatch.opcode
    rw [exec_issued (issues_atDispatch atDispatch rfl), effectOn, startSequence, sequencePhases,
      enterPhases_first _ opcode rfl]
    rfl

/-- Settles O32: the last WRITE ends its element, and what follows depends on the phase's direction. -/
theorem marchLastWriteGoesToTheNextLane : Obligations.MarchLastWriteGoesToTheNextLane := by
  intro s p x ws a v b w listed last standing addr inside value
  have element := elementOf_marchTable listed
  obtain ⟨named, fits⟩ := frameAt_lastWrite (l := s.latched) (a := a) listed last value
  refine exec_elementFrame (.inl rfl) standing element named (frameBytes_write addr fits) fun r => ?_
  have position : (counted (writeFrame a v) s).pos =
      { phase := p, a := a, lane := b, fidx := BitVec.ofNat 3 (2 * ws.length) } := standing.position
  have opcode : (counted (writeFrame a v) s).latched.opc = 0x5 := standing.opcode
  have nonempty : (counted (writeFrame a v) s).latched.size ≠ 0 := size_ne_zero inside
  have notMelem : (counted (writeFrame a v) s).latched.opc ≠ opcMelem := by rw [opcode]; decide
  rw [afterFrame, afterWrite_element position element, elementFrameDone_last position element rfl]
  cases p with
  | m1 =>
    rw [elementDone_ascending position rfl notMelem, phasesAfter, enterPhases_ascending _ rfl nonempty]
    rfl
  | m2 =>
    rw [elementDone_ascending position rfl notMelem, phasesAfter, enterPhases_descending _ rfl nonempty]
    rfl
  | m3 =>
    rw [elementDone_descending position rfl notMelem, phasesAfter, enterPhases_descending _ rfl nonempty]
    rfl
  | m4 =>
    rw [elementDone_descending position rfl notMelem, phasesAfter, enterPhases, finish_eq opcode]
    rfl
  | none | cbWrite | cbVerify | m0 | sqWrite | sqVerify => cases element

end Sys2Proof.Machine
end

section
/-!
SUPPORT. Runs of an algorithm on a device that stores what it is sent: the frames that pass, one step each, and what a
phase over its sweep leaves in the cells (spec/42_algorithms.md R180, R183; spec/10_state.md R38).
-/

namespace Sys2Proof.Machine

/-! ## Devices that store what they are sent -/

/-- Every exchange on d completes, and a READ of a is answered by `view a` of the byte that cell a holds (R38, R77). -/
def Serves (d : Device) (start : Word → Byte) (view : Word → Byte → Byte) : Prop :=
  ∀ (h : History) (i : Instr) (tx : Frame), frameBytes i = some tx →
    ∃ rx, exchange d h tx = .ok rx ∧ rx.length = tx.length ∧
      ∀ a, i = .read a → rx.getLastD 0 = view a (cellAfter start h a)

theorem serves_idealMemory (start : Word → Byte) (status : Byte) (filler : History → Frame → Nat → Byte) :
    Serves (idealMemory start status filler) start fun _ x => x := by
  intro h i tx sent
  obtain ⟨rx, answered, length, last⟩ := exchange_idealMemory start status filler h tx
    (List.length_pos_iff.mp (length_pos_of_frameBytes sent))
  refine ⟨rx, answered, length, fun a read => ?_⟩
  rw [last, decodeFrame_frameBytes sent, read]
  rfl

theorem serves_viewedMemory (view : Word → Byte → Byte) (start : Word → Byte) (status : Byte) :
    Serves (viewedMemory view start status) start view := by
  intro h i tx sent
  have bytes := length_pos_of_frameBytes sent
  refine ⟨_, rfl, ?_, fun a read => ?_⟩
  · rw [viewedMemory, List.length_append, List.length_replicate, List.length_singleton]
    omega
  · rw [viewedMemory, List.getLastD_concat, decodeFrame_frameBytes sent, read]
    rfl

/-! ## Frames that pass -/

/-- The dispatched command of latched operands l is under way, with the bus port free and no input waiting. -/
structure Running (l : Latched) (s : State) : Prop where
  busy : s.mode = .busy
  portFree : s.inFlight = none
  dispatched : s.dispatched = true
  latched : s.latched = l
  noInput : s.inputs = []

theorem Running.exchanged {l : Latched} {s : State} (h : Running l s) (tx : Frame) (q : Pos) :
    Running l (counted tx (moveTo q s)) := ⟨h.busy, h.portFree, h.dispatched, h.latched, h.noInput⟩

theorem Running.latchRmw {l : Latched} {s : State} (h : Running l s) (r : Byte) : Running l { s with rmw := r } :=
  ⟨h.busy, h.portFree, h.dispatched, h.latched, h.noInput⟩

/-- From s, the frame at q is exchanged and does what it should: t is the state from which the position advances. -/
structure Passes (d : Device) (l : Latched) (q : Pos) (s t : State) : Prop where
  step : stepOn d (moveTo q s) = .next (frameDone t)
  position : t.pos = q
  running : Running l t
  count : t.txnCount = s.txnCount + 1

/-- From s to t, the frames at these positions pass one after the other. -/
inductive Visits (d : Device) (l : Latched) : List Pos → State → State → Prop where
  | nil {s : State} (running : Running l s) : Visits d l [] s s
  | cons {q : Pos} {qs : List Pos} {s t u : State} (first : Passes d l q s t) (rest : Visits d l qs t u) :
      Visits d l (q :: qs) s u

theorem Passes.visits {d : Device} {l : Latched} {q : Pos} {s t : State} (h : Passes d l q s t) : Visits d l [q] s t :=
  .cons h (.nil h.running)

theorem Visits.running {d : Device} {l : Latched} {qs : List Pos} {s t : State} (h : Visits d l qs s t) :
    Running l t := by
  induction h with
  | nil running => exact running
  | cons _ _ ih => exact ih

theorem Visits.append {d : Device} {l : Latched} {ps qs : List Pos} {s t u : State} (h : Visits d l ps s t)
    (rest : Visits d l qs t u) : Visits d l (ps ++ qs) s u := by
  induction h with
  | nil _ => exact rest
  | cons first _ ih => exact .cons first (ih rest)

/-- One exchange is counted at each position (R32). -/
theorem Visits.count {d : Device} {l : Latched} {qs : List Pos} {s t : State} (h : Visits d l qs s t) :
    t.txnCount = s.txnCount + BitVec.ofNat 32 qs.length := by
  induction h with
  | nil _ => exact (BitVec.add_zero _).symm
  | @cons _ qs _ _ _ first _ ih =>
    rw [ih, first.count, List.length_cons, Nat.add_comm qs.length, BitVec.ofNat_add, BitVec.add_assoc]
    rfl

/-- The frames at an algorithm's positions, run from the first of them, take one step each, and the sequencer then has
the positions after them left (R183, R197). -/
theorem runOn_visits {d : Device} {l : Latched} {ps : List Phase} {before qs rest : List Pos} {s t : State}
    (algorithm : ps = checkerPhases ∨ ps = marchPhases ∨ ps = sequencePhases) (notMelem : l.opc ≠ opcMelem)
    (visits : Visits d l qs s t) (loops : algorithmPositions ps l.size.toNat = before ++ (qs ++ rest)) :
    runOn d qs.length (proceed (qs ++ rest) s) = .next (proceed rest t) := by
  induction visits generalizing before with
  | nil _ => rfl
  | @cons q qs s t u first _ ih =>
    have advance : frameDone t = proceed (qs ++ rest) t := by
      refine frameDone_eq algorithm (by rwa [first.running.latched]) (before := before) ?_
      rw [first.running.latched, first.position, loops, List.cons_append]
    have step : stepOn d (proceed (q :: qs ++ rest) s) = .next (proceed (qs ++ rest) t) := advance ▸ first.step
    rw [List.length_cons, runOn_succ _ step]
    exact ih (before := before ++ [q]) (by rw [loops, List.append_assoc, List.cons_append, List.singleton_append])

/-- The block is about to dispatch this algorithm on device d, with no input waiting and nothing counted (R43, R100). -/
structure Starts (d : Device) (opc : BitVec 4) (ps : List Phase) (s : State) : Prop extends AtDispatch opc s where
  algorithm : ps = checkerPhases ∨ ps = marchPhases ∨ ps = sequencePhases
  notMelem : opc ≠ opcMelem
  noInput : s.inputs = []
  uncounted : s.txnCount = 0
  enters : stepOn d s = .next (enterPhases ps (markDispatched s))

theorem Starts.running {d : Device} {opc : BitVec 4} {ps : List Phase} {s : State} (h : Starts d opc ps s) :
    Running s.latched (markDispatched s) := ⟨h.busy, h.portFree, rfl, rfl, h.noInput⟩

/-- An algorithm from its dispatch over the first of its positions: one step for the dispatch and one for each (log
1). -/
theorem Starts.run {d : Device} {opc : BitVec 4} {ps : List Phase} {qs rest : List Pos} {s t : State}
    (h : Starts d opc ps s) (visits : Visits d s.latched qs (markDispatched s) t)
    (loops : algorithmPositions ps s.latched.size.toNat = qs ++ rest) :
    runOn d (1 + qs.length) s = .next (proceed rest t) := by
  have dispatched : stepOn d s = .next (proceed (qs ++ rest) (markDispatched s)) := by
    rw [h.enters, enterPhases_eq, markDispatched_latched, loops]
  have notMelem : s.latched.opc ≠ opcMelem := h.opcode ▸ h.notMelem
  rw [Nat.add_comm, runOn_succ _ dispatched]
  exact runOn_visits h.algorithm notMelem visits (before := []) loops

section

variable (d : Device) {s : State}

theorem starts_checker (atDispatch : AtDispatch 0x4 s) (noInput : s.inputs = []) (uncounted : s.txnCount = 0)
    (step : s.latched.step.toNat = 1 ∨ s.latched.step.toNat = 2) : Starts d 0x4 checkerPhases s :=
  ⟨atDispatch, .inl rfl, by decide, noInput, uncounted, by
    rw [stepOn_noInput d noInput (issues_atDispatch atDispatch rfl), effectOn, startChecker,
      if_pos ((stepLegal_iff_toNat _).mpr step)]⟩

theorem starts_marchA (atDispatch : AtDispatch 0x5 s) (noInput : s.inputs = []) (uncounted : s.txnCount = 0) :
    Starts d 0x5 marchPhases s :=
  ⟨atDispatch, .inr (.inl rfl), by decide, noInput, uncounted,
    stepOn_noInput d noInput (issues_atDispatch atDispatch rfl)⟩

theorem starts_sequence (atDispatch : AtDispatch 0x6 s) (noInput : s.inputs = []) (uncounted : s.txnCount = 0) :
    Starts d 0x6 sequencePhases s :=
  ⟨atDispatch, .inr (.inr rfl), by decide, noInput, uncounted,
    stepOn_noInput d noInput (issues_atDispatch atDispatch rfl)⟩

end

/-! ## What one frame does to the device -/

section

variable {d : Device} {start : Word → Byte} {view : Word → Byte → Byte} {l : Latched} {q : Pos} {a : Word} {s : State}
variable (serves : Serves d start view)

include serves

/-- A frame in range is one step: it is counted, and then comes its computation, for a READ on the byte its cell reads
as. -/
theorem stepOn_served {i : Instr} {tx : Frame} (running : Running l s) (named : frameAt l q s.rmw = some i)
    (sent : frameBytes i = some tx) :
    ∃ r, (∀ a, i = .read a → r = view a (cellAfter start s.history a)) ∧
      stepOn d (moveTo q s) = .next (afterFrame i r (counted tx (moveTo q s))) := by
  obtain ⟨rx, answered, length, last⟩ := serves s.history i tx sent
  have issued : issues (moveTo q s) = some i :=
    issues_of_frameAt running.busy running.portFree running.dispatched (running.latched ▸ named)
  refine ⟨rx.getLastD 0, last, ?_⟩
  rw [stepOn_noInput d (s := moveTo q s) running.noInput issued, effectOn_frame d _ sent, moveTo_history, answered,
    byOutcome_ok _ _ _ length]

theorem stepOn_read_served (running : Running l s) (named : frameAt l q s.rmw = some (.read a))
    (addr : a.toNat ≤ 0xFFFF) :
    stepOn d (moveTo q s) = .next
      (afterRead (view a (cellAfter start s.history a)) (counted (readFrame a) (moveTo q s))) := by
  obtain ⟨r, reads, step⟩ := stepOn_served serves running named (frameBytes_read addr)
  rw [step, reads a rfl]
  rfl

/-- A READ that finds what it should passes, and changes no cell. -/
theorem passes_read (running : Running l s) (named : frameAt l q s.rmw = some (.read a)) (addr : a.toNat ≤ 0xFFFF)
    (finds : afterRead (view a (cellAfter start s.history a)) (counted (readFrame a) (moveTo q s)) =
      frameDone (counted (readFrame a) (moveTo q s))) :
    ∃ t, Passes d l q s t ∧ cellAfter start t.history = cellAfter start s.history :=
  ⟨_, ⟨finds ▸ stepOn_read_served serves running named addr, rfl, running.exchanged _ q, rfl⟩,
    funext (cellAfter_read start addr _)⟩

/-- A WRITE in range passes, and leaves its byte in its cell. -/
theorem passes_write {v : Word} (running : Running l s) (named : frameAt l q s.rmw = some (.write a v))
    (addr : a.toNat ≤ 0xFFFF) (value : v.toNat ≤ 0xFF) :
    ∃ t, Passes d l q s t ∧
      cellAfter start t.history = Function.update (cellAfter start s.history) a (v.extractLsb' 0 8) := by
  obtain ⟨_, _, step⟩ := stepOn_served (tx := writeFrame a v) serves running named (frameBytes_write addr value)
  refine ⟨_, ⟨step, rfl, running.exchanged _ q, rfl⟩, funext fun c => ?_⟩
  rw [Function.update_apply, ← if_congr (eq_comm (a := a) (b := c)) rfl rfl]
  exact cellAfter_write start addr value s.history c

end

/-! ## What a phase does to the device -/

/-- In phase p, where cell a meets `ready`, the frames of address a pass and leave the cell at `becomes`, and no other
cell changes. -/
def Treats (d : Device) (start : Word → Byte) (l : Latched) (p : Phase) (ready : Word → Byte → Prop)
    (becomes : Word → Byte → Byte) : Prop :=
  ∀ (a : Word) (s : State), a.toNat ≤ 0xFFFF → Running l s → ready a (cellAfter start s.history a) →
    ∃ t, Visits d l (addressPositions p a) s t ∧
      cellAfter start t.history =
        Function.update (cellAfter start s.history) a (becomes a (cellAfter start s.history a))

theorem mem_sweep {p : Phase} {n a : Nat} : a ∈ sweep p n ↔ a < n := by
  unfold sweep asc desc
  split <;> simp

theorem sweep_nodup (p : Phase) (n : Nat) : (sweep p n).Nodup := by
  unfold sweep asc desc
  split
  · exact List.nodup_reverse.mpr List.nodup_range
  · exact List.nodup_range

section

variable {d : Device} {start : Word → Byte} {l : Latched} {p : Phase} {ready : Word → Byte → Prop}
variable {becomes : Word → Byte → Byte} (treats : Treats d start l p ready becomes) {n : Nat} {s : State}

include treats

/-- A phase over some addresses, in any order, treats each of their cells, and no other. -/
theorem Treats.addresses (as : List Nat) (distinct : as.Nodup) (range : ∀ a ∈ as, a ≤ 0xFFFF) (running : Running l s)
    (holds : ∀ c : Word, c.toNat ∈ as → ready c (cellAfter start s.history c)) :
    ∃ t, Visits d l (as.flatMap fun a => addressPositions p (BitVec.ofNat 32 a)) s t ∧
      ∀ c : Word, cellAfter start t.history c =
        if c.toNat ∈ as then becomes c (cellAfter start s.history c) else cellAfter start s.history c := by
  induction as generalizing s with
  | nil => exact ⟨s, .nil running, fun c => rfl⟩
  | cons a as ih =>
    obtain ⟨new, distinct⟩ := List.nodup_cons.mp distinct
    have addr : a ≤ 0xFFFF := range a List.mem_cons_self
    have number : (BitVec.ofNat 32 a).toNat = a := Nat.mod_eq_of_lt (by omega)
    obtain ⟨t, visits, cells⟩ := treats (BitVec.ofNat 32 a) s (by omega) running
      (holds _ (by rw [number]; exact List.mem_cons_self))
    have others (c : Word) (other : c.toNat ≠ a) : cellAfter start t.history c = cellAfter start s.history c := by
      rw [cells, Function.update_of_ne]
      rintro rfl
      exact other number
    have later (c : Word) (h : c.toNat ∈ as) : c.toNat ≠ a := fun same => new (same ▸ h)
    obtain ⟨u, visits', cells'⟩ := ih distinct (fun a h => range a (List.mem_cons_of_mem _ h)) visits.running
      fun c h => by
        rw [others c (later c h)]
        exact holds c (List.mem_cons_of_mem _ h)
    refine ⟨u, visits.append visits', fun c => ?_⟩
    rw [cells' c]
    by_cases here : c.toNat = a
    · obtain rfl : c = BitVec.ofNat 32 a := by rw [← here]; simp
      rw [number, if_neg new, if_pos List.mem_cons_self, cells, Function.update_self]
    · rw [others c here]
      simp only [List.mem_cons, here, false_or]

/-- A phase over the addresses below n, in any order, treats each of their cells, and no other. -/
theorem Treats.allBelow {as : List Nat} (distinct : as.Nodup) (all : ∀ a, a ∈ as ↔ a < n) (size : n ≤ 0x10000)
    (running : Running l s) (holds : ∀ c : Word, c.toNat < n → ready c (cellAfter start s.history c)) :
    ∃ t, Visits d l (as.flatMap fun a => addressPositions p (BitVec.ofNat 32 a)) s t ∧
      ∀ c : Word, cellAfter start t.history c =
        if c.toNat < n then becomes c (cellAfter start s.history c) else cellAfter start s.history c := by
  have range (a : Nat) (h : a ∈ as) : a ≤ 0xFFFF := by
    have inside := (all a).mp h
    omega
  obtain ⟨t, visits, cells⟩ := treats.addresses as distinct range running fun c h => holds c ((all _).mp h)
  simp only [all] at cells
  exact ⟨t, visits, cells⟩

/-- A phase over its sweep treats every cell below n, and no other. -/
theorem Treats.phase (size : n ≤ 0x10000) (running : Running l s)
    (holds : ∀ c : Word, c.toNat < n → ready c (cellAfter start s.history c)) :
    ∃ t, Visits d l (phasePositions p n) s t ∧
      ∀ c : Word, cellAfter start t.history c =
        if c.toNat < n then becomes c (cellAfter start s.history c) else cellAfter start s.history c :=
  treats.allBelow (sweep_nodup p n) (fun _ => mem_sweep) size running holds

end

end Sys2Proof.Machine
end

section
/-!
SUPPORT. What each phase does to the cells of such a device: the sweeps (spec/42_algorithms.md R186, R187, R189, R195,
R196), and the March phases, lane by lane (R190 to R193; spec/41_march_primitives.md R152 to R162).
-/

namespace Sys2Proof.Machine

/-! ## The phases with one frame for each address -/

section

variable {d : Device} {start : Word → Byte} {view : Word → Byte → Byte} {l : Latched} {p : Phase}
variable (serves : Serves d start view) (noElement : elementOf p = none)

include serves noElement

/-- A phase whose frame is a WRITE leaves its byte in every cell, whatever they held. -/
theorem treats_write {v : Word → Word} (fits : ∀ a, (v a).toNat ≤ 0xFF)
    (named : ∀ a rmw, frameAt l { phase := p, a := a, lane := 0, fidx := 0 } rmw = some (.write a (v a))) :
    Treats d start l p (fun _ _ => True) fun a _ => (v a).extractLsb' 0 8 := by
  intro a s addr running _
  obtain ⟨t, passes, cells⟩ := passes_write serves running (named a s.rmw) addr (fits a)
  rw [addressPositions, noElement]
  exact ⟨t, passes.visits, cells⟩

/-- A phase whose frame is a READ that finds what it should changes no cell. -/
theorem treats_read {ready : Word → Byte → Prop}
    (named : ∀ a rmw, frameAt l { phase := p, a := a, lane := 0, fidx := 0 } rmw = some (.read a))
    (finds : ∀ a x (s : State), ready a x → s.pos = { phase := p, a := a, lane := 0, fidx := 0 } → s.latched = l →
      afterRead (view a x) s = frameDone s) :
    Treats d start l p ready fun _ x => x := by
  intro a s addr running holds
  obtain ⟨t, passes, cells⟩ := passes_read serves running (named a s.rmw) addr (finds a _ _ holds rfl running.latched)
  rw [addressPositions, noElement, Function.update_eq_self]
  exact ⟨t, passes.visits, cells⟩

end

section

variable {d : Device} {start : Word → Byte} {view : Word → Byte → Byte} {l : Latched}
variable (serves : Serves d start view)

include serves

/-- CB_WRITE (R186). -/
theorem treats_cbWrite : Treats d start l .cbWrite (fun _ _ => True) fun a _ => pat l.step a := by
  have writes := treats_write (l := l) (p := .cbWrite) serves rfl (fun a => zext_le (pat l.step a)) fun _ _ => rfl
  have byte (a : Word) : (zext (pat l.step a)).extractLsb' 0 8 = pat l.step a := (valueOf_byte _).2
  simpa only [byte] using writes

/-- CB_VERIFY (R187). -/
theorem treats_cbVerify : Treats d start l .cbVerify (fun a x => view a x = pat l.step a) fun _ x => x :=
  treats_read serves rfl (fun _ _ => rfl) fun _ _ _ same position latched => by
    rw [afterRead_cbVerify _ position rfl, latched, if_pos same]

/-- M0 (R189). -/
theorem treats_m0 : Treats d start l .m0 (fun _ _ => True) fun _ _ => 0 :=
  treats_write (v := fun _ => 0) serves rfl (fun _ => by decide) fun _ _ => rfl

/-- SQ_WRITE (R195). -/
theorem treats_sqWrite (datum : l.data.toNat ≤ 0xFF) :
    Treats d start l .sqWrite (fun _ _ => True) fun _ _ => l.data.extractLsb' 0 8 :=
  treats_write (v := fun _ => l.data) serves rfl (fun _ => datum) fun _ _ => rfl

/-- SQ_VERIFY (R196). -/
theorem treats_sqVerify (datum : l.data.toNat ≤ 0xFF) :
    Treats d start l .sqVerify (fun a x => view a x = l.data.extractLsb' 0 8) fun _ x => x :=
  treats_read serves rfl (fun _ _ => rfl) fun a x s same position latched => by
    have number : (view a x).toNat = s.latched.data.toNat := by
      rw [same, latched, ← zext_eq_iff]
      exact valueOf_extract datum
    rw [afterRead_sqVerify _ position rfl (latched ▸ datum), if_pos number]

end

/-! ## A March element on one lane -/

/-- What a cell holds after these lane writes of lane b, each of which sends back the byte it read (R152, R153). -/
def afterLaneWrites (view : Byte → Byte) (b : BitVec 3) (vs : List Bool) (x : Byte) : Byte :=
  vs.foldl (fun x v => writeLane v (view x) b) x

/-- The view shows lane c as it is. -/
def ShowsLane (view : Byte → Byte) (c : BitVec 3) : Prop := ∀ x, laneBit (view x) c = laneBit x c

/-- Lane writes leave their lane at the last one's value, and every other lane that is shown as it is, as it was
(R159). -/
theorem laneBit_afterLaneWrites {view : Byte → Byte} {c : BitVec 3} (shown : ShowsLane view c) (b : BitVec 3)
    (vs : List Bool) (x : Byte) :
    laneBit (afterLaneWrites view b vs x) c = if c = b then vs.getLastD (laneBit x b) else laneBit x c := by
  induction vs generalizing x with
  | nil =>
    by_cases same : c = b
    · rw [if_pos same, same]
      rfl
    · rw [if_neg same]
      rfl
  | cons v vs ih =>
    have later := ih (writeLane v (view x) b)
    rw [laneBit_writeLane, laneBit_writeLane, if_pos rfl, shown] at later
    rw [List.getLastD_cons]
    by_cases same : c = b
    · rw [if_pos same] at later ⊢
      exact later
    · rw [if_neg same, if_neg same] at later
      rw [if_neg same]
      exact later

/-- The READ of a read-modify-write latches the byte, and then the position advances (R152, R153). -/
theorem afterRead_rmwRead {e : Element} {p : Pos} {s : State} {j : Nat} (r : Byte) (position : s.pos = p)
    (element : elementOf p.phase = some e) (fidx : p.fidx = BitVec.ofNat 3 (2 * j + 1)) (h : j < e.writes.length) :
    afterRead r s = frameDone { s with rmw := r } := by
  subst position
  have past : s.pos.fidx ≠ 0 := fun zero => by
    have number : s.pos.fidx.toNat = 2 * j + 1 := fidx ▸ rmwRead_fidx element h
    rw [zero] at number
    cases number
  rw [afterRead_element r element, afterElementRead, if_neg past]

section

variable {d : Device} {start : Word → Byte} {view : Word → Byte → Byte} {l : Latched} {p : Phase} {e : Element}
variable {a : Word} {b : BitVec 3} {s : State}
variable (serves : Serves d start view) (element : elementOf p = some e) (addr : a.toNat ≤ 0xFFFF)

include serves element addr

/-- The j-th read-modify-write of an element: a READ that latches the byte, and a WRITE of it with the lane written. -/
theorem visits_rmw {j : Nat} {v : Bool} (running : Running l s) (written : e.writes[j]? = some v) :
    ∃ t, Visits d l
        [{ phase := p, a := a, lane := b, fidx := BitVec.ofNat 3 (2 * j + 1) },
          { phase := p, a := a, lane := b, fidx := BitVec.ofNat 3 (2 * j + 2) }] s t ∧
      cellAfter start t.history =
        Function.update (cellAfter start s.history) a (writeLane v (view a (cellAfter start s.history a)) b) := by
  obtain ⟨h, _⟩ := List.getElem?_eq_some_iff.mp written
  have step := stepOn_read_served (q := { phase := p, a := a, lane := b, fidx := BitVec.ofNat 3 (2 * j + 1) }) serves
    running (frameAt_rmwRead _ element rfl h) addr
  rw [afterRead_rmwRead _ rfl element rfl h] at step
  have read : Passes d l _ s _ := ⟨step, rfl, (running.exchanged _ _).latchRmw _, rfl⟩
  obtain ⟨t, write, cells⟩ := passes_write (q := { phase := p, a := a, lane := b, fidx := BitVec.ofNat 3 (2 * j + 2) })
    serves read.running (frameAt_rmwWrite _ element rfl written) addr (zext_le _)
  refine ⟨t, .cons read write.visits, cells.trans ?_⟩
  have kept : cellAfter start (.exchanged (readFrame a) :: s.history) = cellAfter start s.history :=
    funext (cellAfter_read start addr s.history)
  exact congrArg₂ (fun m x => Function.update m a x) kept (valueOf_byte _).2

/-- The first m read-modify-writes of an element. -/
theorem visits_rmws (running : Running l s) (m : Nat) (h : m ≤ e.writes.length) :
    ∃ t, Visits d l
        ((List.range m).flatMap fun j =>
          [{ phase := p, a := a, lane := b, fidx := BitVec.ofNat 3 (2 * j + 1) },
            { phase := p, a := a, lane := b, fidx := BitVec.ofNat 3 (2 * j + 2) }]) s t ∧
      cellAfter start t.history =
        Function.update (cellAfter start s.history) a
          (afterLaneWrites (view a) b (e.writes.take m) (cellAfter start s.history a)) := by
  induction m with
  | zero => exact ⟨s, .nil running, (Function.update_eq_self a _).symm⟩
  | succ m ih =>
    obtain ⟨t, visits, cells⟩ := ih (by omega)
    have written := List.getElem?_eq_getElem (l := e.writes) (i := m) (by omega)
    obtain ⟨u, rmw, cells'⟩ := visits_rmw (b := b) serves element addr visits.running written
    refine ⟨u, ?_, ?_⟩
    · rw [List.range_succ, List.flatMap_append, List.flatMap_singleton]
      exact visits.append rmw
    · rw [cells', cells, Function.update_idem, Function.update_self, List.take_add_one, written, afterLaneWrites,
        afterLaneWrites, List.foldl_append]
      rfl

/-- An element whose verify finds its lane makes its lane writes (R154 to R157). -/
theorem visits_element (running : Running l s) (found : laneBit (view a (cellAfter start s.history a)) b = e.expect) :
    ∃ t, Visits d l (elementPositions p e a b) s t ∧
      cellAfter start t.history =
        Function.update (cellAfter start s.history) a
          (afterLaneWrites (view a) b e.writes (cellAfter start s.history a)) := by
  have finds (u : State) (position : u.pos = { phase := p, a := a, lane := b, fidx := 0 }) :
      afterRead (view a (cellAfter start s.history a)) u = frameDone u := by
    rw [afterRead_verify _ position element rfl, if_pos found, frameDone_element (by rw [position]; exact element)]
  obtain ⟨t, verify, kept⟩ := passes_read (q := { phase := p, a := a, lane := b, fidx := 0 }) serves running
    (frameAt_verify _ element rfl) addr (finds _ rfl)
  obtain ⟨u, writes, cells⟩ := visits_rmws (b := b) serves element addr verify.running e.writes.length le_rfl
  rw [List.take_length, kept] at cells
  rw [elementPositions_eq]
  exact ⟨u, .cons verify writes, cells⟩

/-- An element on some lanes of a cell, in any order: where they read as it expects, it leaves them at its last write,
and every other lane that is shown as it is, and every other cell, as it was (R162). -/
theorem visits_lanes (bs : List (BitVec 3)) (distinct : bs.Nodup) (running : Running l s)
    (shown : ∀ b ∈ bs, ShowsLane (view a) b)
    (expected : ∀ b ∈ bs, laneBit (cellAfter start s.history a) b = e.expect) :
    ∃ t, Visits d l (bs.flatMap (elementPositions p e a)) s t ∧
      (∀ c, ShowsLane (view a) c → laneBit (cellAfter start t.history a) c =
        if c ∈ bs then e.writes.getLastD e.expect else laneBit (cellAfter start s.history a) c) ∧
      ∀ c, c ≠ a → cellAfter start t.history c = cellAfter start s.history c := by
  induction bs generalizing s with
  | nil => exact ⟨s, .nil running, fun _ _ => rfl, fun _ _ => rfl⟩
  | cons b bs ih =>
    obtain ⟨new, distinct⟩ := List.nodup_cons.mp distinct
    have expects : laneBit (cellAfter start s.history a) b = e.expect := expected b List.mem_cons_self
    obtain ⟨t, first, cells⟩ := visits_element (b := b) serves element addr running
      ((shown b List.mem_cons_self _).trans expects)
    have lanes {c : BitVec 3} (clear : ShowsLane (view a) c) : laneBit (cellAfter start t.history a) c =
        if c = b then e.writes.getLastD e.expect else laneBit (cellAfter start s.history a) c := by
      rw [cells, Function.update_self, laneBit_afterLaneWrites clear, expects]
    have later {c : BitVec 3} (h : c ∈ bs) : c ≠ b := fun same => new (same ▸ h)
    obtain ⟨u, rest, lanes', others⟩ := ih distinct first.running (fun c h => shown c (List.mem_cons_of_mem _ h))
      fun c h => by
        rw [lanes (shown c (List.mem_cons_of_mem _ h)), if_neg (later h)]
        exact expected c (List.mem_cons_of_mem _ h)
    refine ⟨u, first.append rest, fun c clear => ?_, fun c other => ?_⟩
    · rw [lanes' c clear, lanes clear]
      by_cases here : c = b
      · rw [if_neg (here ▸ new), if_pos here, if_pos (here ▸ List.mem_cons_self)]
      · simp only [List.mem_cons, here, false_or, if_false]
    · rw [others c other, cells, Function.update_of_ne other]

end

/-! ## The March phases -/

/-- The byte with this value in every lane. -/
def allLanes (v : Bool) : Byte := if v then 0xFF else 0x00

theorem laneBit_allLanes (v : Bool) (c : BitVec 3) : laneBit (allLanes v) c = v := by
  cases v <;> revert c <;> decide

theorem eq_of_laneBit {x y : Byte} (h : ∀ c, laneBit x c = laneBit y c) : x = y := by
  apply BitVec.eq_of_getLsbD_eq
  intro i inside
  have lane := h (BitVec.ofNat 3 i)
  rwa [laneBit_eq_getLsbD, laneBit_eq_getLsbD, BitVec.toNat_ofNat, Nat.mod_eq_of_lt inside] at lane

/-- A March phase takes a cell that is shown as it is from the lane value it expects to its last write's (R190 to
R193). -/
theorem treats_march {d : Device} {start : Word → Byte} {view : Word → Byte → Byte} {l : Latched} {p : Phase}
    {e : Element} (serves : Serves d start view) (element : elementOf p = some e) :
    Treats d start l p (fun a x => (∀ y, view a y = y) ∧ x = allLanes e.expect)
      fun _ _ => allLanes (e.writes.getLastD e.expect) := by
  intro a s addr running ⟨clear, holds⟩
  have shown (c : BitVec 3) : ShowsLane (view a) c := fun y => by rw [clear]
  have distinct : (laneOrder p).Nodup := by cases p <;> decide
  have all (c : BitVec 3) : c ∈ laneOrder p := by cases p <;> revert c <;> decide
  obtain ⟨t, visits, lanes, others⟩ := visits_lanes serves element addr (laneOrder p) distinct running
    (fun c _ => shown c) fun c _ => by rw [holds, laneBit_allLanes]
  rw [addressPositions, element]
  refine ⟨t, visits, funext fun c => ?_⟩
  by_cases here : c = a
  · subst here
    rw [Function.update_self]
    exact eq_of_laneBit fun b => by rw [lanes b (shown b), if_pos (all b), laneBit_allLanes]
  · rw [Function.update_of_ne here, others c here]

end Sys2Proof.Machine
end

section
/-!
PROOFS of the statements on spec/42_algorithms.md about whole commands: CHECKER, SEQUENCE and MARCH_A pass on
IdealMemory (R199, R201), and stop at the first cell or lane that reads wrong (R182).
-/

namespace Sys2Proof.Machine

/-! ## Phase after phase -/

/-- In t every cell below n holds what f gives, and every other cell what it held in s. -/
def Filled (start : Word → Byte) (n : Nat) (f : Word → Byte) (s t : State) : Prop :=
  ∀ c : Word, cellAfter start t.history c = if c.toNat < n then f c else cellAfter start s.history c

/-- A phase over n cells whose contents are known leaves them at what it makes of them. -/
theorem Treats.fill {d : Device} {start : Word → Byte} {l : Latched} {p : Phase} {ready : Word → Byte → Prop}
    {becomes : Word → Byte → Byte} (treats : Treats d start l p ready becomes) {n : Nat} {f : Word → Byte} {s t : State}
    (size : n ≤ 0x10000) (running : Running l t) (filled : Filled start n f s t) (holds : ∀ c, ready c (f c)) :
    ∃ u, Visits d l (phasePositions p n) t u ∧ Filled start n (fun c => becomes c (f c)) s u := by
  obtain ⟨u, visits, cells⟩ := treats.phase size running fun c inside => by
    rw [filled c, if_pos inside]
    exact holds c
  refine ⟨u, visits, fun c => ?_⟩
  rw [cells, filled c]
  by_cases inside : c.toNat < n
  · simp only [if_pos inside]
  · simp only [if_neg inside]

/-! ## Whole commands -/

/-- The count of a whole command does not wrap (R32, R199). -/
theorem Visits.count_toNat {d : Device} {l : Latched} {qs : List Pos} {s t : State} (h : Visits d l qs s t)
    (uncounted : s.txnCount = 0) (short : qs.length < 2 ^ 32) : t.txnCount.toNat = qs.length := by
  rw [h.count, uncounted, zero_add, BitVec.toNat_ofNat, Nat.mod_eq_of_lt short]

/-- An algorithm whose frames all pass ends PASS, after one step for its dispatch and one for each frame (R198,
log 1). -/
theorem Starts.passes {d : Device} {opc : BitVec 4} {ps : List Phase} {s t : State} {k : Nat} (h : Starts d opc ps s)
    (visits : Visits d s.latched (algorithmPositions ps s.latched.size.toNat) (markDispatched s) t)
    (length : (algorithmPositions ps s.latched.size.toNat).length = k) (short : k < 2 ^ 32) :
    ∃ u, runOn d (1 + k) s = .next u ∧ u.mode = .idle ∧ u.code = .pass ∧ u.txnCount.toNat = k ∧
      u.history = t.history := by
  subst length
  exact ⟨finish t, h.run visits (List.append_nil _).symm, rfl, rfl, visits.count_toNat h.uncounted short, rfl⟩

/-- A READ that finds what it should not ends an algorithm whose frames before it all pass: FAIL, with the READ's
address, the value expected and the byte read (R182, R223). -/
theorem Starts.fails {d : Device} {start : Word → Byte} {view : Word → Byte → Byte} {opc : BitVec 4} {ps : List Phase}
    {qs rest : List Pos} {q : Pos} {exp : Word} {r : Byte} {w : FailWhere} {s t : State} {k : Nat}
    (h : Starts d opc ps s) (serves : Serves d start view) (visits : Visits d s.latched qs (markDispatched s) t)
    (loops : algorithmPositions ps s.latched.size.toNat = qs ++ q :: rest) (length : qs.length = k)
    (short : k + 1 < 2 ^ 32) (named : frameAt s.latched q t.rmw = some (.read q.a)) (addr : q.a.toNat ≤ 0xFFFF)
    (reads : view q.a (cellAfter start t.history q.a) = r)
    (differs : ∀ u : State, u.pos = q → u.latched = s.latched →
      afterRead r u = verifyFail exp r u ∧ whereIn .read false u = w) :
    ∃ u, runOn d (k + 2) s = .next u ∧ u.mode = .idle ∧ u.code = .fail ∧ u.txnCount.toNat = k + 1 ∧ u.failAddr = q.a ∧
      u.failExp = exp ∧ u.failObs = zext r ∧ u.failWhere = w := by
  subst length reads
  have step := stepOn_read_served serves visits.running named addr
  obtain ⟨mismatch, record⟩ := differs (counted (readFrame q.a) (moveTo q t)) rfl visits.running.latched
  rw [mismatch, verifyFail_eq, record] at step
  have count : (t.txnCount + 1).toNat = qs.length + 1 := by
    have before := visits.count_toNat h.uncounted (by omega)
    bv_omega
  have steps : qs.length + 2 = 1 + qs.length + 1 := by omega
  rw [steps]
  exact ⟨_, (runOn_add 1 (h.run visits loops)).trans (runOn_succ 0 step), rfl, rfl, count, rfl, rfl, rfl, rfl⟩

/-! ## Where a run stops -/

theorem range_split_at {n k : Nat} (h : k < n) : ∃ ys, List.range n = List.range k ++ k :: ys := by
  obtain ⟨m, rfl⟩ := Nat.exists_eq_add_of_lt h
  rw [Nat.add_assoc, List.range_add, List.range_succ_eq_map]
  exact ⟨_, rfl⟩

/-- An upward phase stands at address k after the addresses below it. -/
theorem phasePositions_split {p : Phase} (up : descending p = false) {k : Word} {n : Nat} (h : k.toNat < n) :
    ∃ later, phasePositions p n =
      ((List.range k.toNat).flatMap fun a => addressPositions p (BitVec.ofNat 32 a)) ++
        (addressPositions p k ++ later) := by
  obtain ⟨ys, split⟩ := range_split_at h
  have ascends : sweep p n = List.range n := by
    rw [sweep, up]
    rfl
  rw [phasePositions, ascends, split, List.flatMap_append, List.flatMap_cons, BitVec.ofNat_toNat, BitVec.setWidth_eq]
  exact ⟨_, rfl⟩

/-- M1 visits as many lanes before lane b as its number says (R181). -/
theorem laneOrder_split (b : BitVec 3) :
    ∃ xs ys, laneOrder .m1 = xs ++ b :: ys ∧ b ∉ xs ∧ xs.Nodup ∧ xs.length = b.toNat := by
  have split : laneOrder .m1 = (laneOrder .m1).take b.toNat ++ b :: (laneOrder .m1).drop (b.toNat + 1) := by
    revert b
    decide
  have distinct : (laneOrder .m1).Nodup := by decide
  have length : ((laneOrder .m1).take b.toNat).length = b.toNat := List.length_take_of_le (by
    have eight : (laneOrder .m1).length = 8 := rfl
    omega)
  rw [split] at distinct
  exact ⟨_, _, split, fun h => (List.nodup_append.mp distinct).2.2 b h b List.mem_cons_self rfl,
    (List.nodup_append.mp distinct).1, length⟩

/-- CHECKER stands at cell k in CB_VERIFY after CB_WRITE and the cells below k (R186, R187). -/
theorem checkerPositions_split {n : Nat} {k : Word} (inside : k.toNat < n) :
    ∃ later, algorithmPositions checkerPhases n =
      (phasePositions .cbWrite n ++
        (List.range k.toNat).flatMap fun a => addressPositions .cbVerify (BitVec.ofNat 32 a)) ++
      { phase := .cbVerify, a := k, lane := 0, fidx := 0 } :: later := by
  obtain ⟨_, split⟩ := phasePositions_split (p := .cbVerify) rfl inside
  have loops : algorithmPositions checkerPhases n =
      phasePositions .cbWrite n ++ (phasePositions .cbVerify n ++ []) := rfl
  rw [loops, split, List.append_nil, ← List.append_assoc]
  exact ⟨_, rfl⟩

/-- MARCH_A stands at lane b of cell k in M1 after M0, the cells below k, and the lanes before b (R189, R190). -/
theorem marchPositions_split {n : Nat} {k : Word} {b : BitVec 3} {xs ys : List (BitVec 3)} (inside : k.toNat < n)
    (order : laneOrder .m1 = xs ++ b :: ys) :
    ∃ later, algorithmPositions marchPhases n =
      (phasePositions .m0 n ++
        (((List.range k.toNat).flatMap fun a => addressPositions .m1 (BitVec.ofNat 32 a)) ++
          xs.flatMap (elementPositions .m1 element1 k))) ++
      { phase := .m1, a := k, lane := b, fidx := 0 } :: later := by
  obtain ⟨_, split⟩ := phasePositions_split (p := .m1) rfl inside
  have lanes : addressPositions .m1 k = (laneOrder .m1).flatMap (elementPositions .m1 element1 k) := rfl
  have loops : algorithmPositions marchPhases n =
      phasePositions .m0 n ++ (phasePositions .m1 n ++ algorithmPositions [.m2, .m3, .m4] n) := rfl
  rw [loops, split, lanes, order, List.flatMap_append, List.flatMap_cons, elementPositions_eq .m1 element1 k b]
  simp only [List.append_assoc, List.cons_append]
  exact ⟨_, rfl⟩

theorem stuckAt1_shows {b c : BitVec 3} (k : Word) (other : c ≠ b) : ShowsLane (stuckAt1 k b k) c := fun x => by
  rw [stuckAt1, if_pos rfl, laneBit_setLane, decide_eq_false other, Bool.false_or]

/-- On cells that hold 0, M1 passes up to a lane stuck at 1 (R190). -/
theorem visits_toStuckLane {d : Device} {start : Word → Byte} {l : Latched} {k : Word} {b : BitVec 3}
    {bs : List (BitVec 3)} {s : State} (serves : Serves d start (stuckAt1 k b)) (running : Running l s)
    (addr : k.toNat ≤ 0xFFFF) (zero : ∀ c : Word, c.toNat ≤ k.toNat → cellAfter start s.history c = 0) (free : b ∉ bs)
    (distinct : bs.Nodup) :
    ∃ t, Visits d l
      (((List.range k.toNat).flatMap fun a => addressPositions .m1 (BitVec.ofNat 32 a)) ++
        bs.flatMap (elementPositions .m1 element1 k)) s t := by
  obtain ⟨t, below, cells⟩ := (treats_march (p := .m1) serves rfl).allBelow (n := k.toNat) List.nodup_range
    (fun _ => List.mem_range) (by omega) running fun c inside =>
      ⟨fun _ => if_neg fun same => absurd (same ▸ inside) (lt_irrefl _), zero c inside.le⟩
  have zero' : cellAfter start t.history k = 0 := by rw [cells, if_neg (lt_irrefl _), zero k le_rfl]
  obtain ⟨u, lanes, _⟩ := visits_lanes (p := .m1) serves rfl addr bs distinct below.running
    (fun c h => stuckAt1_shows k fun same => free (same ▸ h))
    fun c _ => by
      rw [zero']
      exact laneBit_allLanes false c
  exact ⟨u, below.append lanes⟩

/-! ## The statements -/

/-- Settles O55: CB_WRITE fills the cells with the pattern, which CB_VERIFY then finds. -/
theorem checkerPassesOnIdealMemory : Obligations.CheckerPassesOnIdealMemory := by
  intro start status filler s atDispatch noInput uncounted size step
  have serves := serves_idealMemory start status filler
  have starts := starts_checker (idealMemory start status filler) atDispatch noInput uncounted step
  obtain ⟨t, write, written⟩ := (treats_cbWrite serves).phase size starts.running fun _ _ => trivial
  obtain ⟨u, verify, filled⟩ := (treats_cbVerify serves).fill size write.running written fun _ => rfl
  have visits : Visits _ _ (algorithmPositions checkerPhases s.latched.size.toNat) _ _ :=
    write.append (verify.append (.nil verify.running))
  obtain ⟨length, _, _⟩ := loopLengths s.latched.size.toNat
  obtain ⟨v, run, idle, passed, count, history⟩ := starts.passes visits length (by omega)
  refine ⟨v, run, idle, passed, count, fun a => ?_⟩
  rw [← pat_eq, history]
  exact filled a

/-- Settles O56: SQ_WRITE fills the cells with the datum, which SQ_VERIFY then finds. -/
theorem sequencePassesOnIdealMemory : Obligations.SequencePassesOnIdealMemory := by
  intro start status filler s atDispatch noInput uncounted size datum
  have serves := serves_idealMemory start status filler
  have starts := starts_sequence (idealMemory start status filler) atDispatch noInput uncounted
  obtain ⟨t, write, written⟩ := (treats_sqWrite serves datum).phase size starts.running fun _ _ => trivial
  obtain ⟨u, verify, filled⟩ := (treats_sqVerify serves datum).fill size write.running written fun _ => rfl
  have visits : Visits _ _ (algorithmPositions sequencePhases s.latched.size.toNat) _ _ :=
    write.append (verify.append (.nil verify.running))
  obtain ⟨_, _, length⟩ := loopLengths s.latched.size.toNat
  obtain ⟨v, run, idle, passed, count, history⟩ := starts.passes visits length (by omega)
  exact ⟨v, run, idle, passed, count, fun a => history ▸ filled a⟩

/-- Settles O57: M0 fills the cells with 0x00, and each phase leaves what the next one expects. -/
theorem marchPassesOnIdealMemory : Obligations.MarchPassesOnIdealMemory := by
  intro start status filler s atDispatch noInput uncounted size
  have serves := serves_idealMemory start status filler
  have starts := starts_marchA (idealMemory start status filler) atDispatch noInput uncounted
  have shown (e : Element) (_ : Word) : (∀ y : Byte, y = y) ∧ allLanes e.expect = allLanes e.expect :=
    ⟨fun _ => rfl, rfl⟩
  obtain ⟨t0, m0, filled⟩ := (treats_m0 serves).phase size starts.running fun _ _ => trivial
  obtain ⟨t1, m1, filled⟩ := (treats_march (p := .m1) serves rfl).fill size m0.running filled (shown element1)
  obtain ⟨t2, m2, filled⟩ := (treats_march (p := .m2) serves rfl).fill size m1.running filled (shown element2)
  obtain ⟨t3, m3, filled⟩ := (treats_march (p := .m3) serves rfl).fill size m2.running filled (shown element3)
  obtain ⟨t4, m4, filled⟩ := (treats_march (p := .m4) serves rfl).fill size m3.running filled (shown element4)
  have visits : Visits _ _ (algorithmPositions marchPhases s.latched.size.toNat) _ _ :=
    m0.append (m1.append (m2.append (m3.append (m4.append (.nil m4.running)))))
  obtain ⟨_, length, _⟩ := loopLengths s.latched.size.toNat
  obtain ⟨v, run, idle, passed, count, history⟩ := starts.passes visits length (by omega)
  exact ⟨v, run, idle, passed, count, fun a => history ▸ filled a⟩

/-- Settles O58: every frame before CB_VERIFY's READ of cell k passes, and that one does not. -/
theorem checkerFailsFastAtTheFaultyCell : Obligations.CheckerFailsFastAtTheFaultyCell := by
  intro view start status s k pattern pattern_eq atDispatch noInput uncounted size step inside good bad
  have serves := serves_viewedMemory view start status
  have starts := starts_checker (viewedMemory view start status) atDispatch noInput uncounted step
  have addr : k.toNat ≤ 0xFFFF := by omega
  obtain rfl : pattern = pat s.latched.step := funext fun a => by rw [pattern_eq, pat_eq]
  obtain ⟨t, write, written⟩ := (treats_cbWrite serves).phase size starts.running fun _ _ => trivial
  have cell {c : Word} (h : c.toNat < s.latched.size.toNat) : cellAfter start t.history c = pat s.latched.step c :=
    (written c).trans (if_pos h)
  obtain ⟨u, verify, same⟩ := (treats_cbVerify serves).allBelow (n := k.toNat) List.nodup_range
    (fun _ => List.mem_range) (by omega) write.running fun c below => by
      rw [cell (below.trans inside)]
      exact good c below
  have faulty : cellAfter start u.history k = pat s.latched.step k := by rw [same, ite_self, cell inside]
  obtain ⟨later, loops⟩ := checkerPositions_split inside
  refine starts.fails (q := { phase := .cbVerify, a := k, lane := 0, fidx := 0 }) serves (write.append verify) loops ?_
    (by omega) rfl addr (congrArg (view k) faulty) fun v position latched => ⟨?_, ?_⟩
  · rw [List.length_append, phasePositions_length, addresses_length, List.length_range]
    exact congrArg₂ _ (Nat.mul_one _) (Nat.mul_one _)
  · rw [afterRead_cbVerify _ position rfl, latched, if_neg bad]
    rfl
  · rw [whereIn_sweep _ (latched ▸ atDispatch.opcode) position rfl, latched]
    rfl

/-- Settles O59: every frame before M1's verify of lane b of cell k passes, and that one reads 1. -/
theorem marchFindsALaneStuckAtOne : Obligations.MarchFindsALaneStuckAtOne := by
  intro start status s k b atDispatch noInput uncounted size inside
  have serves := serves_viewedMemory (stuckAt1 k b) start status
  have starts := starts_marchA (viewedMemory (stuckAt1 k b) start status) atDispatch noInput uncounted
  have addr : k.toNat ≤ 0xFFFF := by omega
  obtain ⟨xs, ys, order, free, distinct, lanes⟩ := laneOrder_split b
  obtain ⟨t, m0, zeroed⟩ := (treats_m0 serves).phase size starts.running fun _ _ => trivial
  obtain ⟨u, m1⟩ := visits_toStuckLane serves m0.running addr (fun c h => by rw [zeroed c, if_pos (by omega)]) free
    distinct
  obtain ⟨later, loops⟩ := marchPositions_split inside order
  have length : (phasePositions .m0 s.latched.size.toNat ++
      (((List.range k.toNat).flatMap fun a => addressPositions .m1 (BitVec.ofNat 32 a)) ++
        xs.flatMap (elementPositions .m1 element1 k))).length =
      s.latched.size.toNat + 56 * k.toNat + 7 * b.toNat := by
    have m0Frames : framesPerAddress .m0 = 1 := rfl
    have m1Frames : framesPerAddress .m1 = 56 := rfl
    have element1Frames : elementFrames element1 = 7 := rfl
    rw [List.length_append, List.length_append, phasePositions_length, addresses_length, List.length_range,
      lanes_length, lanes, m0Frames, m1Frames, element1Frames]
    omega
  have stuck (x : Byte) : laneBit (setLane x b) b ≠ false := by
    rw [laneBit_setLane, decide_eq_true rfl, Bool.true_or]
    decide
  obtain ⟨v, run, idle, failed, count, failAddr, failExp, _, failWhere⟩ :=
    starts.fails (q := { phase := .m1, a := k, lane := b, fidx := 0 }) (r := setLane (cellAfter start u.history k) b)
      serves (m0.append m1) loops length (by omega) (frameAt_verify _ rfl rfl) addr (if_pos rfl)
      fun v position latched =>
        ⟨(afterRead_verify _ position rfl rfl).trans (if_neg (stuck _)),
          whereIn_lane _ (latched ▸ atDispatch.opcode) position rfl (by decide)⟩
  exact ⟨v, run, idle, failed, count, failAddr, failExp, failWhere⟩

end Sys2Proof.Machine
end

section
/-!
SUPPORT, then PROOFS of the statements on spec/60_exceptions.md: range errors (R221, R228), OVERRUN (R226), and the block that
only reset gets going again, HALTED (R222) or with an exchange that never answers (R227).
-/

namespace Sys2Proof.Machine

/-! ## Range errors -/

/-- A range error in the statements' words: FAIL_WHERE's RANGE_SEL says which operand did not fit (R221). -/
theorem rangeError_eq (i : Instr) (sel : RangeSel) (s : State) :
    rangeError i sel s =
      ended .rangeError (whereIn (frameInfo i).kind (decide (sel = .value)) s) (frameInfo i).addr (frameInfo i).exp 0 0
        s := by
  have record : failWhereOf .rangeError { frameInfo i with sel := sel } s =
      whereIn (frameInfo i).kind (decide (sel = .value)) s := by
    by_cases checker : s.latched.opc = 0x4 <;>
      simp only [failWhereOf, whereIn, recordsFailure, opcChecker, checker, decide_true, decide_false] <;> rfl
  rw [← record]
  rfl

/-! ## OVERRUN -/

/-- A register write leaves OVERRUN, sets it by a CMD write outside IDLE, or clears it by a STATUS write of bit 3 (R23, R43). -/
theorem writeReg_overrun_cases (o : BitVec 6) (w : Word) (s : State) :
    (writeReg o w s).overrun = s.overrun ∨
      (o = 0x00 ∧ s.mode ≠ .idle ∧ (writeReg o w s).overrun = true) ∨
      (o = 0x04 ∧ w.getLsbD 3 = true ∧ (writeReg o w s).overrun = false) := by
  by_cases cmd : o = 0x00
  · subst cmd
    have written : writeReg 0x00 w s = requestCommand w s := rfl
    rw [written]
    by_cases idle : s.mode = .idle
    · rw [requestCommand_idle w idle]
      exact .inl rfl
    · rw [requestCommand_notIdle w idle]
      exact .inr (.inl ⟨rfl, idle, rfl⟩)
  · by_cases status : o = 0x04
    · subst status
      have written : writeReg 0x04 w s = writeStatus w s := rfl
      rw [written, writeStatus]
      split_ifs with clears
      · exact .inr (.inr ⟨rfl, clears, rfl⟩)
      · exact .inl rfl
    · simp only [writeReg, cmd, status, if_false]
      left
      split_ifs <;> rfl

/-- The sequencer never touches OVERRUN (R226). -/
theorem sequencerTurn_overrun {d : Device} {s t : State} (h : sequencerTurn (execOn d) s = .next t) :
    t.overrun = s.overrun := by
  rcases sequencerTurn_execOn h with ⟨_, rfl⟩ | ⟨i, _, rfl⟩ | ⟨_, _, _, rfl⟩
  · rfl
  · obtain ⟨_, _, _, _, _, _, _, overrun, _⟩ := effect_operands d i s
    exact overrun
  · rfl

/-- A step leaves OVERRUN, sets it by a CMD write outside IDLE, or clears it by a STATUS write of bit 3 or a reset (R226). -/
theorem stepOn_overrun_cases {d : Device} {s t : State} (h : stepOn d s = .next t) :
    t.overrun = s.overrun ∨
      (t.overrun = true ∧ s.mode ≠ .idle ∧ ∃ w rest, s.inputs = .write 0x00 .word w :: rest) ∨
      (t.overrun = false ∧
        (ResetNext s ∨ ∃ w rest, s.inputs = .write 0x04 .word w :: rest ∧ w.getLsbD 3 = true)) := by
  rcases turn_next h with ⟨_, turn⟩ | ⟨rest, _, turn⟩ | ⟨o, w, rest, next, _, rfl⟩ | ⟨o, rest, _, _, rfl⟩ |
    ⟨rest, _, rfl⟩ | ⟨mid, rest, next, rfl⟩
  · exact .inl (sequencerTurn_overrun turn)
  · exact .inl (sequencerTurn_overrun (s := { s with inputs := rest }) turn)
  · rcases writeReg_overrun_cases o w { s with inputs := rest } with same | ⟨rfl, notIdle, set⟩ | ⟨rfl, bit, cleared⟩
    · exact .inl same
    · exact .inr (.inl ⟨set, notIdle, w, rest, next⟩)
    · exact .inr (.inr ⟨cleared, .inr ⟨w, rest, next, bit⟩⟩)
  · exact .inl rfl
  · exact .inl rfl
  · exact .inr (.inr ⟨rfl, .inl ⟨rest, next⟩⟩)

/-! ## A block that only reset gets going again -/

theorem SameCommand.latched {s t : State} (h : SameCommand s t) : t.latched = s.latched := by rw [h]

theorem SameCommand.results {s t : State} (h : SameCommand s t) : SameResults s t := by
  rw [h]
  exact ⟨rfl, rfl, rfl, rfl, rfl, rfl, rfl⟩

/-- A block that is not IDLE, and whose sequencer is not running, keeps its command through every step but a reset: no command
is accepted, and no instruction is issued (R35, R43). -/
theorem stepOn_stalled {d : Device} {s t : State} (notIdle : s.mode ≠ .idle)
    (stalled : ¬ (s.mode = .busy ∧ s.inFlight = none)) (noReset : ¬ ResetNext s) (h : stepOn d s = .next t) :
    SameCommand s t := by
  cases stepOn_effect h with
  | reset mid rest next => exact absurd next noReset
  | same same => exact same
  | accepted w rest next idle => exact absurd idle notIdle
  | issued i rest issued => exact absurd (running_of_issues issued) stalled
  | illegal rest busy free => exact absurd ⟨busy, free⟩ stalled

/-! ## The statements -/

/-- Settles O35: the branches of the range check, each a range error, which exchanges nothing. -/
theorem outOfRangeFrameEndsRangeError : Obligations.OutOfRangeFrameEndsRangeError := by
  intro s a v
  refine ⟨fun issued addr => ?_, fun issued addr => ?_, fun issued addr value => ?_⟩
  all_goals rw [exec_issued issued, effectOn]
  · obtain ⟨_, refused⟩ := (busRead_cases Config.device a s).resolve_right (by omega)
    rw [refused, rangeError_eq]
    rfl
  · obtain ⟨_, refused⟩ := (busWrite_cases Config.device a v s).resolve_right (by omega)
    rw [refused, rangeError_eq]
    rfl
  · obtain ⟨_, _, refused⟩ := ((busWrite_cases Config.device a v s).resolve_left (by omega)).resolve_right (by omega)
    rw [refused, rangeError_eq]
    rfl

/-- Settles O11: what a step can do to OVERRUN, read for its set and for its clear. -/
theorem overrunIsStickyAndDropsTheWrite : Obligations.OverrunIsStickyAndDropsTheWrite := by
  refine ⟨fun s => ?_, fun s w notIdle => ?_, fun s w => ?_, fun s t h wasClear isSet => ?_,
    fun s t h wasSet isClear => ?_⟩
  · obtain ⟨_, _, _, _, overrun, _⟩ := statusWordFields s
    exact overrun
  · rw [hostWrite_cmd, requestCommand_notIdle w notIdle]
  · have written : hostWrite 0x04 .word w s = .next (writeStatus w s) := rfl
    rw [written, writeStatus]
    cases w.getLsbD 3 <;> simp
  · rw [step_eq_stepOn] at h
    rcases stepOn_overrun_cases h with same | ⟨_, cause⟩ | ⟨cleared, _⟩
    · simp [same, wasClear] at isSet
    · exact cause
    · simp [cleared] at isSet
  · rw [step_eq_stepOn] at h
    rcases stepOn_overrun_cases h with same | ⟨set, _⟩ | ⟨_, cause⟩
    · simp [same, wasSet] at isClear
    · simp [set] at isClear
    · exact cause

/-- Settles O41: the frame in flight keeps the sequencer from running. -/
theorem hangLastsUntilReset : Obligations.HangLastsUntilReset := by
  intro s t tx busy inFlight noReset h
  rw [step_eq_stepOn] at h
  have same : SameCommand s t := stepOn_stalled (by simp [busy]) (by simp [inFlight]) noReset h
  exact ⟨same.mode.trans busy, same.inFlight.trans inFlight, same.history, same.txnCount, same.results, same.latched,
    same.pos⟩

/-- Settles O42: in HALTED the sequencer does not run, and a CMD write is dropped. -/
theorem haltLastsUntilReset : Obligations.HaltLastsUntilReset := by
  intro s t halted noReset h
  rw [step_eq_stepOn] at h
  have same : SameCommand s t := stepOn_stalled (by simp [halted]) (by simp [halted]) noReset h
  exact ⟨same.mode.trans halted, same.history, same.txnCount, same.results, same.latched⟩

end Sys2Proof.Machine
end
